-- ==== Sys2Proof/Word.lean ====
section
/-! DEFINITION. The plain data of the block: levels, durations, samples, messages, statuses (00_scope R10 to R12). -/

namespace Sys2Proof

/-- One byte of the accumulator store (10_state R23). -/
abbrev Byte := BitVec 8

/-- A duration in microseconds as the interface carries it: 32 bits, unsigned (00_scope R12). -/
abbrev Dur := BitVec 32

/-- A level is one bit: `true` is Mark, `false` is Space (00_scope R11). -/
abbrev Level := Bool

/-- Mark, the active level (00_scope R11). -/
abbrev Level.mark : Level := true

/-- Space, the idle level (00_scope R11). -/
abbrev Level.space : Level := false

/-- The 80-bit command word (30_encoding R80). -/
abbrev CommandWord := BitVec 80

/-- The 88-bit response word (30_encoding R85). -/
abbrev ResponseWord := BitVec 88

/-- A timing sample: one entry of the pulse buffer or of the upload buffer (00_scope section 6). -/
structure Sample where
  level : Level
  duration : Dur
deriving DecidableEq, Repr, Inhabited

/-- A decoded message (30_encoding R88); `isRepeat` is the field the spec calls `repeat`. -/
structure Message where
  protocolId : BitVec 8
  code : BitVec 64
  bitCount : BitVec 8
  isRepeat : Bool
deriving DecidableEq, Repr, Inhabited

/-- The result of a demodulator or of the repeat hook (44_demodulators R161). -/
inductive DemodStatus where
  | ok
  | ready
  | error
deriving DecidableEq, Repr, Inhabited

/-- The result of `interpret` (10_state R36). -/
inductive Verdict where
  | reject
  | accept (code : BitVec 64) (bitCount : BitVec 8)
deriving DecidableEq, Repr, Inhabited

end Sys2Proof
end

