-- ==== Sys2Proof/Config.lean ====
section
/-! DEFINITION. What an integrator fixes for a whole run: capacities, the two descriptors, the two hooks; and the model's free values. -/

namespace Sys2Proof

/-- `P.modulation` (10_state R34): `PD = 0`, `PW = 1`, `MAN = 2`; the value 3 has no constructor (93 U4). -/
inductive Modulation where
  | pd
  | pw
  | man
deriving DecidableEq, Repr

/-- Which function `P.interpret` is (10_state R36). The functions themselves are `Machine.interpret`. -/
inductive InterpretHook where
  /-- `RefInterpret` (10_state R38). -/
  | reference
  /-- The function of vector V-EN3: always `reject`. -/
  | rejectAll
  /-- Any other function: number `n` of the uninterpreted family `Config.interpretFn`. -/
  | other (n : Nat)
deriving DecidableEq, Repr

/-- Which function `P.demod_repeat` is, or that there is none (10_state R37). The functions themselves are
`Machine.demodRepeat`. -/
inductive RepeatHook where
  | absent
  /-- `RefRepeat(pause_min, pause_max, rpt_mark, rpt_space)` (10_state R39). -/
  | reference (pauseMin pauseMax rptMark rptSpace : Nat)
  /-- The function of program P6: always `(Ok, 0)`. -/
  | holdAll
  /-- Any other function that meets the contract: number `n` of the uninterpreted family `Config.repeatFn`. -/
  | other (n : Nat)
deriving DecidableEq, Repr

/-- The generic protocol descriptor `P`, field by field as the table of 10_state R34. -/
structure GenericDescriptor where
  protocolId : BitVec 8
  modulation : Modulation
  preambleMark : Dur
  preambleSpace : Dur
  preambleTol : Dur
  /-- Mark duration of a 1 bit; also the Manchester unit duration. -/
  bit1Mark : Dur
  bit1Space : Dur
  bit0Mark : Dur
  bit0Space : Dur
  bitTol : Dur
  bitLength : Nat
  manchStartFromSpace : Bool
  manchFirstBit : Bool
  manchEndLevel : Level
  interpret : InterpretHook
  demodRepeat : RepeatHook
deriving DecidableEq, Repr

/-- The custom protocol descriptor `Q`, field by field as the table of 10_state R35. -/
structure CustomDescriptor where
  protocolId : BitVec 8
  short : Dur
  long : Dur
  delta : Dur
  minBits : BitVec 8
  maxBits : BitVec 8
  encHdrPairs : Nat
  encStopSpace : Dur
deriving DecidableEq, Repr

/-- The implementation parameters of 00_scope R6 (`PID_BITS` and `HDR_BITS` are the widths 8 and 16 of the types). -/
structure Config where
  pbCap : Nat
  accBytes : Nat
  encCap : Nat
  p : GenericDescriptor
  q : CustomDescriptor
  /-- `CMD_PORT_BASE` (20_memory R68): where a platform places the command port; no rule reads it. -/
  cmdPortBase : Nat
deriving DecidableEq, Repr

namespace Config

/-- The uninterpreted `interpret` functions: the spec gives the contract only (10_state R36). Log entry 5. -/
opaque interpretFn : Nat → List Byte → Nat → Verdict

/-- The uninterpreted `demod_repeat` functions: the spec gives the contract only (10_state R37), and the type holds it: the
count is at most the number of entries. A function that breaks the contract, which 00_scope R7 refuses, cannot be
configured. Log entry 5. -/
opaque repeatFn : Nat → (entries : List Sample) → GenericDescriptor → DemodStatus × Fin (entries.length + 1)

/-- FREE VALUE: what `c_bits` holds after a lone `CBIT` at `c_bits = 255`; no rule states it (log entry 12). -/
opaque bitCountPastWidth : BitVec 64 → Bool → BitVec 8

/-- FREE VALUE: bit `i` of a 64-bit code for `i` above 63, which a lone `EFILL` of more than 64 bits asks for; no rule states
it (log entry 26). -/
opaque codeBitPastWidth : BitVec 64 → Nat → Bool

/-- FREE VALUE: the level that a lone `PBLVL` answers on an empty buffer, which its rule does not state (log entry 25). -/
opaque levelOfEmptyBuffer : Level → Level

/-- FREE VALUE: the duration of the start Mark when `4*short` does not fit 32 bits, under a `Q` that is not
well-formed; no rule states it (log entry 13). -/
opaque startMarkPastWidth : Dur → Dur

end Config

end Sys2Proof
end

