-- ==== Sys2Proof/Syntax.lean ====
section
/-! DEFINITION. The instructions (one constructor per row of the opcode table) and what can be presented to the block. -/

namespace Sys2Proof

/-- The seven commands of 30_encoding R86 and the seventeen micro-operations of 30_encoding R91. -/
inductive Instr where
  /-- 0x01, format Z: reset of the generic decoder (R148). -/
  | drst
  /-- 0x02, format S: one sample to the generic engine (R140). -/
  | edge (level : Level) (duration : Dur)
  /-- 0x03, format Z: reset of the custom machine (R207). -/
  | crst
  /-- 0x04, format S: one edge to the custom machine (R200). -/
  | cedge (level : Level) (duration : Dur)
  /-- 0x05, format Z: reset of the encoder (R225). -/
  | erst
  /-- 0x06, format K: encode (R220). -/
  | enc (code : BitVec 64) (bitCount : BitVec 8)
  /-- 0x07, format Z: pull one sample (R224). -/
  | next
  /-- 0x80: the comparator (R110); `expected` is a natural of at most 36 bits. -/
  | matchOp (measured : Dur) (expected : Nat) (tolerance : Dur)
  /-- 0x88: append to the pulse buffer (R120). -/
  | pbpush (level : Level) (duration : Dur)
  /-- 0x89: consume `k` entries from the front (R121). -/
  | pbcons (k : Nat)
  /-- 0x8A: empty the pulse buffer (R122). -/
  | pbclr
  /-- 0x8B: the inferred level of the front entry (R123). -/
  | pblvl
  /-- 0x90: the preamble detector (R130). -/
  | prdet
  /-- 0x98: force-reset (R141). -/
  | frst
  /-- 0x99: state reset (R142). -/
  | srst
  /-- 0x9A: the engine loop (R143). -/
  | erun
  /-- 0xA0: the pulse-distance demodulator (R164). -/
  | dmpd
  /-- 0xA1: the pulse-width demodulator (R166). -/
  | dmpw
  /-- 0xA2: the Manchester demodulator (R168). -/
  | dmman
  /-- 0xA3: the repeat hook (R172). -/
  | dmrpt
  /-- 0xA8: clear the accumulator (R190). -/
  | aclr
  /-- 0xA9: push one bit into the accumulator (R191). -/
  | apush (bit : Bool)
  /-- 0xB0: push one bit into the custom shift register (R205). -/
  | cbit (bit : Bool)
  /-- 0xB8: fill the upload buffer (R222). -/
  | efill (code : BitVec 64) (bitCount : BitVec 8)
deriving DecidableEq, Repr

/-- One call of a micro-operation by a test bench: its identifier (30_encoding R91) and its operands "passed as the
values its rule names"; operands a micro-operation does not have are 0. -/
structure MicroCall where
  id : BitVec 8
  a : Nat
  b : Nat
  c : Nat
deriving DecidableEq, Repr

/-- What is presented to the block next. -/
inductive Event where
  /-- A word on the command port (30_encoding R80). -/
  | command (word : CommandWord)
  /-- Hardware reset (70_reset R260); not a command word. -/
  | reset
  /-- A micro-operation called alone, as the micro-operation vectors of 95_test_vectors do. It does not come through
  the command port, where every micro-operation identifier is illegal (30_encoding R90, R91). Log entry 2. -/
  | call (c : MicroCall)
deriving DecidableEq, Repr

/-- The events that the host of the block can cause; a lone micro-operation call is the test bench's. -/
def Event.fromHost : Event → Bool
  | .command _ => true
  | .reset => true
  | .call _ => false

end Sys2Proof
end

