-- ==== Sys2Proof/Decode.lean ====
section
/-! DEFINITION. Decoding of command words and of micro-operation calls, total and rejecting by name; then the encoder (30_encoding). -/

namespace Sys2Proof

/-- Why a word or a call is not an instruction. -/
inductive DecodeError where
  /-- The opcode is neither a command nor in the micro-operation range (30_encoding R90). -/
  | unknownOpcode (op : BitVec 8)
  /-- Bit 7 of the opcode is set: never accepted on the command port (30_encoding R90, R91). -/
  | internalOpcode (op : BitVec 8)
  /-- A bit that the command's format requires to be zero is 1 (30_encoding R81, R82, R90). -/
  | nonzeroField (op : BitVec 8)
  /-- The identifier names no micro-operation (30_encoding R91). -/
  | unknownMicro (id : BitVec 8)
  /-- An operand value is out of the range its rule gives, or an operand the micro-operation does not have is not 0. -/
  | operandRange (id : BitVec 8)
  /-- Hardware reset is not an instruction (30_encoding R94). -/
  | notAnInstruction
deriving DecidableEq, Repr

/-- `CW[79:72]`, the opcode (30_encoding R80). -/
def opField (w : CommandWord) : BitVec 8 := w.extractLsb' 72 8

/-- `CW[71:0]`, the operand field (30_encoding R80). -/
def operandField (w : CommandWord) : BitVec 72 := w.extractLsb' 0 72

/-- `CW[71:33]`, the zero field of format S (30_encoding R82). -/
def sampleZeroField (w : CommandWord) : BitVec 39 := w.extractLsb' 33 39

/-- `CW[32]`, the level of format S (30_encoding R82). -/
def levelField (w : CommandWord) : Level := w.getLsbD 32

/-- `CW[31:0]`, the duration of format S (30_encoding R82). -/
def durationField (w : CommandWord) : Dur := w.extractLsb' 0 32

/-- `CW[71:8]`, the code of format K (30_encoding R83). -/
def codeField (w : CommandWord) : BitVec 64 := w.extractLsb' 8 64

/-- `CW[7:0]`, the bit count of format K (30_encoding R83). -/
def bitCountField (w : CommandWord) : BitVec 8 := w.extractLsb' 0 8

/-- Format Z: the operand field must be 0 (30_encoding R81). -/
def decodeFormatZ (w : CommandWord) (i : Instr) : Except DecodeError Instr :=
  if operandField w = 0 then .ok i else .error (.nonzeroField (opField w))

/-- Format S: bits 71:33 must be 0 (30_encoding R82). -/
def decodeFormatS (w : CommandWord) (f : Level → Dur → Instr) : Except DecodeError Instr :=
  if sampleZeroField w = 0 then .ok (f (levelField w) (durationField w)) else .error (.nonzeroField (opField w))

/-- Format K: no bit is reserved (30_encoding R83). -/
def decodeFormatK (w : CommandWord) (f : BitVec 64 → BitVec 8 → Instr) : Except DecodeError Instr :=
  .ok (f (codeField w) (bitCountField w))

/-- A word on the command port (30_encoding R86, R90). -/
def decodeWord (w : CommandWord) : Except DecodeError Instr :=
  if opField w = 0x01#8 then decodeFormatZ w .drst
  else if opField w = 0x02#8 then decodeFormatS w .edge
  else if opField w = 0x03#8 then decodeFormatZ w .crst
  else if opField w = 0x04#8 then decodeFormatS w .cedge
  else if opField w = 0x05#8 then decodeFormatZ w .erst
  else if opField w = 0x06#8 then decodeFormatK w .enc
  else if opField w = 0x07#8 then decodeFormatZ w .next
  else if (opField w).getLsbD 7 then .error (.internalOpcode (opField w))
  else .error (.unknownOpcode (opField w))

/-- A micro-operation without operands. -/
def decodeCall0 (c : MicroCall) (i : Instr) : Except DecodeError Instr :=
  if c.a = 0 ∧ c.b = 0 ∧ c.c = 0 then .ok i else .error (.operandRange c.id)

/-- A micro-operation with one bit as its operand. -/
def decodeCallBit (c : MicroCall) (f : Bool → Instr) : Except DecodeError Instr :=
  if c.a < 2 ∧ c.b = 0 ∧ c.c = 0 then .ok (f (decide (c.a = 1))) else .error (.operandRange c.id)

/-- A call of a micro-operation: the identifier selects, the operand values are checked against the widths of the
micro-operation's rule (30_encoding R91). -/
def decodeCall (c : MicroCall) : Except DecodeError Instr :=
  if c.id = 0x80#8 then
    if c.a < 2 ^ 32 ∧ c.b < 2 ^ 36 ∧ c.c < 2 ^ 32 then .ok (.matchOp (BitVec.ofNat 32 c.a) c.b (BitVec.ofNat 32 c.c))
    else .error (.operandRange c.id)
  else if c.id = 0x88#8 then
    if c.a < 2 ∧ c.b < 2 ^ 32 ∧ c.c = 0 then .ok (.pbpush (decide (c.a = 1)) (BitVec.ofNat 32 c.b))
    else .error (.operandRange c.id)
  else if c.id = 0x89#8 then
    if c.b = 0 ∧ c.c = 0 then .ok (.pbcons c.a) else .error (.operandRange c.id)
  else if c.id = 0x8A#8 then decodeCall0 c .pbclr
  else if c.id = 0x8B#8 then decodeCall0 c .pblvl
  else if c.id = 0x90#8 then decodeCall0 c .prdet
  else if c.id = 0x98#8 then decodeCall0 c .frst
  else if c.id = 0x99#8 then decodeCall0 c .srst
  else if c.id = 0x9A#8 then decodeCall0 c .erun
  else if c.id = 0xA0#8 then decodeCall0 c .dmpd
  else if c.id = 0xA1#8 then decodeCall0 c .dmpw
  else if c.id = 0xA2#8 then decodeCall0 c .dmman
  else if c.id = 0xA3#8 then decodeCall0 c .dmrpt
  else if c.id = 0xA8#8 then decodeCall0 c .aclr
  else if c.id = 0xA9#8 then decodeCallBit c .apush
  else if c.id = 0xB0#8 then decodeCallBit c .cbit
  else if c.id = 0xB8#8 then
    if c.a < 2 ^ 64 ∧ c.b < 2 ^ 8 ∧ c.c = 0 then .ok (.efill (BitVec.ofNat 64 c.a) (BitVec.ofNat 8 c.b))
    else .error (.operandRange c.id)
  else .error (.unknownMicro c.id)

/-- Whatever is presented to the block, as an instruction. -/
def decode : Event → Except DecodeError Instr
  | .command w => decodeWord w
  | .call c => decodeCall c
  | .reset => .error .notAnInstruction

/-- A format Z word (30_encoding R81). -/
def encodeFormatZ (op : BitVec 8) : CommandWord := op ++ 0#72

/-- A format S word (30_encoding R82). -/
def encodeFormatS (op : BitVec 8) (level : Level) (duration : Dur) : CommandWord :=
  op ++ 0#39 ++ BitVec.ofBool level ++ duration

/-- A format K word (30_encoding R83). -/
def encodeFormatK (op : BitVec 8) (code : BitVec 64) (bitCount : BitVec 8) : CommandWord := op ++ code ++ bitCount

/-- The event that presents an instruction: a command's word on the command port (30_encoding R86), a micro-operation's
identifier and operand values (30_encoding R91). -/
def encode : Instr → Event
  | .drst => .command (encodeFormatZ 0x01#8)
  | .edge level duration => .command (encodeFormatS 0x02#8 level duration)
  | .crst => .command (encodeFormatZ 0x03#8)
  | .cedge level duration => .command (encodeFormatS 0x04#8 level duration)
  | .erst => .command (encodeFormatZ 0x05#8)
  | .enc code bitCount => .command (encodeFormatK 0x06#8 code bitCount)
  | .next => .command (encodeFormatZ 0x07#8)
  | .matchOp measured expected tolerance => .call ⟨0x80#8, measured.toNat, expected, tolerance.toNat⟩
  | .pbpush level duration => .call ⟨0x88#8, level.toNat, duration.toNat, 0⟩
  | .pbcons k => .call ⟨0x89#8, k, 0, 0⟩
  | .pbclr => .call ⟨0x8A#8, 0, 0, 0⟩
  | .pblvl => .call ⟨0x8B#8, 0, 0, 0⟩
  | .prdet => .call ⟨0x90#8, 0, 0, 0⟩
  | .frst => .call ⟨0x98#8, 0, 0, 0⟩
  | .srst => .call ⟨0x99#8, 0, 0, 0⟩
  | .erun => .call ⟨0x9A#8, 0, 0, 0⟩
  | .dmpd => .call ⟨0xA0#8, 0, 0, 0⟩
  | .dmpw => .call ⟨0xA1#8, 0, 0, 0⟩
  | .dmman => .call ⟨0xA2#8, 0, 0, 0⟩
  | .dmrpt => .call ⟨0xA3#8, 0, 0, 0⟩
  | .aclr => .call ⟨0xA8#8, 0, 0, 0⟩
  | .apush bit => .call ⟨0xA9#8, bit.toNat, 0, 0⟩
  | .cbit bit => .call ⟨0xB0#8, bit.toNat, 0, 0⟩
  | .efill code bitCount => .call ⟨0xB8#8, code.toNat, bitCount.toNat, 0⟩

/-- The event of a row of the opcode table: an 80-bit row is a command word, an 8-bit row a micro-operation identifier
whose operand values are all 0. -/
def tableEvent (nbits w : Nat) : Event :=
  if nbits = 8 then .call ⟨BitVec.ofNat 8 w, 0, 0, 0⟩ else .command (BitVec.ofNat 80 w)

/-- The instruction the decoder reads from a row of the opcode table; `none` where it refuses, and for a length that no
row has (30_encoding R92). -/
def decodeTableWord (nbits w : Nat) : Option Instr :=
  if (nbits = 8 ∨ nbits = 80) ∧ w < 2 ^ nbits then (decode (tableEvent nbits w)).toOption else none

end Sys2Proof
end

