-- ==== Sys2Proof/Machine/Operands.lean ====
section
/-! DEFINITION. The comparator and the values its operands take: products, thresholds, lengths (R110, R112, R230). -/

namespace Sys2Proof.Machine

/-- `HDR_MIN`: the header count that must be exceeded (10_state R35). -/
def hdrMin : Nat := 40

/-- `START_MULT`: the start Mark in units of `short` (10_state R35). -/
def startMult : Nat := 4

/-- `STOP_MULT`: the stop Space in units of `short` (10_state R35). -/
def stopMult : Nat := 10

/-- `STOP_TOL_MULT`: the stop margin in units of `delta` (10_state R35). -/
def stopTolMult : Nat := 2

/-- The largest value of the 16-bit header counter, where it saturates (10_state R29). -/
def hdrMax : Nat := 65535

/-- The absolute difference of two naturals; it never wraps (R111 (a)). -/
def absDiff (a b : Nat) : Nat := if b ≤ a then a - b else b - a

/-- `MATCH`, the one comparator of the block: strict, over the naturals (40_tolerance_matcher R110). -/
def windowMatch (measured expected tolerance : Nat) : Bool := decide (absDiff measured expected < tolerance)

/-- The comparator with a stored duration and a descriptor's tolerance. -/
def durMatch (measured : Dur) (expected : Nat) (tolerance : Dur) : Bool :=
  windowMatch measured.toNat expected tolerance.toNat

namespace GenericTiming

/-- `Match(t, P.preamble_mark, P.preamble_tol)` (42_preamble_detector R134). -/
def preambleMark (p : GenericDescriptor) (t : Dur) : Bool := durMatch t p.preambleMark.toNat p.preambleTol

/-- `Match(t, P.preamble_space, P.preamble_tol)` (42_preamble_detector R134). -/
def preambleSpace (p : GenericDescriptor) (t : Dur) : Bool := durMatch t p.preambleSpace.toNat p.preambleTol

/-- `Match(t, P.bit1_mark, P.bit_tol)`; also the Manchester single width (44_demodulators R163, R168). -/
def bit1Mark (p : GenericDescriptor) (t : Dur) : Bool := durMatch t p.bit1Mark.toNat p.bitTol

/-- `Match(t, P.bit1_space, P.bit_tol)` (44_demodulators R163). -/
def bit1Space (p : GenericDescriptor) (t : Dur) : Bool := durMatch t p.bit1Space.toNat p.bitTol

/-- `Match(t, P.bit0_mark, P.bit_tol)` (44_demodulators R163). -/
def bit0Mark (p : GenericDescriptor) (t : Dur) : Bool := durMatch t p.bit0Mark.toNat p.bitTol

/-- `Match(t, P.bit0_space, P.bit_tol)` (44_demodulators R163). -/
def bit0Space (p : GenericDescriptor) (t : Dur) : Bool := durMatch t p.bit0Space.toNat p.bitTol

/-- The Manchester double width `Match(t, 2*unit, P.bit_tol)`; the product is exact (44_demodulators R168, R230 (b)). -/
def double (p : GenericDescriptor) (t : Dur) : Bool := durMatch t (2 * p.bit1Mark.toNat) p.bitTol

end GenericTiming

namespace CustomTiming

/-- `4*short`, exact (R230 (b)). -/
def startMark (q : CustomDescriptor) : Nat := startMult * q.short.toNat

/-- `10*short + 2*delta`, exact (46_custom_fsm R204). -/
def stopThreshold (q : CustomDescriptor) : Nat := stopMult * q.short.toNat + stopTolMult * q.delta.toNat

/-- `Match(t, Q.short, Q.delta)` (46_custom_fsm R208). -/
def isShort (q : CustomDescriptor) (t : Dur) : Bool := durMatch t q.short.toNat q.delta

/-- `Match(t, Q.long, Q.delta)` (46_custom_fsm R208). -/
def isLong (q : CustomDescriptor) (t : Dur) : Bool := durMatch t q.long.toNat q.delta

/-- `Match(t, 4*Q.short, Q.delta)` (46_custom_fsm R208). -/
def isStart (q : CustomDescriptor) (t : Dur) : Bool := durMatch t (startMark q) q.delta

/-- The stop condition `d >= 10*Q.short + 2*Q.delta`, not strict (46_custom_fsm R204). -/
def isStop (q : CustomDescriptor) (t : Dur) : Bool := decide (stopThreshold q ≤ t.toNat)

/-- The length `L` of a waveform in entries, exact (47_waveform_encoder R221). -/
def waveformLength (q : CustomDescriptor) (bitCount : Nat) : Nat := 2 * q.encHdrPairs + 2 + 2 * bitCount + 2

end CustomTiming

end Sys2Proof.Machine
end

