-- ==== Sys2Proof/Machine/Descriptor.lean ====
section
/-! DEFINITION. The hooks of `P`, the reference configurations of 95_test_vectors section 2, and the well-formedness of a configuration. -/

namespace Sys2Proof.Machine

/-- A byte list as a number, byte 0 least significant (the sum of 10_state R38). -/
def bytesToNat : List Byte → Nat
  | [] => 0
  | b :: rest => b.toNat + 256 * bytesToNat rest

/-- `RefInterpret` (10_state R38). -/
def refInterpret (view : List Byte) (count : Nat) : Verdict :=
  .accept (BitVec.ofNat 64 (bytesToNat view)) (BitVec.ofNat 8 count)

/-- `RefRepeat(pause_min, pause_max, rpt_mark, rpt_space)` (10_state R39). -/
def refRepeat (pauseMin pauseMax rptMark rptSpace : Nat) (p : GenericDescriptor) : List Sample → DemodStatus × Nat
  | e0 :: e1 :: e2 :: e3 :: _ =>
    if pauseMin < e0.duration.toNat ∧ e0.duration.toNat < pauseMax
        ∧ durMatch e1.duration rptMark p.preambleTol = true
        ∧ durMatch e2.duration rptSpace p.preambleTol = true
        ∧ GenericTiming.bit1Mark p e3.duration = true
    then (.ready, 4)
    else (.error, 0)
  | _ => (.ok, 0)

/-- `P.interpret` applied to the accumulator view and the bit count (10_state R36). -/
def interpret (p : GenericDescriptor) (view : List Byte) (count : Nat) : Verdict :=
  match p.interpret with
  | .reference => refInterpret view count
  | .rejectAll => .reject
  | .other n => Config.interpretFn n view count

/-- `P.demod_repeat` applied to the buffer's entries and `P`, or `none` where it is absent (10_state R37). -/
def demodRepeat (p : GenericDescriptor) (entries : List Sample) : Option (DemodStatus × Nat) :=
  match p.demodRepeat with
  | .absent => none
  | .reference pauseMin pauseMax rptMark rptSpace => some (refRepeat pauseMin pauseMax rptMark rptSpace p entries)
  | .holdAll => some (.ok, 0)
  | .other n => some ((Config.repeatFn n entries p).1, (Config.repeatFn n entries p).2.val)

/-- The contract of `demod_repeat`: it never asks for more entries than there are (10_state R37). Every hook that a
configuration can name meets it (`Machine.repeatContract` in Sys2Proof/Laws/Units.lean). -/
def RepeatContract (p : GenericDescriptor) : Prop :=
  ∀ entries st k, demodRepeat p entries = some (st, k) → k ≤ entries.length

/-- `WF_P(P)` (00_scope R7). Its conjuncts on the modulation and on the contracts of the two hooks hold by the types: three
modulations, an `interpret` of its two arguments, and a `demod_repeat` with `k <= pb_len` (`RepeatContract`). -/
def wfGeneric (accBytes : Nat) (p : GenericDescriptor) : Bool :=
  decide (1 ≤ p.bitLength) && decide (p.bitLength ≤ 8 * accBytes)
    && (!decide (p.modulation = .man)
        || (decide (2 * p.bitTol.toNat ≤ p.bit1Mark.toNat)
            && (!p.manchStartFromSpace || decide (2 ≤ p.bitLength))))

/-- `WF_Q(Q)` (00_scope R8). -/
def wfCustom (q : CustomDescriptor) : Bool :=
  decide (q.maxBits.toNat ≤ 64) && decide (q.minBits.toNat ≤ q.maxBits.toNat)
    && decide (CustomTiming.startMark q < 2 ^ 32)

/-- The capacities' constraints (00_scope R6) and both descriptors' (00_scope R7, R8). -/
def wfConfig (c : Config) : Bool :=
  decide (2 ≤ c.pbCap) && decide (1 ≤ c.encCap) && wfGeneric c.accBytes c.p && wfCustom c.q

/-- REF-PD of 95_test_vectors section 2. -/
def refPd : GenericDescriptor where
  protocolId := 1
  modulation := .pd
  preambleMark := 9000
  preambleSpace := 4500
  preambleTol := 1800
  bit1Mark := 560
  bit1Space := 1690
  bit0Mark := 560
  bit0Space := 560
  bitTol := 200
  bitLength := 8
  manchStartFromSpace := false
  manchFirstBit := false
  manchEndLevel := .space
  interpret := .reference
  demodRepeat := .absent

/-- REF-PW of 95_test_vectors section 2. -/
def refPw : GenericDescriptor where
  protocolId := 3
  modulation := .pw
  preambleMark := 2400
  preambleSpace := 600
  preambleTol := 480
  bit1Mark := 1200
  bit1Space := 600
  bit0Mark := 600
  bit0Space := 600
  bitTol := 150
  bitLength := 4
  manchStartFromSpace := false
  manchFirstBit := false
  manchEndLevel := .space
  interpret := .reference
  demodRepeat := .absent

/-- REF-MAN of 95_test_vectors section 2. -/
def refMan : GenericDescriptor where
  protocolId := 4
  modulation := .man
  preambleMark := 0
  preambleSpace := 0
  preambleTol := 0
  bit1Mark := 889
  bit1Space := 0
  bit0Mark := 0
  bit0Space := 0
  bitTol := 300
  bitLength := 4
  manchStartFromSpace := true
  manchFirstBit := true
  manchEndLevel := .mark
  interpret := .reference
  demodRepeat := .absent

/-- REF-MAN2 of 95_test_vectors section 2. -/
def refMan2 : GenericDescriptor := { refMan with manchStartFromSpace := false }

/-- REF-CUS of 95_test_vectors section 2. -/
def refCus : CustomDescriptor where
  protocolId := 2
  short := 200
  long := 400
  delta := 80
  minBits := 55
  maxBits := 64
  encHdrPairs := 41
  encStopSpace := 2160

/-- REF-CUS-S of 95_test_vectors section 2. -/
def refCusS : CustomDescriptor := { refCus with encHdrPairs := 2 }

/-- The reference configuration: the reference capacities of 00_scope R6 with REF-PD and REF-CUS (the configuration of
95_test_vectors section 3.12). DESIGN CHOICE, log entry 4. -/
def refConfig : Config where
  pbCap := 16
  accBytes := 8
  encCap := 512
  p := refPd
  q := refCus
  cmdPortBase := 0

end Sys2Proof.Machine
end

