-- ==== Sys2Proof/Machine/State.lean ====
section
/-! DEFINITION. The state of the block as plain data (10_state), the reasons a step can stop, and the state after reset. -/

namespace Sys2Proof.Machine

/-- The three internal arrays (20_memory R60). -/
inductive ArrayName where
  | pb
  | acc
  | ub
deriving DecidableEq, Repr

/-- Why the MODEL stops with a fault. The block's own faults are not here: they are next states (60_exceptions R243). -/
inductive Fault where
  /-- Raised by `APUSH`, by the accumulator view and by `NEXT` when they would read an entry of an array that holds no
  value (10_state R44, 93 U3). No state that a run from reset reaches does so. SAFE: the model gives no value. -/
  | unspecifiedEntry (array : ArrayName) (index : Nat)
deriving DecidableEq, Repr

/-- Why the MODEL refuses: the spec gives the call or the configuration no meaning. -/
inductive Refusal where
  /-- Raised by an arm of `exec` for an instruction without a meaning yet; no arm raises it now. SAFE. -/
  | notModelled (mnemonic : String)
  /-- Raised by `step` for a configuration that is not well-formed (00_scope R7, R8, 93 U7). SAFE. -/
  | illFormedConfig
  /-- Raised by `PBCONS(k)` called alone with `k > pb_len` (41_pulse_buffer R121, 93 U6). SAFE. -/
  | consumeBeyondLength (k len : Nat)
  /-- Raised by `EFILL` alone when the waveform is longer than the upload buffer: "an out-of-range index cannot be formed"
  (48_arithmetic_control_access R232). SAFE. -/
  | indexOutOfRange (array : ArrayName) (index : Nat)
  /-- Raised by `DMRPT` alone when `P.demod_repeat` is absent (44_demodulators R172). SAFE. -/
  | repeatHookAbsent
  /-- Raised by a lone call whose identifier or operands name no micro-operation (30_encoding R91). SAFE. -/
  | notAMicroOperation (id : BitVec 8)
  /-- Raised by the engine loop if it ran more arms than 43_decode_engine R147 allows; it never does. SAFE. -/
  | engineDidNotSettle
deriving DecidableEq, Repr

/-- A cause of the block's fault (60_exceptions R244). -/
inductive Cause where
  | pbOvf
  | accOvf
deriving DecidableEq, Repr

/-- `eng_state` (10_state R21). -/
inductive EngState where
  | waitPreamble
  | decode
  | processRepeat
deriving DecidableEq, Repr

/-- `c_state`, values 0 to 3 in this order (10_state R27). -/
inductive CState where
  /-- 0: idle. -/
  | idle
  /-- 1: counting headers and awaiting the start bit. -/
  | header
  /-- 2: awaiting a bit mark. -/
  | bitMark
  /-- 3: awaiting a bit space (decision point). -/
  | bitSpace
deriving DecidableEq, Repr

/-- An internal array: the entries that hold a value, as (index, value) pairs; `Memory.wf` says its one canonical form. An
index that is not listed holds no value (10_state R44). -/
abbrev Memory (α : Type) := List (Nat × α)

/-- The generic decoder group (10_state R20 to R26). -/
structure DecoderState where
  /-- `eng_state` (R21). -/
  engState : EngState
  /-- `PB[0..pb_len-1]`, front first (R22, 20_memory R61). -/
  pb : List Sample
  /-- `ACC` (R23): (index, byte) pairs. -/
  acc : List Host.Cell
  /-- `acc_count` (R23). -/
  accCount : Nat
  /-- `sd`, the Manchester switch-detect flag (R24). -/
  sd : Bool
  /-- `last_level` (R25). -/
  lastLevel : Level
  /-- `last_msg` (R26). -/
  lastMsg : Message
deriving DecidableEq, Repr

/-- `pb_len` (10_state R22). -/
def DecoderState.pbLen (d : DecoderState) : Nat := d.pb.length

/-- The custom state machine group (10_state R27 to R31). -/
structure CustomState where
  /-- `c_state` (R27). -/
  cState : CState
  /-- `c_last` (R28). -/
  cLast : Dur
  /-- `c_hdr` (R29). -/
  cHdr : BitVec 16
  /-- `c_code` (R30). -/
  cCode : BitVec 64
  /-- `c_bits` (R30). -/
  cBits : BitVec 8
  /-- `c_last_code` (R31). -/
  cLastCode : BitVec 64
  /-- `c_last_bits` (R31). -/
  cLastBits : BitVec 8
deriving DecidableEq, Repr

/-- The encoder group (10_state R32). -/
structure EncoderState where
  /-- `UB`: (index, sample) pairs. -/
  ub : Memory Sample
  /-- `enc_wr`. -/
  encWr : Nat
  /-- `enc_rd`. -/
  encRd : Nat
deriving DecidableEq, Repr

/-- What a micro-operation called alone hands back (00_scope R13 "`return v`"); the model's own, log entry 2. -/
inductive ReturnValue where
  | nothing
  | bool (b : Bool)
  | level (l : Level)
  | status (st : DemodStatus)
  | message (m : Option Message)
  /-- The micro-operation raised a fault and was abandoned. -/
  | raised
deriving DecidableEq, Repr

/-- The machine: the configuration, the four groups of 10_state R20, and the two ports. -/
structure State where
  /-- The configuration, constant for a run (00_scope R6); no rule writes it. -/
  cfg : Config
  /-- The generic decoder. -/
  dec : DecoderState
  /-- The custom state machine. -/
  cus : CustomState
  /-- The encoder. -/
  enc : EncoderState
  /-- `FAULT`, sticky (10_state R33). -/
  fault : BitVec 8
  /-- What is presented to the block next, in order (20_memory R69). The model's own, log entry 1. -/
  inbox : List Event
  /-- The word on the response port (30_encoding R85); `none` before the first response. The model's own, log entry 1. -/
  rsp : Option ResponseWord
  /-- What the last lone micro-operation call handed back. The model's own, log entry 2. -/
  ret : ReturnValue
deriving DecidableEq, Repr

/-- The generic decoder after reset (10_state R44). -/
def DecoderState.initial : DecoderState where
  engState := .waitPreamble
  pb := []
  acc := []
  accCount := 0
  sd := false
  lastLevel := .mark
  lastMsg := ⟨0, 0, 0, false⟩

/-- The custom state machine after reset (10_state R44). -/
def CustomState.initial : CustomState where
  cState := .idle
  cLast := 0
  cHdr := 0
  cCode := 0
  cBits := 0
  cLastCode := 0
  cLastBits := 0

/-- The encoder after reset (10_state R44). -/
def EncoderState.initial : EncoderState where
  ub := []
  encWr := 0
  encRd := 0

/-- The state after hardware reset with configuration `c` and nothing presented (10_state R44, 70_reset R260). -/
def State.resetWith (c : Config) : State where
  cfg := c
  dec := DecoderState.initial
  cus := CustomState.initial
  enc := EncoderState.initial
  fault := 0
  inbox := []
  rsp := none
  ret := .nothing

/-- The machine right after reset, with the reference configuration (log entry 4). -/
def State.reset : State := State.resetWith refConfig

end Sys2Proof.Machine
end

