-- ==== Sys2Proof/Machine/Response.lean ====
section
/-! DEFINITION. The response word: status codes and payloads (30_encoding R85, R87 to R89). -/

namespace Sys2Proof.Machine

/-- What a command answers (30_encoding R87). -/
inductive Response where
  | okNone
  | okMsg (m : Message)
  | okSample (e : Sample)
  | done
  | tooLarge
  | illegal
  | badOperand
  | faulted (fault : BitVec 8)
deriving DecidableEq, Repr

/-- The status code, `RW[87:84]` (30_encoding R87); 7 to 14 are never produced. -/
def statusCode : Response → BitVec 4
  | .okNone => 0
  | .okMsg _ => 1
  | .okSample _ => 2
  | .done => 3
  | .tooLarge => 4
  | .illegal => 5
  | .badOperand => 6
  | .faulted _ => 15

/-- The message payload (30_encoding R88). -/
def messagePayload (m : Message) : BitVec 81 := BitVec.ofBool m.isRepeat ++ m.protocolId ++ m.code ++ m.bitCount

/-- The sample payload (30_encoding R89). -/
def samplePayload (e : Sample) : BitVec 81 := 0#48 ++ BitVec.ofBool e.level ++ e.duration

/-- The fault payload (30_encoding R89). -/
def faultPayload (fault : BitVec 8) : BitVec 81 := 0#73 ++ fault

/-- The payload, `RW[80:0]`, 0 where none is defined (30_encoding R85). -/
def payload : Response → BitVec 81
  | .okMsg m => messagePayload m
  | .okSample e => samplePayload e
  | .faulted f => faultPayload f
  | .okNone | .done | .tooLarge | .illegal | .badOperand => 0

/-- The response word: status, three zero bits, payload (30_encoding R85). -/
def responseWord (r : Response) : ResponseWord := statusCode r ++ 0#3 ++ payload r

/-- `RW[87:84]` of a response word (30_encoding R85). -/
def statusField (w : ResponseWord) : BitVec 4 := w.extractLsb' 84 4

/-- `RW[83:81]` of a response word, always 0 (30_encoding R85). -/
def zeroField (w : ResponseWord) : BitVec 3 := w.extractLsb' 81 3

/-- The message a host reads from a response word of status `OK_MSG` (30_encoding R88). -/
def messageOfWord (w : ResponseWord) : Message where
  protocolId := w.extractLsb' 72 8
  code := w.extractLsb' 8 64
  bitCount := w.extractLsb' 0 8
  isRepeat := w.getLsbD 80

/-- The sample a host reads from a response word of status `OK_SAMPLE` (30_encoding R89). -/
def sampleOfWord (w : ResponseWord) : Sample where
  level := w.getLsbD 32
  duration := w.extractLsb' 0 32

/-- The response a host reads from a response word; `none` for a word that the block never produces (93 U5). -/
def responseOfWord (w : ResponseWord) : Option Response :=
  let r : Option Response :=
    if statusField w = 0 then some .okNone
    else if statusField w = 1 then some (.okMsg (messageOfWord w))
    else if statusField w = 2 then some (.okSample (sampleOfWord w))
    else if statusField w = 3 then some .done
    else if statusField w = 4 then some .tooLarge
    else if statusField w = 5 then some .illegal
    else if statusField w = 6 then some .badOperand
    else if statusField w = 15 then some (.faulted (w.extractLsb' 0 8))
    else none
  r.filter (fun r => responseWord r == w)

end Sys2Proof.Machine
end

