-- ==== Sys2Proof/Machine/Flags.lean ====
section
/-! DEFINITION. The block's flags and outward events (10_state R33, R42; 60_exceptions R244, R246; 41_pulse_buffer R123). -/

namespace Sys2Proof.Machine

/-- The bit of `FAULT` a cause sets (60_exceptions R244). -/
def causeBit : Cause → BitVec 8
  | .pbOvf => 0x01
  | .accOvf => 0x02

/-- `FAULT.PB_OVF` (10_state R33). -/
def faultPbOvf (f : BitVec 8) : Bool := f.getLsbD 0

/-- `FAULT.ACC_OVF` (10_state R33). -/
def faultAccOvf (f : BitVec 8) : Bool := f.getLsbD 1

/-- `FAULT[7:2]`, reserved, always 0 (10_state R33). -/
def faultReserved (f : BitVec 8) : BitVec 6 := f.extractLsb' 2 6

/-- The outward event `fault`: true whenever `FAULT != 0` (60_exceptions R246). -/
def faultEvent (s : State) : Bool := s.fault != 0

/-- The outward event `msg_evt`: true for exactly the responses with status `OK_MSG` (60_exceptions R246). -/
def msgEvent (s : State) : Bool :=
  match s.rsp with
  | none => false
  | some w => statusField w == 1

/-- The inferred level of the front entry, `last_level XOR ((pb_len - 1) mod 2)` (41_pulse_buffer R123). -/
def inferredFrontLevel (lastLevel : Level) (pbLen : Nat) : Level := lastLevel ^^ decide ((pbLen - 1) % 2 = 1)

/-- The 2-bit register value of `eng_state` (10_state R21). -/
def engStateCode : EngState → BitVec 2
  | .waitPreamble => 0
  | .decode => 1
  | .processRepeat => 2

/-- The 2-bit register value of `c_state` (10_state R27). -/
def cStateCode : CState → BitVec 2
  | .idle => 0
  | .header => 1
  | .bitMark => 2
  | .bitSpace => 3

/-- The 2-bit field value of `P.modulation` (10_state R34). -/
def modulationCode : Modulation → BitVec 2
  | .pd => 0
  | .pw => 1
  | .man => 2

end Sys2Proof.Machine
end

