-- ==== Sys2Proof/Machine/Ops.lean ====
section
/-! DEFINITION. The named operations every meaning is built from: array access, responding, raising a fault, hardware reset. -/

namespace Sys2Proof.Machine

/-- The outcome of one instruction or step. -/
abbrev Out := Host.Outcome State Fault Refusal

/-- `MemRead(S, i)` (00_scope R13): the entry at an index, `none` where it holds no value (10_state R44). -/
def Memory.read {α : Type} (i : Nat) : Memory α → Option α
  | [] => none
  | (j, v) :: rest => if j = i then some v else Memory.read i rest

/-- `MemWrite(S, i, v)` (00_scope R13); it keeps the indices strictly rising. -/
def Memory.write {α : Type} (i : Nat) (v : α) : Memory α → Memory α
  | [] => [(i, v)]
  | (j, w) :: rest =>
    if i < j then (i, v) :: (j, w) :: rest
    else if i = j then (i, v) :: rest
    else (j, w) :: Memory.write i v rest

/-- The canonical form of an array: indices strictly rising (an unlisted index holds no value, so no entry can repeat it). -/
def Memory.wf {α : Type} : Memory α → Bool
  | [] => true
  | [_] => true
  | (i, _) :: (j, w) :: rest => decide (i < j) && Memory.wf ((j, w) :: rest)

/-- `MemWrite` of a run of values at ascending indices from `i` (48_arithmetic_control_access R232). -/
def Memory.writeRun {α : Type} (i : Nat) : List α → Memory α → Memory α
  | [], m => m
  | v :: rest, m => Memory.writeRun (i + 1) rest (Memory.write i v m)

/-- The values at `n` ascending indices from `i`; the error is the first index that holds no value. -/
def Memory.readRun {α : Type} (m : Memory α) : Nat → Nat → Except Nat (List α)
  | _, 0 => .ok []
  | i, n + 1 =>
    match Memory.read i m with
    | none => .error i
    | some v =>
      match Memory.readRun m (i + 1) n with
      | .error j => .error j
      | .ok vs => .ok (v :: vs)

/-- The result of a unit operation of the generic decoder: a value, or the fault it raised with what it had written
(60_exceptions R248), or a stop of the model. -/
inductive UnitFlow (α : Type) where
  | ret (a : α) (d : DecoderState)
  | raised (cause : Cause) (d : DecoderState)
  | fault (f : Fault)
  | refused (r : Refusal)
deriving Repr

/-- Sequencing of unit operations: "abandons the command in progress" (00_scope R13) for everything but a value. -/
def UnitFlow.bind {α β : Type} (x : UnitFlow α) (k : α → DecoderState → UnitFlow β) : UnitFlow β :=
  match x with
  | .ret a d => k a d
  | .raised c d => .raised c d
  | .fault f => .fault f
  | .refused r => .refused r

/-- `respond(status, payload)` (00_scope R13): the response word appears on the response port. -/
def respond (r : Response) (s : State) : State := { s with rsp := some (responseWord r) }

/-- TAKING THE BLOCK'S EXCEPTION, `raise Fault(cause)` (60_exceptions R243, R248): the cause's bit is set in `FAULT`, and
nothing else: no value is saved, no mode changes, control goes nowhere (R248, R252). -/
def raiseFault (cause : Cause) (s : State) : State := { s with fault := s.fault ||| causeBit cause }

/-- The answer `FAULTED` with `RW[7:0] = FAULT` (60_exceptions R243). -/
def answerFaulted (s : State) : State := respond (.faulted s.fault) s

/-- Hardware reset, the only way out of a fault (60_exceptions R250, 70_reset R260): every register takes its reset value and
no array entry keeps a value. What the host presents next is not the block's and stays; the ports are idle. -/
def hardReset (s : State) : State := { State.resetWith s.cfg with inbox := s.inbox }

/-- A command on a block that may be halted: while `FAULT != 0` it is answered `FAULTED` and changes nothing
(60_exceptions R243, R247 (1)). -/
def command (s : State) (body : Out) : Out := if s.fault = 0 then body else .next (answerFaulted s)

/-- A lone micro-operation call on a block that may be halted: "while `FAULT != 0` no operation runs"
(60_exceptions R250; log entry 3). -/
def microCall (s : State) (body : Out) : Out := if s.fault = 0 then body else .next s

/-- The answer to a word that is not a command (30_encoding R90, 60_exceptions R247 (1), (2)). -/
def answerIllegal (s : State) : State := if s.fault = 0 then respond .illegal s else answerFaulted s

/-- The response to an edge: the message if there is one, else none (43_decode_engine R140, 46_custom_fsm R200). -/
def edgeResponse : Option Message → Response
  | none => .okNone
  | some m => .okMsg m

/-- The end of an `EDGE` command: the decoder group takes what the engine left; a raised fault sets `FAULT` and is
answered `FAULTED` in the same response (60_exceptions R243). -/
def finishEdge (s : State) : UnitFlow (Option Message) → Out
  | .ret m d => .next (respond (edgeResponse m) { s with dec := d })
  | .raised cause d => .next (answerFaulted (raiseFault cause { s with dec := d }))
  | .fault f => .fault f
  | .refused r => .refused r

/-- The end of a lone micro-operation call of the generic decoder. -/
def finishCall {α : Type} (s : State) (value : α → ReturnValue) : UnitFlow α → Out
  | .ret a d => .next { s with dec := d, ret := value a }
  | .raised cause d => .next { raiseFault cause { s with dec := d } with ret := .raised }
  | .fault f => .fault f
  | .refused r => .refused r

/-- The value of a unit operation that returns nothing. -/
def noValue (_ : Unit) : ReturnValue := .nothing

end Sys2Proof.Machine
end

