-- ==== Sys2Proof/Machine/Accumulator.lean ====
section
/-! DEFINITION. The bit accumulator: `ACLR`, `APUSH` and the view handed to `interpret` (45_bit_accumulator). -/

namespace Sys2Proof.Machine

/-- `ACLR` (45_bit_accumulator R190): the count goes to 0, the bytes stay as they are. -/
def aClr (d : DecoderState) : DecoderState := { d with accCount := 0 }

/-- The byte that the next bit goes into, before the bit: zero for a new byte (45_bit_accumulator R191). -/
def accByte (d : DecoderState) : Option Byte :=
  if d.accCount % 8 = 0 then some 0 else Memory.read (d.accCount / 8) d.acc

/-- A byte with one bit OR'd in at position `sh` (45_bit_accumulator R191). -/
def orBit (v : Byte) (bit : Bool) (sh : Nat) : Byte := v ||| ((BitVec.ofBool bit).setWidth 8 <<< sh)

/-- `APUSH bit` (45_bit_accumulator R191): bit number `acc_count` of the store, or `ACC_OVF` and nothing written. -/
def aPush (c : Config) (bit : Bool) (d : DecoderState) : UnitFlow Unit :=
  if 8 * c.accBytes ≤ d.accCount then .raised .accOvf d
  else
    match accByte d with
    | none => .fault (.unspecifiedEntry .acc (d.accCount / 8))
    | some v =>
      .ret () { d with
        acc := Memory.write (d.accCount / 8) (orBit v bit (d.accCount % 8)) d.acc
        accCount := d.accCount + 1 }

/-- The number of bytes of the view, `ceil(acc_count/8)` (10_state R23). -/
def viewBytes (count : Nat) : Nat := (count + 7) / 8

/-- `view(ACC, acc_count)` (45_bit_accumulator R192). -/
def accView (d : DecoderState) : Except Nat (List Byte) := Memory.readRun d.acc 0 (viewBytes d.accCount)

/-- Bit number `k` of the accumulated sequence: bit `k mod 8` of byte `k div 8` (20_memory R62). -/
def accBit (d : DecoderState) (k : Nat) : Option Bool :=
  (Memory.read (k / 8) d.acc).map (fun v => v.getLsbD (k % 8))

/-- `ACLR` called alone (45_bit_accumulator R190). -/
def execAClr (s : State) : Out := microCall s (finishCall s noValue (.ret () (aClr s.dec)))

/-- `APUSH` called alone (45_bit_accumulator R191). -/
def execAPush (bit : Bool) (s : State) : Out := microCall s (finishCall s noValue (aPush s.cfg bit s.dec))

end Sys2Proof.Machine
end

