-- ==== Sys2Proof/Machine/Custom.lean ====
section
/-! DEFINITION. The custom protocol state machine: `CEDGE`, `CRST`, `CBIT` (46_custom_fsm). -/

namespace Sys2Proof.Machine

/-- The bit count after one more bit: plus one within its 8 bits; past them a free value (log entry 12). -/
def bumpBits (code : BitVec 64) (bit : Bool) (bits : BitVec 8) : BitVec 8 :=
  if bits = 255#8 then Config.bitCountPastWidth code bit else bits + 1#8

/-- `CBIT bit` (46_custom_fsm R205): shifted left then OR'd, modulo 2^64. -/
def cBit (bit : Bool) (m : CustomState) : CustomState :=
  { m with
    cCode := (m.cCode <<< 1) ||| (BitVec.ofBool bit).setWidth 64
    cBits := bumpBits m.cCode bit m.cBits }

/-- The header counter after one more pair, saturating at 65535 (46_custom_fsm R202). -/
def bumpHdr (h : BitVec 16) : BitVec 16 := BitVec.ofNat 16 (min (h.toNat + 1) hdrMax)

/-- "Resets to 0" writes `c_state` only (46_custom_fsm R202). -/
def toIdle (m : CustomState) : CustomState := { m with cState := .idle }

/-- Arm of state 0 (46_custom_fsm R201). -/
def arm0 (q : CustomDescriptor) (level : Level) (d : Dur) (m : CustomState) : CustomState :=
  if level = .mark ∧ CustomTiming.isShort q d = true then { m with cLast := d, cHdr := 0, cState := .header } else m

/-- Arm of state 1 on a Mark (46_custom_fsm R202). -/
def arm1Mark (q : CustomDescriptor) (d : Dur) (m : CustomState) : CustomState :=
  if CustomTiming.isShort q d || CustomTiming.isStart q d then { m with cLast := d } else toIdle m

/-- The start bit in state 1: the header count must exceed 40 (46_custom_fsm R202). -/
def startBit (m : CustomState) : CustomState :=
  if hdrMin < m.cHdr.toNat then { m with cCode := 0, cBits := 0, cState := .bitMark } else toIdle m

/-- Arm of state 1 on a Space (46_custom_fsm R202). -/
def arm1Space (q : CustomDescriptor) (d : Dur) (m : CustomState) : CustomState :=
  if CustomTiming.isShort q d then
    if CustomTiming.isShort q m.cLast then { m with cHdr := bumpHdr m.cHdr }
    else if CustomTiming.isStart q m.cLast then startBit m
    else toIdle m
  else toIdle m

/-- Arm of state 1 (46_custom_fsm R202). -/
def arm1 (q : CustomDescriptor) (level : Level) (d : Dur) (m : CustomState) : CustomState :=
  if level = .mark then arm1Mark q d m else arm1Space q d m

/-- Arm of state 2 (46_custom_fsm R203). -/
def arm2 (level : Level) (d : Dur) (m : CustomState) : CustomState :=
  if level = .mark then { m with cLast := d, cState := .bitSpace } else toIdle m

/-- The message a stop commits, taken before the clearing (46_custom_fsm R204). -/
def customMessage (q : CustomDescriptor) (m : CustomState) : Message := ⟨q.protocolId, m.cCode, m.cBits, false⟩

/-- The stop condition of state 3: commit and emit when the minimum is met; then clear and go to state 0
(46_custom_fsm R204, R206). -/
def stopFrame (q : CustomDescriptor) (m : CustomState) : CustomState × Option Message :=
  if q.minBits.toNat ≤ m.cBits.toNat then
    ({ m with cLastCode := m.cCode, cLastBits := m.cBits, cCode := 0, cBits := 0, cState := .idle },
      some (customMessage q m))
  else ({ m with cCode := 0, cBits := 0, cState := .idle }, none)

/-- The bit that the remembered Mark and a Space carry; bit 0 is tested first (46_custom_fsm R204). -/
def customBit (q : CustomDescriptor) (mark space : Dur) : Option Bool :=
  if CustomTiming.isShort q mark && CustomTiming.isLong q space then some false
  else if CustomTiming.isLong q mark && CustomTiming.isShort q space then some true
  else none

/-- A Space below the stop threshold in state 3 (46_custom_fsm R204). -/
def bitPair (q : CustomDescriptor) (d : Dur) (m : CustomState) : CustomState :=
  match customBit q m.cLast d with
  | none => toIdle m
  | some b => if q.maxBits.toNat ≤ m.cBits.toNat then toIdle m else { cBit b m with cState := .bitMark }

/-- Arm of state 3 (46_custom_fsm R204). -/
def arm3 (q : CustomDescriptor) (level : Level) (d : Dur) (m : CustomState) : CustomState × Option Message :=
  if level = .mark then (toIdle m, none)
  else if CustomTiming.isStop q d then stopFrame q m
  else (bitPair q d m, none)

/-- `CEDGE` on the custom group: the arm of the current `c_state`, exactly once (46_custom_fsm R200). -/
def cEdge (q : CustomDescriptor) (level : Level) (d : Dur) (m : CustomState) : CustomState × Option Message :=
  match m.cState with
  | .idle => (arm0 q level d m, none)
  | .header => (arm1 q level d m, none)
  | .bitMark => (arm2 level d m, none)
  | .bitSpace => arm3 q level d m

/-- `CEDGE` (46_custom_fsm R200). -/
def execCEdge (level : Level) (duration : Dur) (s : State) : Out :=
  command s (.next (respond (edgeResponse (cEdge s.cfg.q level duration s.cus).2)
    { s with cus := (cEdge s.cfg.q level duration s.cus).1 }))

/-- `CRST` (46_custom_fsm R207). -/
def execCRst (s : State) : Out := command s (.next (respond .okNone { s with cus := CustomState.initial }))

/-- `CBIT` called alone (46_custom_fsm R205). -/
def execCBit (bit : Bool) (s : State) : Out :=
  microCall s (.next { s with cus := cBit bit s.cus, ret := .nothing })

end Sys2Proof.Machine
end

