-- ==== Sys2Proof/Machine/PulseBuffer.lean ====
section
/-! DEFINITION. The pulse buffer: `PBPUSH`, `PBCONS`, `PBCLR`, `PBLVL` (41_pulse_buffer). -/

namespace Sys2Proof.Machine

/-- The effect of `PBCONS(k)` where its precondition holds: the `k` oldest entries go (41_pulse_buffer R121). -/
def consume (k : Nat) (d : DecoderState) : DecoderState := { d with pb := d.pb.drop k }

/-- `PBPUSH` (41_pulse_buffer R120): append at the back, or raise `PB_OVF` and store nothing. -/
def pbPush (c : Config) (level : Level) (duration : Dur) (d : DecoderState) : UnitFlow Unit :=
  if c.pbCap ≤ d.pbLen then .raised .pbOvf d
  else .ret () { d with pb := d.pb ++ [⟨level, duration⟩] }

/-- `PBCONS` (41_pulse_buffer R121), with its precondition `k <= pb_len` (93 U6). -/
def pbCons (k : Nat) (d : DecoderState) : UnitFlow Unit :=
  if k ≤ d.pbLen then .ret () (consume k d) else .refused (.consumeBeyondLength k d.pbLen)

/-- `PBCLR` (41_pulse_buffer R122). -/
def pbClr (d : DecoderState) : DecoderState := { d with pb := [] }

/-- The value of `PBLVL` (41_pulse_buffer R123), meant for a buffer that is not empty. -/
def frontLevel (d : DecoderState) : Level := inferredFrontLevel d.lastLevel d.pbLen

/-- `PBLVL` (41_pulse_buffer R123); on an empty buffer, which its rule excludes, the level is a free value (log entry 25). -/
def pbLvl (d : DecoderState) : Level :=
  if 1 ≤ d.pbLen then frontLevel d else Config.levelOfEmptyBuffer d.lastLevel

/-- `PBPUSH` called alone (41_pulse_buffer R120). -/
def execPbPush (level : Level) (duration : Dur) (s : State) : Out :=
  microCall s (finishCall s noValue (pbPush s.cfg level duration s.dec))

/-- `PBCONS` called alone (41_pulse_buffer R121). -/
def execPbCons (k : Nat) (s : State) : Out := microCall s (finishCall s noValue (pbCons k s.dec))

/-- `PBCLR` called alone (41_pulse_buffer R122). -/
def execPbClr (s : State) : Out := microCall s (finishCall s noValue (.ret () (pbClr s.dec)))

/-- `PBLVL` called alone (41_pulse_buffer R123). -/
def execPbLvl (s : State) : Out := microCall s (finishCall s .level (.ret (pbLvl s.dec) s.dec))

end Sys2Proof.Machine
end

