-- ==== Sys2Proof/Machine/Demodulators.lean ====
section
/-! DEFINITION. The demodulators and the repeat hook: `DMPD`, `DMPW`, `DMMAN`, `DMRPT` (44_demodulators). -/

namespace Sys2Proof.Machine

/-- The bit that a (mark, space) pair carries in pulse-distance; the 1 pattern is tested first (44_demodulators R164, R165). -/
def pdBit (p : GenericDescriptor) (mark space : Dur) : Option Bool :=
  if GenericTiming.bit1Mark p mark && GenericTiming.bit1Space p space then some true
  else if GenericTiming.bit0Mark p mark && GenericTiming.bit0Space p space then some false
  else none

/-- The loop of `DMPD` (44_demodulators R164). The number bounds the rounds; the buffer's length is enough. -/
def dmPdLoop (c : Config) : Nat → DecoderState → UnitFlow DemodStatus
  | 0, d => .ret .ok d
  | n + 1, d =>
    if c.p.bitLength ≤ d.accCount then
      match d.pb with
      | [] => .ret .ok d
      | e :: _ => if GenericTiming.bit1Mark c.p e.duration then .ret .ready (consume 1 d) else .ret .error d
    else
      match d.pb with
      | e0 :: e1 :: _ =>
        match pdBit c.p e0.duration e1.duration with
        | none => .ret .error d
        | some b => (aPush c b d).bind (fun _ d' => dmPdLoop c n (consume 2 d'))
      | _ => .ret .ok d

/-- `DMPD` (44_demodulators R164). -/
def dmPd (c : Config) (d : DecoderState) : UnitFlow DemodStatus := dmPdLoop c d.pbLen d

/-- The bit that a Mark carries in pulse-width; `bit1_mark` is tested first (44_demodulators R166, R167). -/
def pwBit (p : GenericDescriptor) (mark : Dur) : Option Bool :=
  if GenericTiming.bit1Mark p mark then some true
  else if GenericTiming.bit0Mark p mark then some false
  else none

/-- The end of a round of `DMPW`: the entry is consumed, and the frame is ready when the declared count is reached. -/
def dmPwConsumed (c : Config) (again : DecoderState → UnitFlow DemodStatus) (d : DecoderState) : UnitFlow DemodStatus :=
  if d.accCount = c.p.bitLength then .ret .ready (consume 1 d) else again (consume 1 d)

/-- The loop of `DMPW` (44_demodulators R166). The number bounds the rounds; the buffer's length is enough. -/
def dmPwLoop (c : Config) : Nat → DecoderState → UnitFlow DemodStatus
  | 0, d => .ret .ok d
  | n + 1, d =>
    match d.pb with
    | [] => .ret .ok d
    | e :: _ =>
      if e.level = .mark then
        if c.p.bitLength ≤ d.accCount then .ret .error d
        else
          match pwBit c.p e.duration with
          | none => .ret .error d
          | some b => (aPush c b d).bind (fun _ d' => dmPwConsumed c (dmPwLoop c n) d')
      else if GenericTiming.bit1Space c.p e.duration then dmPwConsumed c (dmPwLoop c n) d
      else .ret .error d

/-- `DMPW` (44_demodulators R166). -/
def dmPw (c : Config) (d : DecoderState) : UnitFlow DemodStatus := dmPwLoop c d.pbLen d

/-- The synthesized first bit of Manchester: `sd` is set and `P.manch_first_bit` pushed before the first valid sample
(44_demodulators R168, R169 (e)). -/
def manchSynthesize (c : Config) (d : DecoderState) : UnitFlow Unit :=
  if c.p.manchStartFromSpace && decide (d.accCount = 0)
  then aPush c c.p.manchFirstBit { d with sd := true }
  else .ret () d

/-- The new `sd` after a valid sample, or `none` for a double-width sample from a symbol boundary (44_demodulators R168,
R169 (a), (b)). -/
def manchSwitch (single double sd : Bool) : Option Bool :=
  if sd then some (!single)
  else if double then none
  else some true

/-- The loop of `DMMAN` (44_demodulators R168). The number bounds the rounds; the buffer's length is enough. -/
def dmManLoop (c : Config) : Nat → DecoderState → UnitFlow DemodStatus
  | 0, d => .ret .ok d
  | n + 1, d =>
    match d.pb with
    | [] => .ret .ok d
    | e :: _ =>
      if !GenericTiming.bit1Mark c.p e.duration && !GenericTiming.double c.p e.duration then .ret .error d
      else
        (manchSynthesize c d).bind (fun _ d1 =>
          if c.p.bitLength ≤ d1.accCount then .ret .error d1
          else
            match manchSwitch (GenericTiming.bit1Mark c.p e.duration) (GenericTiming.double c.p e.duration) d1.sd with
            | none => .ret .error d1
            | some false => dmManLoop c n (consume 1 { d1 with sd := false })
            | some true =>
              (aPush c e.level (consume 1 { d1 with sd := true })).bind (fun _ d2 =>
                if d2.accCount = c.p.bitLength then
                  if e.level = c.p.manchEndLevel then .ret .ready d2 else .ret .error d2
                else dmManLoop c n d2))

/-- `DMMAN` (44_demodulators R168). -/
def dmMan (c : Config) (d : DecoderState) : UnitFlow DemodStatus := dmManLoop c d.pbLen d

/-- `DMRPT` (44_demodulators R172): the hook's status, after the entries it asked for are consumed. -/
def dmRpt (p : GenericDescriptor) (d : DecoderState) : UnitFlow DemodStatus :=
  match demodRepeat p d.pb with
  | none => .refused .repeatHookAbsent
  | some (st, k) => (pbCons k d).bind (fun _ d' => .ret st d')

/-- `DMPD` called alone (44_demodulators R164). -/
def execDmPd (s : State) : Out := microCall s (finishCall s .status (dmPd s.cfg s.dec))

/-- `DMPW` called alone (44_demodulators R166). -/
def execDmPw (s : State) : Out := microCall s (finishCall s .status (dmPw s.cfg s.dec))

/-- `DMMAN` called alone (44_demodulators R168). -/
def execDmMan (s : State) : Out := microCall s (finishCall s .status (dmMan s.cfg s.dec))

/-- `DMRPT` called alone (44_demodulators R172). -/
def execDmRpt (s : State) : Out := microCall s (finishCall s .status (dmRpt s.cfg.p s.dec))

end Sys2Proof.Machine
end

