-- ==== Sys2Proof/Machine/Encoder.lean ====
section
/-! DEFINITION. The waveform encoder: `ENC`, `NEXT`, `ERST`, `EFILL` (47_waveform_encoder). -/

namespace Sys2Proof.Machine

/-- The stored duration of the start Mark, `4*short`; past 32 bits, which `WF_Q` excludes, a free value (log entry 13). -/
def startMarkDuration (q : CustomDescriptor) : Dur :=
  if CustomTiming.startMark q < 2 ^ 32 then BitVec.ofNat 32 (CustomTiming.startMark q) else Config.startMarkPastWidth q.short

/-- A (Mark, Space) pair (47_waveform_encoder R222). -/
def pair (mark space : Dur) : List Sample := [⟨.mark, mark⟩, ⟨.space, space⟩]

/-- The header train (47_waveform_encoder R222). -/
def headerTrain (q : CustomDescriptor) : Nat → List Sample
  | 0 => []
  | n + 1 => pair q.short q.short ++ headerTrain q n

/-- The pair of one payload bit (47_waveform_encoder R222). -/
def bitSamples (q : CustomDescriptor) (bit : Bool) : List Sample :=
  pair (if bit then q.long else q.short) (if bit then q.short else q.long)

/-- Bit `i` of the code; a 64-bit code has none above 63, and it is then a free value (log entry 26). -/
def codeBit (code : BitVec 64) (i : Nat) : Bool := if i < 64 then code.getLsbD i else Config.codeBitPastWidth code i

/-- The payload: bits `n-1` down to 0 of the code (47_waveform_encoder R222, 20_memory R63). -/
def payloadSamples (q : CustomDescriptor) (code : BitVec 64) : Nat → List Sample
  | 0 => []
  | n + 1 => bitSamples q (codeBit code n) ++ payloadSamples q code n

/-- The whole waveform: header train, start pair, payload, stop pair (47_waveform_encoder R222). -/
def waveform (q : CustomDescriptor) (code : BitVec 64) (n : Nat) : List Sample :=
  headerTrain q q.encHdrPairs ++ pair (startMarkDuration q) q.short ++ payloadSamples q code n
    ++ pair q.short q.encStopSpace

/-- `EFILL` where its caller has checked the length (47_waveform_encoder R222). -/
def eFill (q : CustomDescriptor) (code : BitVec 64) (n : Nat) (e : EncoderState) : EncoderState where
  ub := Memory.writeRun 0 (waveform q code n) e.ub
  encWr := (waveform q code n).length
  encRd := 0

/-- The effect of `ERST`: both cursors go to 0, the entries stay (47_waveform_encoder R225). -/
def eRst (e : EncoderState) : EncoderState := { e with encWr := 0, encRd := 0 }

/-- `ENC` on the encoder group (47_waveform_encoder R220). -/
def encodeWave (c : Config) (code : BitVec 64) (bitCount : BitVec 8) (e : EncoderState) : EncoderState × Response :=
  if 64 < bitCount.toNat then (eRst e, .badOperand)
  else if c.encCap < CustomTiming.waveformLength c.q bitCount.toNat then (eRst e, .tooLarge)
  else (eFill c.q code bitCount.toNat (eRst e), .okNone)

/-- `ENC` (47_waveform_encoder R220). -/
def execEnc (code : BitVec 64) (bitCount : BitVec 8) (s : State) : Out :=
  command s (.next (respond (encodeWave s.cfg code bitCount s.enc).2 { s with enc := (encodeWave s.cfg code bitCount s.enc).1 }))

/-- The pull of one entry by a block that is not halted (47_waveform_encoder R224). -/
def pullSample (s : State) : Out :=
  if s.enc.encRd < s.enc.encWr then
    match Memory.read s.enc.encRd s.enc.ub with
    | none => .fault (.unspecifiedEntry .ub s.enc.encRd)
    | some e => .next (respond (.okSample e) { s with enc := { s.enc with encRd := s.enc.encRd + 1 } })
  else .next (respond .done s)

/-- `NEXT` (47_waveform_encoder R224). -/
def execNext (s : State) : Out := command s (pullSample s)

/-- `ERST` (47_waveform_encoder R225). -/
def execERst (s : State) : Out := command s (.next (respond .okNone { s with enc := eRst s.enc }))

/-- `EFILL` called alone (47_waveform_encoder R222), with the length its caller must have checked. -/
def execEFill (code : BitVec 64) (bitCount : BitVec 8) (s : State) : Out :=
  microCall s
    (if s.cfg.encCap < CustomTiming.waveformLength s.cfg.q bitCount.toNat then .refused (.indexOutOfRange .ub s.cfg.encCap)
     else .next { s with enc := eFill s.cfg.q code bitCount.toNat s.enc, ret := .nothing })

end Sys2Proof.Machine
end

