-- ==== Sys2Proof/Machine/Preamble.lean ====
section
/-! DEFINITION. The preamble detector: `PRDET` (42_preamble_detector). -/

namespace Sys2Proof.Machine

/-- The pair loop of `PRDET` (42_preamble_detector R130): every pair examined is consumed. The number bounds the rounds;
the buffer's length is enough. -/
def scanPairs (p : GenericDescriptor) : Nat → DecoderState → Bool × DecoderState
  | 0, d => (false, d)
  | n + 1, d =>
    match d.pb with
    | e0 :: e1 :: _ =>
      if GenericTiming.preambleMark p e0.duration && GenericTiming.preambleSpace p e1.duration
      then (true, consume 2 d)
      else scanPairs p n (consume 2 d)
    | _ => (false, d)

/-- The realignment to a mark edge: the front entry goes when its inferred level is not Mark (42_preamble_detector R130). -/
def realign (d : DecoderState) : DecoderState := if frontLevel d = .mark then d else consume 1 d

/-- `PRDET` (42_preamble_detector R130, R131). -/
def prDet (p : GenericDescriptor) (d : DecoderState) : Bool × DecoderState :=
  if p.preambleMark = 0 then (true, d)
  else if d.pbLen = 0 then (false, d)
  else scanPairs p d.pbLen (realign d)

/-- `PRDET` called alone (42_preamble_detector R130). -/
def execPrDet (s : State) : Out :=
  microCall s (finishCall s .bool (.ret (prDet s.cfg.p s.dec).1 (prDet s.cfg.p s.dec).2))

end Sys2Proof.Machine
end

