-- ==== Sys2Proof/Machine/Engine.lean ====
section
/-! DEFINITION. The generic decode engine: `EDGE`, `DRST`, `FRST`, `SRST`, `ERUN` (43_decode_engine). -/

namespace Sys2Proof.Machine

/-- `SRST` (43_decode_engine R142). -/
def sRst (d : DecoderState) : DecoderState := { aClr d with engState := .waitPreamble, sd := false }

/-- `FRST` (43_decode_engine R141): `SRST` then `PBCLR`. -/
def fRst (d : DecoderState) : DecoderState := pbClr (sRst d)

/-- The effect of `DRST` (43_decode_engine R148): every register at its reset value; the bytes of `ACC` are not written. -/
def dRst (d : DecoderState) : DecoderState := { DecoderState.initial with acc := d.acc }

/-- How an arm of the engine ends: `continue`, or `return` with or without a message (43_decode_engine R143). -/
inductive ArmEnd where
  | again
  | done (m : Option Message)
deriving DecidableEq, Repr

/-- The demodulator that `P.modulation` selects (43_decode_engine R145). -/
def demodulate (c : Config) (d : DecoderState) : UnitFlow DemodStatus :=
  match c.p.modulation with
  | .pd => dmPd c d
  | .pw => dmPw c d
  | .man => dmMan c d

/-- Arm `WaitPreamble` (43_decode_engine R144). -/
def armWaitPreamble (c : Config) (d : DecoderState) : UnitFlow ArmEnd :=
  if (prDet c.p d).1 then
    .ret .again { aClr (prDet c.p d).2 with sd := false, engState := .decode }
  else .ret (.done none) (prDet c.p d).2

/-- A fresh message is stored, emitted, and the engine moves to `ProcessRepeat` (43_decode_engine R145, accept). -/
def emitFresh (c : Config) (code : BitVec 64) (bitCount : BitVec 8) (d : DecoderState) : UnitFlow ArmEnd :=
  .ret (.done (some ⟨c.p.protocolId, code, bitCount, false⟩))
    { d with lastMsg := ⟨c.p.protocolId, code, bitCount, false⟩, engState := .processRepeat }

/-- The `Ready` outcome of arm `Decode` (43_decode_engine R145). -/
def decodeReady (c : Config) (d : DecoderState) : UnitFlow ArmEnd :=
  match accView d with
  | .error i => .fault (.unspecifiedEntry .acc i)
  | .ok view =>
    match interpret c.p view d.accCount with
    | .accept code bitCount => emitFresh c code bitCount d
    | .reject => .ret (.done none) (sRst d)

/-- The `Error` outcome of arm `Decode`: reset, and one entry dropped if there is one (43_decode_engine R145). -/
def decodeError (d : DecoderState) : DecoderState := consume 1 (sRst d)

/-- Arm `Decode` (43_decode_engine R145). -/
def armDecode (c : Config) (d : DecoderState) : UnitFlow ArmEnd :=
  (demodulate c d).bind (fun st d' =>
    match st with
    | .ok => .ret (.done none) d'
    | .ready => decodeReady c d'
    | .error => .ret .again (decodeError d'))

/-- The last message as a repeat message (43_decode_engine R146). -/
def repeatOf (m : Message) : Message := { m with isRepeat := true }

/-- Arm `ProcessRepeat` (43_decode_engine R146). -/
def armProcessRepeat (c : Config) (d : DecoderState) : UnitFlow ArmEnd :=
  if c.p.demodRepeat = .absent then .ret .again { d with engState := .waitPreamble }
  else
    (dmRpt c.p d).bind (fun st d' =>
      match st with
      | .ok => .ret (.done none) d'
      | .ready => .ret (.done (some (repeatOf d'.lastMsg))) { d' with lastMsg := repeatOf d'.lastMsg }
      | .error => .ret .again (sRst d'))

/-- The arm of the current `eng_state` (43_decode_engine R143). -/
def engineArm (c : Config) (d : DecoderState) : UnitFlow ArmEnd :=
  match d.engState with
  | .waitPreamble => armWaitPreamble c d
  | .decode => armDecode c d
  | .processRepeat => armProcessRepeat c d

/-- The engine loop (43_decode_engine R143), with a bound on the number of arms it may run. -/
def engineLoop (c : Config) : Nat → DecoderState → UnitFlow (Option Message)
  | 0, _ => .refused .engineDidNotSettle
  | n + 1, d =>
    (engineArm c d).bind (fun r d' =>
      match r with
      | .again => engineLoop c n d'
      | .done m => .ret m d')

/-- The bound on arm executions of one `ERUN`: `2*pb_len + 3` (43_decode_engine R147). -/
def armBound (d : DecoderState) : Nat := 2 * d.pbLen + 3

/-- `ERUN` (43_decode_engine R143). -/
def eRun (c : Config) (d : DecoderState) : UnitFlow (Option Message) := engineLoop c (armBound d) d

/-- The force-reset that a same-level sample causes (43_decode_engine R140, R141). -/
def sameLevelReset (level : Level) (d : DecoderState) : DecoderState := if level = d.lastLevel then fRst d else d

/-- `EDGE` on the decoder group (43_decode_engine R140). -/
def edge (c : Config) (level : Level) (duration : Dur) (d : DecoderState) : UnitFlow (Option Message) :=
  (pbPush c level duration { sameLevelReset level d with lastLevel := level }).bind (fun _ d' => eRun c d')

/-- `EDGE` (43_decode_engine R140). -/
def execEdge (level : Level) (duration : Dur) (s : State) : Out :=
  command s (finishEdge s (edge s.cfg level duration s.dec))

/-- `DRST` (43_decode_engine R148). -/
def execDRst (s : State) : Out := command s (.next (respond .okNone { s with dec := dRst s.dec }))

/-- `FRST` called alone (43_decode_engine R141). -/
def execFRst (s : State) : Out := microCall s (finishCall s noValue (.ret () (fRst s.dec)))

/-- `SRST` called alone (43_decode_engine R142). -/
def execSRst (s : State) : Out := microCall s (finishCall s noValue (.ret () (sRst s.dec)))

/-- `ERUN` called alone (43_decode_engine R143). -/
def execERun (s : State) : Out := microCall s (finishCall s .message (eRun s.cfg s.dec))

end Sys2Proof.Machine
end

