-- ==== Sys2Proof/Machine/Matcher.lean ====
section
/-! DEFINITION. The tolerance matcher called alone: `MATCH` (40_tolerance_matcher). -/

namespace Sys2Proof.Machine

/-- `MATCH` (40_tolerance_matcher R110): a pure predicate, no state but the returned bit. -/
def execMatch (measured : Dur) (expected : Nat) (tolerance : Dur) (s : State) : Out :=
  microCall s (.next { s with ret := .bool (durMatch measured expected tolerance) })

end Sys2Proof.Machine
end

