-- ==== Sys2Proof/Machine/Dispatch.lean ====
section
/-! DEFINITION. One arm per instruction (opcode_table.json). -/

namespace Sys2Proof.Machine

def exec (i : Instr) (s : State) : Host.Outcome State Fault Refusal :=
  match i with
  | .drst => Sys2Proof.Machine.execDRst s
  | .edge level duration => Sys2Proof.Machine.execEdge level duration s
  | .crst => Sys2Proof.Machine.execCRst s
  | .cedge level duration => Sys2Proof.Machine.execCEdge level duration s
  | .erst => Sys2Proof.Machine.execERst s
  | .enc code bitCount => Sys2Proof.Machine.execEnc code bitCount s
  | .next => Sys2Proof.Machine.execNext s
  | .matchOp measured expected tolerance => Sys2Proof.Machine.execMatch measured expected tolerance s
  | .pbpush level duration => Sys2Proof.Machine.execPbPush level duration s
  | .pbcons k => Sys2Proof.Machine.execPbCons k s
  | .pbclr => Sys2Proof.Machine.execPbClr s
  | .pblvl => Sys2Proof.Machine.execPbLvl s
  | .prdet => Sys2Proof.Machine.execPrDet s
  | .frst => Sys2Proof.Machine.execFRst s
  | .srst => Sys2Proof.Machine.execSRst s
  | .erun => Sys2Proof.Machine.execERun s
  | .dmpd => Sys2Proof.Machine.execDmPd s
  | .dmpw => Sys2Proof.Machine.execDmPw s
  | .dmman => Sys2Proof.Machine.execDmMan s
  | .dmrpt => Sys2Proof.Machine.execDmRpt s
  | .aclr => Sys2Proof.Machine.execAClr s
  | .apush bit => Sys2Proof.Machine.execAPush bit s
  | .cbit bit => Sys2Proof.Machine.execCBit bit s
  | .efill code bitCount => Sys2Proof.Machine.execEFill code bitCount s

end Sys2Proof.Machine
end

