-- ==== Sys2Proof/WellFormed.lean ====
section
/-! DEFINITION. Which instructions and which configurations the spec admits. -/

namespace Sys2Proof

/-- An instruction is well-formed when each operand is in the range its rule gives. The types carry every range but one:
`MATCH`'s `expected` has at most 36 bits (40_tolerance_matcher R110, 00_scope R12). -/
def Instr.wf : Instr → Bool
  | .matchOp _ expected _ => decide (expected < 2 ^ 36)
  | .drst | .edge _ _ | .crst | .cedge _ _ | .erst | .enc _ _ | .next => true
  | .pbpush _ _ | .pbcons _ | .pbclr | .pblvl | .prdet | .frst | .srst | .erun => true
  | .dmpd | .dmpw | .dmman | .dmrpt | .aclr | .apush _ | .cbit _ | .efill _ _ => true

/-- A command of the command port (30_encoding R86), not a micro-operation (30_encoding R91). -/
def Instr.isCommand : Instr → Bool
  | .drst | .edge _ _ | .crst | .cedge _ _ | .erst | .enc _ _ | .next => true
  | .matchOp _ _ _ | .pbpush _ _ | .pbcons _ | .pbclr | .pblvl | .prdet | .frst | .srst | .erun => false
  | .dmpd | .dmpw | .dmman | .dmrpt | .aclr | .apush _ | .cbit _ | .efill _ _ => false

/-- A configuration that the block accepts: the capacities' constraints, `WF_P` and `WF_Q` (00_scope R6 to R8). -/
def Config.wf (c : Config) : Bool := Machine.wfConfig c

end Sys2Proof
end

