-- ==== Sys2Proof/Machine/Sequencer.lean ====
section
/-! DEFINITION. Taking what is presented to the block, decoding it and running it (00_scope R14, 30_encoding R80, R90). -/

namespace Sys2Proof.Machine

/-- A word on the command port: a command is executed, any other word is answered and not executed (30_encoding R90). -/
def runCommandWord (w : CommandWord) (s : State) : Out :=
  match decodeWord w with
  | .ok i => exec i s
  | .error _ => .next (answerIllegal s)

/-- A lone micro-operation call (30_encoding R91; log entry 2). -/
def runCall (c : MicroCall) (s : State) : Out :=
  match decodeCall c with
  | .ok i => exec i s
  | .error _ => .refused (.notAMicroOperation c.id)

/-- One event, already taken from the inbox. -/
def runEvent (e : Event) (s : State) : Out :=
  match e with
  | .command w => runCommandWord w s
  | .reset => .next (hardReset s)
  | .call c => runCall c s

/-- Takes the first event and runs it; with nothing presented nothing happens (00_scope R14). A configuration that is not
well-formed is refused (00_scope R7). -/
def takeEvent (s : State) : Out :=
  if s.cfg.wf then
    match s.inbox with
    | [] => .next s
    | e :: rest => runEvent e { s with inbox := rest }
  else .refused .illFormedConfig

/-- The state in which an event comes first. -/
def present (e : Event) (s : State) : State := { s with inbox := e :: s.inbox }

end Sys2Proof.Machine
end

