-- ==== Sys2Proof/Machine/Step.lean ====
section
/-! DEFINITION. One step of the machine: one event (70_reset R272). -/

namespace Sys2Proof.Machine

/-- One step: the next thing presented to the block, run to completion (00_scope R14). -/
def step (s : State) : Host.Outcome State Fault Refusal := takeEvent s

/-- `s` with the row's word presented first, so that the next step takes exactly it. -/
def State.withFetchWord (s : State) (nbits w : Nat) : State := present (tableEvent nbits w) s

end Sys2Proof.Machine
end

