-- ==== Sys2Proof/Machine/Assembler.lean ====
section
/-! DEFINITION. The textual form of commands and responses, and the pseudo-commands (30_encoding R93, R94). -/

namespace Sys2Proof.Machine

/-- A natural in decimal. -/
def decimalText (n : Nat) : List Char := Nat.toDigits 10 n

/-- A natural in hexadecimal with `0x`, digits in capitals. -/
def hexText (n : Nat) : List Char := '0' :: 'x' :: (Nat.toDigits 16 n).map Char.toUpper

/-- A bit as `1` or `0`. -/
def bitText (b : Bool) : List Char := if b then ['1'] else ['0']

/-- The textual form of a command; a micro-operation has none (30_encoding R93). -/
def commandText : Instr → Option (List Char)
  | .drst => some "DRST".toList
  | .edge level duration => some ("EDGE ".toList ++ bitText level ++ ", ".toList ++ decimalText duration.toNat)
  | .crst => some "CRST".toList
  | .cedge level duration => some ("CEDGE ".toList ++ bitText level ++ ", ".toList ++ decimalText duration.toNat)
  | .erst => some "ERST".toList
  | .enc code bitCount => some ("ENC ".toList ++ hexText code.toNat ++ ", ".toList ++ decimalText bitCount.toNat)
  | .next => some "NEXT".toList
  | .matchOp _ _ _ | .pbpush _ _ | .pbcons _ | .pbclr | .pblvl | .prdet | .frst | .srst | .erun => none
  | .dmpd | .dmpw | .dmman | .dmrpt | .aclr | .apush _ | .cbit _ | .efill _ _ => none

/-- The textual form of a response: the status and its payload fields (30_encoding R93). -/
def responseText : Response → List Char
  | .okNone => "-> OK_NONE".toList
  | .okMsg m => "-> OK_MSG pid=".toList ++ decimalText m.protocolId.toNat ++ " code=".toList ++ hexText m.code.toNat
      ++ " bits=".toList ++ decimalText m.bitCount.toNat ++ " repeat=".toList ++ bitText m.isRepeat
  | .okSample e => "-> OK_SAMPLE level=".toList ++ bitText e.level ++ " duration=".toList
      ++ decimalText e.duration.toNat
  | .done => "-> DONE".toList
  | .tooLarge => "-> TOO_LARGE".toList
  | .illegal => "-> ILLEGAL".toList
  | .badOperand => "-> BAD_OPERAND".toList
  | .faulted f => "-> FAULTED FAULT=0x".toList ++ (if f.toNat < 16 then ['0'] else [])
      ++ (Nat.toDigits 16 f.toNat).map Char.toUpper

/-- The value of one digit, `none` for a character that is no digit of any base up to 16. -/
def digitValue (ch : Char) : Option Nat :=
  if '0' ≤ ch ∧ ch ≤ '9' then some (ch.toNat - 48)
  else if 'A' ≤ ch ∧ ch ≤ 'F' then some (ch.toNat - 55)
  else if 'a' ≤ ch ∧ ch ≤ 'f' then some (ch.toNat - 87)
  else none

/-- The digits of a base, read from the left onto an accumulated value. -/
def digitsOnto (base : Nat) : Nat → List Char → Option Nat
  | acc, [] => some acc
  | acc, ch :: rest =>
    match digitValue ch with
    | none => none
    | some v => if v < base then digitsOnto base (acc * base + v) rest else none

/-- A number of at least one digit, below a bound. -/
def parseNumber (base bound : Nat) (text : List Char) : Option Nat :=
  if text = [] then none else (digitsOnto base 0 text).filter (fun n => decide (n < bound))

/-- A hexadecimal number with its `0x`. -/
def parseHex (bound : Nat) : List Char → Option Nat
  | '0' :: 'x' :: digits => parseNumber 16 bound digits
  | _ => none

/-- A level: `1` or `M` for Mark, `0` or `S` for Space (30_encoding R93). -/
def parseLevel : List Char → Option Level
  | ['1'] => some .mark
  | ['M'] => some .mark
  | ['0'] => some .space
  | ['S'] => some .space
  | _ => none

/-- Blanks removed at both ends. -/
def trim (text : List Char) : List Char :=
  ((text.dropWhile (· == ' ')).reverse.dropWhile (· == ' ')).reverse

/-- The operands of a command line, separated by commas. -/
def splitOperands : List Char → List (List Char)
  | [] => [[]]
  | ch :: rest =>
    match splitOperands rest with
    | [] => [[ch]]
    | first :: more => if ch = ',' then [] :: first :: more else (ch :: first) :: more

/-- The operands of a sample command (30_encoding R93). -/
def parseSampleOperands (f : Level → Dur → Instr) : List (List Char) → Option Instr
  | [l, d] =>
    match parseLevel (trim l), parseNumber 10 (2 ^ 32) (trim d) with
    | some level, some n => some (f level (BitVec.ofNat 32 n))
    | _, _ => none
  | _ => none

/-- The operands of `ENC` (30_encoding R93). -/
def parseKeyOperands : List (List Char) → Option Instr
  | [c, n] =>
    match parseHex (2 ^ 64) (trim c), parseNumber 10 (2 ^ 8) (trim n) with
    | some code, some bits => some (.enc (BitVec.ofNat 64 code) (BitVec.ofNat 8 bits))
    | _, _ => none
  | _ => none

/-- A command that takes no operand. -/
def parseNoOperands (i : Instr) (operands : List Char) : Option Instr := if trim operands = [] then some i else none

/-- One line of text as a command (30_encoding R93). -/
def parseCommand (line : List Char) : Option Instr :=
  let text := trim line
  let mnemonic := text.takeWhile (· != ' ')
  let operands := text.dropWhile (· != ' ')
  if mnemonic = "DRST".toList then parseNoOperands .drst operands
  else if mnemonic = "EDGE".toList then parseSampleOperands .edge (splitOperands operands)
  else if mnemonic = "CRST".toList then parseNoOperands .crst operands
  else if mnemonic = "CEDGE".toList then parseSampleOperands .cedge (splitOperands operands)
  else if mnemonic = "ERST".toList then parseNoOperands .erst operands
  else if mnemonic = "ENC".toList then parseKeyOperands (splitOperands operands)
  else if mnemonic = "NEXT".toList then parseNoOperands .next operands
  else none

/-- `MARK d` (30_encoding R94). -/
def markCommand (d : Dur) : Instr := .edge .mark d

/-- `SPACE d` (30_encoding R94). -/
def spaceCommand (d : Dur) : Instr := .edge .space d

/-- `CMARK d` (30_encoding R94). -/
def cmarkCommand (d : Dur) : Instr := .cedge .mark d

/-- `CSPACE d` (30_encoding R94). -/
def cspaceCommand (d : Dur) : Instr := .cedge .space d

/-- `FEED (l1,d1) (l2,d2) ...` (30_encoding R94). -/
def feedCommands (samples : List Sample) : List Instr := samples.map (fun e => .edge e.level e.duration)

/-- `CFEED (l1,d1) (l2,d2) ...` (30_encoding R94). -/
def cfeedCommands (samples : List Sample) : List Instr := samples.map (fun e => .cedge e.level e.duration)

/-- `n * { ... }` (30_encoding R94). -/
def timesCommands (n : Nat) (body : List Instr) : List Instr := (List.replicate n body).flatten

/-- A run of several commands: the state after, and the response words in order. -/
abbrev Transcript := Host.Outcome (State × List ResponseWord) Fault Refusal

/-- A response word put before those of the commands that follow. -/
def Transcript.after (w : ResponseWord) : Transcript → Transcript
  | .next (s, ws) => .next (s, w :: ws)
  | .fault f => .fault f
  | .refused r => .refused r

/-- The response word on the port; 0 before the first response. -/
def lastWord (s : State) : ResponseWord := s.rsp.getD 0

/-- The host issues commands one after the other, each taking its response (20_memory R69). -/
def issueAll : List Instr → State → Transcript
  | [], s => .next (s, [])
  | i :: rest, s =>
    match exec i s with
    | .next s1 => Transcript.after (lastWord s1) (issueAll rest s1)
    | .fault f => .fault f
    | .refused r => .refused r

/-- `DRAIN`, at most `n` pulls: `NEXT` until a response that is no sample, its word included (30_encoding R94). -/
def drain : Nat → State → Transcript
  | 0, s => .next (s, [])
  | n + 1, s =>
    match exec .next s with
    | .next s1 =>
      if statusField (lastWord s1) = 2 then Transcript.after (lastWord s1) (drain n s1)
      else .next (s1, [lastWord s1])
    | .fault f => .fault f
    | .refused r => .refused r

/-- `LOOPBACK`, at most `n` pulls: each sample pulled is issued to the custom machine; the words collected are those of the
`CEDGE` commands (30_encoding R94). -/
def loopback : Nat → State → Transcript
  | 0, s => .next (s, [])
  | n + 1, s =>
    match exec .next s with
    | .next s1 =>
      if statusField (lastWord s1) = 2 then
        match exec (.cedge (sampleOfWord (lastWord s1)).level (sampleOfWord (lastWord s1)).duration) s1 with
        | .next s2 => Transcript.after (lastWord s2) (loopback n s2)
        | .fault f => .fault f
        | .refused r => .refused r
      else .next (s1, [])
    | .fault f => .fault f
    | .refused r => .refused r

/-- The pulls that `DRAIN` and `LOOPBACK` need: one for each sample left, and the one that answers `DONE`. -/
def pullsNeeded (s : State) : Nat := s.enc.encWr - s.enc.encRd + 1

end Sys2Proof.Machine
end

