-- ==== Sys2Proof/Safety.lean ====
section
/-! DEFINITION. What holds in every state that commands reach (10_state R40), and the terms that claims are made in. -/

namespace Sys2Proof.Machine

/-- No two neighbours have the same level (10_state R40 (b)). -/
def alternates : List Sample → Bool
  | [] => true
  | [_] => true
  | a :: b :: rest => (a.level != b.level) && alternates (b :: rest)

/-- The newest entry has the last observed level (10_state R40 (b)). -/
def newestAgrees (d : DecoderState) : Bool :=
  match d.pb.getLast? with
  | none => true
  | some e => e.level == d.lastLevel

/-- Every index below `n` holds a value. -/
abbrev Memory.filled {α : Type} (m : Memory α) (n : Nat) : Prop := ∀ i < n, (Memory.read i m).isSome = true

/-- Every index that holds a value is below the array's capacity (48_arithmetic_control_access R232). -/
abbrev Memory.within {α : Type} (m : Memory α) (cap : Nat) : Prop := ∀ e ∈ m, e.1 < cap

/-- In the byte that the next bit goes into, the bits from that position on are zero (10_state R23, 45_bit_accumulator R192). -/
abbrev highBitsClear (d : DecoderState) : Prop :=
  d.accCount % 8 ≠ 0 → ((Memory.read (d.accCount / 8) d.acc).getD 0) >>> (d.accCount % 8) = 0

/-- The accumulator (10_state R23, R40 (d)). -/
abbrev AccumulatorInv (c : Config) (d : DecoderState) : Prop :=
  d.accCount ≤ c.p.bitLength ∧ Memory.wf d.acc = true ∧ Memory.within d.acc c.accBytes
    ∧ Memory.filled d.acc (viewBytes d.accCount) ∧ highBitsClear d

/-- The generic decoder (10_state R40 (a), (d)); a decoder that may repeat a message holds one of its own protocol
(43_decode_engine R149 (c)). -/
abbrev DecoderInv (c : Config) (d : DecoderState) : Prop :=
  d.pbLen ≤ c.pbCap ∧ AccumulatorInv c d ∧ (d.engState = .processRepeat → d.lastMsg.protocolId = c.p.protocolId)

/-- The pulse buffer's levels (10_state R40 (b)); they hold while `FAULT = 0`. -/
abbrev LevelsInv (d : DecoderState) : Prop := alternates d.pb = true ∧ newestAgrees d = true

/-- The custom machine (10_state R40 (e), 46_custom_fsm R205, R210 (c)). -/
abbrev CustomInv (q : CustomDescriptor) (m : CustomState) : Prop :=
  m.cBits.toNat ≤ q.maxBits.toNat ∧ m.cCode.toNat < 2 ^ m.cBits.toNat
    ∧ (m.cState = .bitMark ∨ m.cState = .bitSpace → hdrMin < m.cHdr.toNat)

/-- The encoder (10_state R40 (f)). -/
abbrev EncoderInv (c : Config) (e : EncoderState) : Prop :=
  e.encRd ≤ e.encWr ∧ e.encWr ≤ c.encCap ∧ Memory.wf e.ub = true ∧ Memory.within e.ub c.encCap
    ∧ Memory.filled e.ub e.encWr

/-- `FAULT` under a well-formed configuration: `ACC_OVF` is never raised (60_exceptions R244, R252). -/
abbrev FaultInv (f : BitVec 8) : Prop := f = 0 ∨ f = causeBit .pbOvf

/-- Only the host presents events (30_encoding R91: a micro-operation is never accepted from outside). -/
abbrev HostOnly (s : State) : Prop := s.inbox.all Event.fromHost = true

/-- The invariant of the block (10_state R40), over states whose configuration is well-formed. -/
abbrev State.Inv (s : State) : Prop :=
  DecoderInv s.cfg s.dec ∧ (s.fault = 0 → LevelsInv s.dec) ∧ CustomInv s.cfg.q s.cus ∧ EncoderInv s.cfg s.enc
    ∧ FaultInv s.fault ∧ HostOnly s

/-- The three units that commands act on (70_reset R270). -/
inductive BlockUnit where
  | decoder
  | custom
  | encoder
deriving DecidableEq, Repr

/-- The unit a command touches (70_reset R270); a micro-operation is no command. -/
def commandUnit : Instr → Option BlockUnit
  | .drst | .edge _ _ => some .decoder
  | .crst | .cedge _ _ => some .custom
  | .erst | .enc _ _ | .next => some .encoder
  | .matchOp _ _ _ | .pbpush _ _ | .pbcons _ | .pbclr | .pblvl | .prdet | .frst | .srst | .erun => none
  | .dmpd | .dmpw | .dmman | .dmrpt | .aclr | .apush _ | .cbit _ | .efill _ _ => none

/-- Which responses a command may give (the column "returned by" of 30_encoding R87). -/
def mayAnswer : Instr → Response → Bool
  | .drst, .okNone | .crst, .okNone | .erst, .okNone => true
  | .edge _ _, .okNone | .edge _ _, .okMsg _ | .cedge _ _, .okNone | .cedge _ _, .okMsg _ => true
  | .enc _ _, .okNone | .enc _ _, .tooLarge | .enc _ _, .badOperand => true
  | .next, .okSample _ | .next, .done => true
  | _, .faulted _ => true
  | _, _ => false

/-- Pair `i` of a run of samples matches the preamble (42_preamble_detector R130). -/
def preamblePair (p : GenericDescriptor) (entries : List Sample) (i : Nat) : Bool :=
  match entries[2 * i]?, entries[2 * i + 1]? with
  | some e0, some e1 => GenericTiming.preambleMark p e0.duration && GenericTiming.preambleSpace p e1.duration
  | _, _ => false

/-- The conditions (1) to (8) of the round-trip law, for `n` bits (47_waveform_encoder R226). -/
abbrev RoundTripConditions (c : Config) (n : Nat) : Prop :=
  1 ≤ c.q.delta.toNat ∧ c.q.delta.toNat ≤ 3 * c.q.short.toNat
    ∧ c.q.delta.toNat ≤ absDiff c.q.long.toNat c.q.short.toNat
    ∧ c.q.long.toNat < CustomTiming.stopThreshold c.q
    ∧ c.q.minBits.toNat ≤ n ∧ n ≤ c.q.maxBits.toNat
    ∧ 41 ≤ c.q.encHdrPairs
    ∧ CustomTiming.stopThreshold c.q ≤ c.q.encStopSpace.toNat
    ∧ 2 * c.q.encHdrPairs + 2 * n + 4 ≤ c.encCap

/-- A duration that is legal for no sample of the start pair or of the payload at index `i` of a waveform: what
47_waveform_encoder R227 asks of a corrupted sample in its parts (a), (b) and (c). -/
abbrev IllegalAt (q : CustomDescriptor) (i : Nat) (d : Dur) : Prop :=
  CustomTiming.isShort q d = false
    ∧ (i = 2 * q.encHdrPairs → CustomTiming.isStart q d = false)
    ∧ (2 * q.encHdrPairs + 2 ≤ i → CustomTiming.isLong q d = false)
    ∧ (2 * q.encHdrPairs + 2 ≤ i → i % 2 = 1 → CustomTiming.isStop q d = false)

/-- The entries of an array that can be read: those below the length. -/
def Memory.visible {α : Type} (n : Nat) (m : Memory α) : Memory α := m.filter (fun e => decide (e.1 < n))

/-- The state without the array entries that no rule can read (10_state R23, R32; 93 U3). -/
def State.visible (s : State) : State :=
  { s with
    dec := { s.dec with acc := Memory.visible (viewBytes s.dec.accCount) s.dec.acc }
    enc := { s.enc with ub := Memory.visible s.enc.encWr s.enc.ub } }

end Sys2Proof.Machine
end

