-- ==== Sys2Proof/Certificates/Slice0/Obligations.lean ====
section
/-! DEFINITION. The statements for the provers, from the numbered rules of spec/. Three fields of the state are the model's own
and stand for what the spec only names: `inbox` and `rsp` are the two ports (log entry 1), `ret` is the value that a
micro-operation called alone returns (log entry 2). -/

open Sys2Proof Sys2Proof.Machine

/-! ### Encoding and responses -/

/-- A few command words written out in 30_encoding R93 and 95_test_vectors section 3.1, and the identifiers of some
micro-operations (30_encoding R91), decode to what they stand for. -/
def Obligations.SpecWordsDecode : Prop :=
  decodeWord 0x02000000000100002328 = .ok (.edge .mark 9000)
    ∧ decodeWord 0x02000000000000001194 = .ok (.edge .space 4500)
    ∧ decodeWord 0x06000000000000000503 = .ok (.enc 5 3)
    ∧ decodeWord 0x07000000000000000000 = .ok .next
    ∧ decodeWord 0x04000000000000000870 = .ok (.cedge .space 2160)
    ∧ decodeCall ⟨0x89, 2, 0, 0⟩ = .ok (.pbcons 2)
    ∧ decodeCall ⟨0xA2, 0, 0, 0⟩ = .ok .dmman

/-- Decoding what the encoder writes gives the instruction back, for every well-formed instruction, every operand at every
value (30_encoding R80 to R84, R86, R91). -/
def Obligations.DecodeUndoesEncode : Prop :=
  ∀ i : Instr, i.wf = true → decode (encode i) = .ok i

/-- A word that decodes is the word the encoder writes: no command has two words (30_encoding R86, R90). -/
def Obligations.EncodeUndoesDecode : Prop :=
  ∀ (w : CommandWord) (i : Instr), decodeWord w = .ok i → encode i = .command w ∧ i.isCommand = true

/-- 30_encoding R86: a word is a command exactly when it agrees with the command's match value under its mask. -/
def Obligations.OpcodeMapByMaskAndMatch : Prop :=
  ∀ w : CommandWord,
    (decodeWord w = .ok .drst ↔ w &&& 0xFFFFFFFFFFFFFFFFFFFF = 0x01000000000000000000)
      ∧ ((∃ l d, decodeWord w = .ok (.edge l d)) ↔ w &&& 0xFFFFFFFFFFFE00000000 = 0x02000000000000000000)
      ∧ (decodeWord w = .ok .crst ↔ w &&& 0xFFFFFFFFFFFFFFFFFFFF = 0x03000000000000000000)
      ∧ ((∃ l d, decodeWord w = .ok (.cedge l d)) ↔ w &&& 0xFFFFFFFFFFFE00000000 = 0x04000000000000000000)
      ∧ (decodeWord w = .ok .erst ↔ w &&& 0xFFFFFFFFFFFFFFFFFFFF = 0x05000000000000000000)
      ∧ ((∃ c n, decodeWord w = .ok (.enc c n)) ↔ w &&& 0xFF000000000000000000 = 0x06000000000000000000)
      ∧ (decodeWord w = .ok .next ↔ w &&& 0xFFFFFFFFFFFFFFFFFFFF = 0x07000000000000000000)

/-- 30_encoding R90: a word is illegal when its opcode is not one of 0x01 to 0x07 or a bit that its format requires to be
zero is 1; it is not executed: no state changes and the answer is `ILLEGAL` with payload 0 (`FAULTED` on a halted block). -/
def Obligations.IllegalWordIsNotExecuted : Prop :=
  ∀ (s : State) (w : CommandWord) (rest : List Event), s.cfg.wf = true → s.inbox = .command w :: rest →
    (¬ (1 ≤ (opField w).toNat ∧ (opField w).toNat ≤ 7)
      ∨ (((opField w).toNat = 1 ∨ (opField w).toNat = 3 ∨ (opField w).toNat = 5 ∨ (opField w).toNat = 7)
          ∧ ∃ k < 72, w.getLsbD k = true)
      ∨ (((opField w).toNat = 2 ∨ (opField w).toNat = 4) ∧ ∃ k, 33 ≤ k ∧ k < 72 ∧ w.getLsbD k = true)) →
    (s.fault = 0 → step s = .next { s with inbox := rest, rsp := some 0x5000000000000000000000 })
      ∧ (s.fault ≠ 0 → step s = .next { s with inbox := rest, rsp := some (responseWord (.faulted s.fault)) })

/-- 30_encoding R85, R88, R89: where the status, the zero bits and each payload field stand in the response word. -/
def Obligations.ResponseWordLayout : Prop :=
  ∀ r : Response,
    (responseWord r).extractLsb' 84 4 = statusCode r
      ∧ (responseWord r).extractLsb' 81 3 = 0
      ∧ (match r with
          | .okMsg m =>
            (responseWord r).getLsbD 80 = m.isRepeat ∧ (responseWord r).extractLsb' 72 8 = m.protocolId
              ∧ (responseWord r).extractLsb' 8 64 = m.code ∧ (responseWord r).extractLsb' 0 8 = m.bitCount
          | .okSample e =>
            (responseWord r).extractLsb' 33 48 = 0 ∧ (responseWord r).getLsbD 32 = e.level
              ∧ (responseWord r).extractLsb' 0 32 = e.duration
          | .faulted f => (responseWord r).extractLsb' 8 73 = 0 ∧ (responseWord r).extractLsb' 0 8 = f
          | .okNone | .done | .tooLarge | .illegal | .badOperand => (responseWord r).extractLsb' 0 81 = 0)

/-- Each command answers only with the statuses that the column "returned by" of 30_encoding R87 gives it, and with a
fault payload that is the `FAULT` register after the command (R89). -/
def Obligations.AnswersAreThoseOfTheTable : Prop :=
  ∀ (i : Instr) (s t : State), i.isCommand = true → exec i s = .next t →
    ∃ r, t.rsp = some (responseWord r) ∧ mayAnswer i r = true
      ∧ (∀ f, r = .faulted f → f = t.fault ∧ t.fault ≠ 0)
      ∧ (t.fault ≠ 0 → r = .faulted t.fault)

/-- The textual form of a command reads back as the command (30_encoding R93; details of the syntax: log entry 20). -/
def Obligations.CommandTextReadsBack : Prop :=
  ∀ (i : Instr) (text : List Char), commandText i = some text → parseCommand text = some i

/-! ### The step -/

/-- A step takes the first event; when it decodes to an instruction, the step is that instruction's meaning at the state with
the event taken; with nothing presented, nothing changes (00_scope R14, 30_encoding R80). The event list is the model's
(log entry 1), and so is the lone call of a micro-operation (log entry 2). -/
def Obligations.StepRunsTheDecodedInstruction : Prop :=
  ∀ s : State, s.cfg.wf = true →
    (∀ (e : Event) (rest : List Event) (i : Instr), s.inbox = e :: rest → decode e = .ok i →
        step s = exec i { s with inbox := rest })
      ∧ (s.inbox = [] → step s = .next s)

/-- A configuration that the checks of 00_scope R6, R7, R8 refuse is refused by every step, and no other is (that the refusal
is made by the step, and not by the meanings, is the model's: log entry 6). -/
def Obligations.IllFormedConfigurationIsRefused : Prop :=
  ∀ s : State,
    (s.cfg.pbCap < 2 ∨ s.cfg.encCap < 1 ∨ s.cfg.p.bitLength < 1 ∨ 8 * s.cfg.accBytes < s.cfg.p.bitLength
      ∨ (s.cfg.p.modulation = .man ∧ s.cfg.p.bit1Mark.toNat < 2 * s.cfg.p.bitTol.toNat)
      ∨ (s.cfg.p.modulation = .man ∧ s.cfg.p.manchStartFromSpace = true ∧ s.cfg.p.bitLength < 2)
      ∨ 64 < s.cfg.q.maxBits.toNat ∨ s.cfg.q.maxBits.toNat < s.cfg.q.minBits.toNat ∨ 2 ^ 32 ≤ 4 * s.cfg.q.short.toNat)
      ↔ step s = .refused .illFormedConfig

/-- 70_reset R260: hardware reset puts every register at its value, from any state, halted or not; the entries of the arrays
are unreadable. That reset is an event and leaves the ports idle is the model's (log entry 16). -/
def Obligations.HardwareResetRestoresEveryRegister : Prop :=
  ∀ (s : State) (rest : List Event), s.cfg.wf = true → s.inbox = .reset :: rest →
    ∃ t : State, step s = .next t ∧ t.cfg = s.cfg ∧ t.inbox = rest
      ∧ t.dec.engState = .waitPreamble ∧ t.dec.pbLen = 0 ∧ t.dec.accCount = 0 ∧ t.dec.sd = false
      ∧ t.dec.lastLevel = .mark ∧ t.dec.lastMsg = ⟨0, 0, 0, false⟩
      ∧ t.cus.cState = .idle ∧ t.cus.cLast = 0 ∧ t.cus.cHdr = 0 ∧ t.cus.cCode = 0 ∧ t.cus.cBits = 0
      ∧ t.cus.cLastCode = 0 ∧ t.cus.cLastBits = 0 ∧ t.enc.encWr = 0 ∧ t.enc.encRd = 0 ∧ t.fault = 0
      ∧ (∀ i : Nat, t.dec.pb[i]? = none) ∧ (∀ i, Memory.read i t.dec.acc = none)
      ∧ (∀ i, Memory.read i t.enc.ub = none)

/-- No step but a hardware reset clears a bit of `FAULT` (10_state R33, 60_exceptions R250), and no micro-operation runs on a
halted block (R250 "no operation runs"; that a lone call then does nothing is the model's, log entry 3). -/
def Obligations.FaultIsSticky : Prop :=
  (∀ s t : State, s.inbox.head? ≠ some .reset → step s = .next t → s.fault &&& t.fault = s.fault)
    ∧ (∀ (i : Instr) (s : State), i.isCommand = false → s.fault ≠ 0 → exec i s = .next s)

/-- The configuration never changes and a step takes one event (20_memory R71, 70_reset R263, R268). -/
def Obligations.ConfigurationNeverChanges : Prop :=
  ∀ s t : State, step s = .next t → t.cfg = s.cfg ∧ t.inbox = s.inbox.tail

/-! ### The fault -/

/-- 60_exceptions R243: raising a fault inside a command sets the cause's bit, keeps what the command had written, and is
answered `FAULTED` with `RW[7:0] = FAULT`; from then on every word, legal or not, is answered so and changes no state. -/
def Obligations.FaultHaltsTheBlock : Prop :=
  (∀ (s : State) (level : Level) (d : Dur) (cause : Cause) (dec' : DecoderState), s.fault = 0 →
      edge s.cfg level d s.dec = .raised cause dec' →
      exec (.edge level d) s
        = .next { s with dec := dec', fault := causeBit cause, rsp := some (responseWord (.faulted (causeBit cause))) })
    ∧ (∀ (s : State) (w : CommandWord) (rest : List Event), s.cfg.wf = true → s.fault ≠ 0 → s.inbox = .command w :: rest →
      step s = .next { s with inbox := rest, rsp := some (responseWord (.faulted s.fault)) })

/-- Fault entry for `PB_OVF` (60_exceptions R248, 41_pulse_buffer R120): the level is already written, the sample is lost, the
buffer stays, the engine does not run. -/
def Obligations.OverflowingEdgeEntersTheFault : Prop :=
  ∀ (s : State) (level : Level) (d : Dur), s.fault = 0 → level ≠ s.dec.lastLevel → s.dec.pbLen = s.cfg.pbCap →
    exec (.edge level d) s
      = .next { s with
          dec := { s.dec with lastLevel := level }
          fault := 0x01
          rsp := some 0xF000000000000000000001 }

/-- 60_exceptions R252: `FAULT` stays one of 0x00, 0x01, 0x02 over every step. -/
def Obligations.FaultHoldsAtMostOneCause : Prop :=
  ∀ s t : State, s.fault = 0x00 ∨ s.fault = 0x01 ∨ s.fault = 0x02 → step s = .next t →
    t.fault = 0x00 ∨ t.fault = 0x01 ∨ t.fault = 0x02

/-! ### Invariants and progress -/

/-- The invariant of 10_state R40 (with 46_custom_fsm R205, R210 (c) and 60_exceptions R252) is kept by every step. What it has
beyond them is the model's: the canonical form and filled indices of the arrays (log entry 9), and that only the host presents
events (log entry 2). -/
def Obligations.InvariantIsKept : Prop :=
  ∀ s t : State, s.Inv → step s = .next t → t.Inv

/-- The invariant holds right after reset, whatever the configuration; the one of `State.reset` is the model's choice (log
entry 4) and well-formed. -/
def Obligations.InvariantHoldsAtReset : Prop :=
  (∀ c : Config, (State.resetWith c).Inv) ∧ State.reset.Inv ∧ State.reset.cfg.wf = true

/-- Every step of a configured block answers a next state: no command stops it, reads an entry without a value, or runs for
ever (43_decode_engine R147, 93 U3, U6). The premise holds of reset and is kept (`InvariantHoldsAtReset`, `InvariantIsKept`). -/
def Obligations.EveryStepCompletes : Prop :=
  ∀ s : State, s.cfg.wf = true → s.Inv → ∃ t, step s = .next t

/-! ### Independence and the reset commands -/

/-- 70_reset R270: each command touches its own unit only, and commands to different units do not affect each other while
no fault is raised. -/
def Obligations.UnitsAreIndependent : Prop :=
  (∀ (i : Instr) (s t : State), exec i s = .next t →
      (commandUnit i = some .decoder → t = { s with dec := t.dec, fault := t.fault, rsp := t.rsp })
        ∧ (commandUnit i = some .custom → t = { s with cus := t.cus, rsp := t.rsp })
        ∧ (commandUnit i = some .encoder → t = { s with enc := t.enc, rsp := t.rsp })
        ∧ ((∃ l d, i = .edge l d) ∨ t.fault = s.fault ∨ i.isCommand = false))
    ∧ (∀ (i j : Instr) (s si sj sij : State), s.fault = 0 →
      commandUnit i ≠ none → commandUnit j ≠ none → commandUnit i ≠ commandUnit j →
      exec i s = .next si → exec j s = .next sj → si.fault = 0 → sj.fault = 0 → exec j si = .next sij →
      ∃ sji, exec i sj = .next sji ∧ sij.rsp = sj.rsp ∧ sji.rsp = si.rsp
        ∧ sji.dec = sij.dec ∧ sji.cus = sij.cus ∧ sji.enc = sij.enc ∧ sji.fault = sij.fault)

/-- 43_decode_engine R148, 46_custom_fsm R207, 47_waveform_encoder R225: the reset commands put their own unit at its reset
values, leave everything else, and answer `OK_NONE`; on a halted block they have no effect. -/
def Obligations.ResetCommandsRestoreTheirUnit : Prop :=
  ∀ s : State,
    (s.fault = 0 →
        exec .drst s
          = .next { s with
              dec := ⟨.waitPreamble, [], s.dec.acc, 0, false, .mark, ⟨0, 0, 0, false⟩⟩
              rsp := some (responseWord .okNone) }
        ∧ exec .crst s = .next { s with cus := ⟨.idle, 0, 0, 0, 0, 0, 0⟩, rsp := some (responseWord .okNone) }
        ∧ exec .erst s = .next { s with enc := ⟨s.enc.ub, 0, 0⟩, rsp := some (responseWord .okNone) })
      ∧ (s.fault ≠ 0 →
        exec .drst s = .next { s with rsp := some (responseWord (.faulted s.fault)) }
        ∧ exec .crst s = .next { s with rsp := some (responseWord (.faulted s.fault)) }
        ∧ exec .erst s = .next { s with rsp := some (responseWord (.faulted s.fault)) })

/-- `DRST`, `CRST` and `ERST` together, in any order, give the state after hardware reset, up to array entries that no rule
can read (70_reset R261; 95_test_vectors V-RS4). -/
def Obligations.ThreeResetsEqualHardwareReset : Prop :=
  ∀ (order : List Instr) (s : State), order.Perm [.drst, .crst, .erst] → s.fault = 0 →
    ∃ t, issueAll order s = .next (t, [responseWord .okNone, responseWord .okNone, responseWord .okNone])
      ∧ t.visible = { (hardReset s).visible with rsp := t.rsp, ret := s.ret }

/-! ### The tolerance matcher -/

/-- 40_tolerance_matcher R110: `MATCH` answers whether the absolute difference is below the tolerance, and changes nothing
else. -/
def Obligations.MatchIsTheStrictWindow : Prop :=
  ∀ (s : State) (m : Dur) (e : Nat) (t : Dur), s.fault = 0 →
    exec (.matchOp m e t) s = .next { s with ret := .bool (decide (|(m.toNat : Int) - (e : Int)| < (t.toNat : Int))) }

/-- 40_tolerance_matcher R111: the corner cases of the window. -/
def Obligations.MatchCornerCases : Prop :=
  windowMatch 0 4294967295 10 = false
    ∧ (∀ m e, windowMatch m e 0 = false)
    ∧ (∀ m e, windowMatch m e 1 = true ↔ m = e)
    ∧ (∀ e t, 1 ≤ t → windowMatch (e + t) e t = false ∧ windowMatch (e + t - 1) e t = true)
    ∧ (∀ e t, 1 ≤ t → t ≤ e → windowMatch (e - t) e t = false ∧ windowMatch (e - t + 1) e t = true)
    ∧ (∀ e t m, e < t → (windowMatch m e t = true ↔ m < e + t))
    ∧ (∀ e t, t ≤ e → (∀ m, windowMatch m e t = true → m < e + t)
        ∧ ((List.range (e + t)).filter (fun m => windowMatch m e t)).length = 2 * t - 1)

/-! ### The pulse buffer and the preamble detector -/

/-- 41_pulse_buffer R120: a push appends at the back; on a full buffer it raises `PB_OVF`, stores nothing and changes nothing
else. -/
def Obligations.PushAppendsOrOverflows : Prop :=
  ∀ (s : State) (level : Level) (d : Dur), s.fault = 0 →
    (s.dec.pbLen < s.cfg.pbCap →
        exec (.pbpush level d) s
          = .next { s with dec := { s.dec with pb := s.dec.pb ++ [⟨level, d⟩] }, ret := .nothing })
      ∧ (s.dec.pbLen = s.cfg.pbCap → exec (.pbpush level d) s = .next { s with fault := 0x01, ret := .raised })

/-- 41_pulse_buffer R121: consuming removes the `k` oldest entries and keeps the order of the rest: the entry formerly at
`i + k` is at `i`. With `k > pb_len` the rule gives the call no meaning; that the model refuses it is its own treatment, after
93 U6 (log entry 7). -/
def Obligations.ConsumeKeepsTheRest : Prop :=
  ∀ (s : State) (k : Nat), s.fault = 0 →
    (k ≤ s.dec.pbLen →
        ∃ rest : List Sample, exec (.pbcons k) s = .next { s with dec := { s.dec with pb := rest }, ret := .nothing }
          ∧ rest.length = s.dec.pbLen - k ∧ ∀ i, rest[i]? = s.dec.pb[i + k]?)
      ∧ (s.dec.pbLen < k → exec (.pbcons k) s = .refused (.consumeBeyondLength k s.dec.pbLen))

/-- 41_pulse_buffer R122, 45_bit_accumulator R190, 43_decode_engine R141, R142: what `PBCLR`, `ACLR`, `SRST` and `FRST`
write, and that they write nothing else. -/
def Obligations.InternalResetsWriteTheirRegisters : Prop :=
  ∀ s : State, s.fault = 0 →
    exec .pbclr s = .next { s with dec := { s.dec with pb := [] }, ret := .nothing }
      ∧ exec .aclr s = .next { s with dec := { s.dec with accCount := 0 }, ret := .nothing }
      ∧ exec .srst s
          = .next { s with dec := { s.dec with engState := .waitPreamble, accCount := 0, sd := false }, ret := .nothing }
      ∧ exec .frst s
          = .next { s with
              dec := { s.dec with engState := .waitPreamble, accCount := 0, sd := false, pb := [] }
              ret := .nothing }

/-- 41_pulse_buffer R123: `PBLVL` answers `last_level XOR ((pb_len - 1) mod 2)`, which is the level of the front entry when
levels alternate and the newest entry has the last level; an empty buffer is outside its precondition, and that a lone
call then runs and answers a free level is the model's choice (log entry 25). -/
def Obligations.InferredLevelIsTheFrontLevel : Prop :=
  ∀ s : State, s.fault = 0 →
    (1 ≤ s.dec.pbLen →
        exec .pblvl s = .next { s with ret := .level (s.dec.lastLevel ^^ decide ((s.dec.pbLen - 1) % 2 = 1)) })
      ∧ (∀ (e : Sample) (rest : List Sample), s.dec.pb = e :: rest → LevelsInv s.dec →
        exec .pblvl s = .next { s with ret := .level e.level })
      ∧ (s.dec.pbLen = 0 → ∃ l, exec .pblvl s = .next { s with ret := .level l })

/-- 42_preamble_detector R130: without a preamble the detector is ready at once and consumes nothing; with one, it drops the
front entry unless its inferred level is Mark, then consumes pairs up to and including the first that matches, or all of them. -/
def Obligations.PreambleDetectorScansPairs : Prop :=
  ∀ s : State, s.fault = 0 →
    (s.cfg.p.preambleMark = 0 → exec .prdet s = .next { s with ret := .bool true })
      ∧ (s.cfg.p.preambleMark ≠ 0 →
        ∀ aligned, aligned = (if frontLevel s.dec = .mark then s.dec.pb else s.dec.pb.drop 1) →
          (∃ j, 2 * j + 1 < aligned.length ∧ preamblePair s.cfg.p aligned j = true
              ∧ (∀ i < j, preamblePair s.cfg.p aligned i = false)
              ∧ exec .prdet s
                  = .next { s with dec := { s.dec with pb := aligned.drop (2 * j + 2) }, ret := .bool true })
            ∨ ((∀ i, preamblePair s.cfg.p aligned i = false)
              ∧ exec .prdet s
                  = .next { s with
                      dec := { s.dec with pb := aligned.drop (2 * (aligned.length / 2)) }
                      ret := .bool false }))

/-- With alternating levels and a preamble required, the detector leaves a Mark at the front, and at most one entry when it
finds nothing (42_preamble_detector R132 (a), (b)). -/
def Obligations.PreambleDetectorLeavesAMark : Prop :=
  ∀ s t : State, s.fault = 0 → s.cfg.p.preambleMark ≠ 0 → LevelsInv s.dec → exec .prdet s = .next t →
    (∀ e, t.dec.pb.head? = some e → e.level = .mark) ∧ (t.ret = .bool false → t.dec.pbLen ≤ 1) ∧ LevelsInv t.dec

/-! ### The demodulators -/

/-- 44_demodulators R164, round by round: the stop test, the wait for a pair, the 1 and 0 patterns (the 1 test first), the
error; what each leaves in the buffer. -/
def Obligations.PulseDistanceRounds : Prop :=
  ∀ s : State, s.fault = 0 →
    (s.cfg.p.bitLength ≤ s.dec.accCount →
        (s.dec.pb = [] → exec .dmpd s = .next { s with ret := .status .ok })
          ∧ ∀ e rest, s.dec.pb = e :: rest →
            (durMatch e.duration s.cfg.p.bit1Mark.toNat s.cfg.p.bitTol = true →
                exec .dmpd s = .next { s with dec := { s.dec with pb := rest }, ret := .status .ready })
              ∧ (durMatch e.duration s.cfg.p.bit1Mark.toNat s.cfg.p.bitTol = false →
                exec .dmpd s = .next { s with ret := .status .error }))
      ∧ (s.dec.accCount < s.cfg.p.bitLength →
        (s.dec.pbLen < 2 → exec .dmpd s = .next { s with ret := .status .ok })
          ∧ ∀ e0 e1 rest, s.dec.pb = e0 :: e1 :: rest →
            ∀ one zero : Bool,
              one = (durMatch e0.duration s.cfg.p.bit1Mark.toNat s.cfg.p.bitTol
                && durMatch e1.duration s.cfg.p.bit1Space.toNat s.cfg.p.bitTol) →
              zero = (durMatch e0.duration s.cfg.p.bit0Mark.toNat s.cfg.p.bitTol
                && durMatch e1.duration s.cfg.p.bit0Space.toNat s.cfg.p.bitTol) →
              (one = false → zero = false → exec .dmpd s = .next { s with ret := .status .error })
                ∧ (one = true ∨ zero = true →
                  (∀ d', aPush s.cfg one s.dec = .ret () d' →
                      exec .dmpd s = exec .dmpd { s with dec := { d' with pb := rest } })
                    ∧ (8 * s.cfg.accBytes = s.dec.accCount →
                      exec .dmpd s = .next { s with fault := 0x02, ret := .raised })))

/-- 44_demodulators R166, round by round: a Mark carries a bit (the 1 width first), a Space must match `bit1_space`, and the
frame is ready as soon as the declared count is reached. -/
def Obligations.PulseWidthRounds : Prop :=
  ∀ s : State, s.fault = 0 →
    (s.dec.pb = [] → exec .dmpw s = .next { s with ret := .status .ok })
      ∧ ∀ e rest, s.dec.pb = e :: rest →
        (e.level = .mark →
            (s.cfg.p.bitLength ≤ s.dec.accCount → exec .dmpw s = .next { s with ret := .status .error })
              ∧ (s.dec.accCount < s.cfg.p.bitLength →
                ∀ one zero : Bool,
                  one = durMatch e.duration s.cfg.p.bit1Mark.toNat s.cfg.p.bitTol →
                  zero = durMatch e.duration s.cfg.p.bit0Mark.toNat s.cfg.p.bitTol →
                  (one = false → zero = false → exec .dmpw s = .next { s with ret := .status .error })
                    ∧ (one = true ∨ zero = true →
                      (∀ d', aPush s.cfg one s.dec = .ret () d' →
                          (d'.accCount = s.cfg.p.bitLength →
                              exec .dmpw s = .next { s with dec := { d' with pb := rest }, ret := .status .ready })
                            ∧ (d'.accCount ≠ s.cfg.p.bitLength →
                              exec .dmpw s = exec .dmpw { s with dec := { d' with pb := rest } }))
                        ∧ (8 * s.cfg.accBytes = s.dec.accCount →
                          exec .dmpw s = .next { s with fault := 0x02, ret := .raised }))))
          ∧ (e.level = .space →
            (durMatch e.duration s.cfg.p.bit1Space.toNat s.cfg.p.bitTol = false →
                exec .dmpw s = .next { s with ret := .status .error })
              ∧ (durMatch e.duration s.cfg.p.bit1Space.toNat s.cfg.p.bitTol = true →
                (s.dec.accCount = s.cfg.p.bitLength →
                    exec .dmpw s = .next { s with dec := { s.dec with pb := rest }, ret := .status .ready })
                  ∧ (s.dec.accCount ≠ s.cfg.p.bitLength →
                    exec .dmpw s = exec .dmpw { s with dec := { s.dec with pb := rest } })))

/-- 44_demodulators R168, round by round: the synthesized first bit, then the widths, the flag, the data transition and the end
of the frame; what each leaves in the buffer. -/
def Obligations.ManchesterRounds : Prop :=
  ∀ s : State, s.fault = 0 →
    (s.dec.pb = [] → exec .dmman s = .next { s with ret := .status .ok })
      ∧ ∀ e rest, s.dec.pb = e :: rest →
        ∀ single double : Bool,
          single = durMatch e.duration s.cfg.p.bit1Mark.toNat s.cfg.p.bitTol →
          double = durMatch e.duration (2 * s.cfg.p.bit1Mark.toNat) s.cfg.p.bitTol →
          (single = false → double = false → exec .dmman s = .next { s with ret := .status .error })
            ∧ (single = true ∨ double = true → s.cfg.p.manchStartFromSpace = true → s.dec.accCount = 0 →
              (∀ d', aPush s.cfg s.cfg.p.manchFirstBit { s.dec with sd := true } = .ret () d' →
                  exec .dmman s = exec .dmman { s with dec := d' })
                ∧ (8 * s.cfg.accBytes = s.dec.accCount →
                  exec .dmman s = .next { s with dec := { s.dec with sd := true }, fault := 0x02, ret := .raised }))
            ∧ (single = true ∨ double = true → ¬ (s.cfg.p.manchStartFromSpace = true ∧ s.dec.accCount = 0) →
              (s.cfg.p.bitLength ≤ s.dec.accCount → exec .dmman s = .next { s with ret := .status .error })
                ∧ (s.dec.accCount < s.cfg.p.bitLength →
                  (s.dec.sd = false → double = true → exec .dmman s = .next { s with ret := .status .error })
                    ∧ (s.dec.sd = true → single = true →
                      exec .dmman s = exec .dmman { s with dec := { s.dec with sd := false, pb := rest } })
                    ∧ ((s.dec.sd = false ∧ double = false) ∨ (s.dec.sd = true ∧ single = false) →
                      (∀ d', aPush s.cfg e.level { s.dec with sd := true, pb := rest } = .ret () d' →
                          (d'.accCount ≠ s.cfg.p.bitLength → exec .dmman s = exec .dmman { s with dec := d' })
                            ∧ (d'.accCount = s.cfg.p.bitLength → e.level = s.cfg.p.manchEndLevel →
                              exec .dmman s = .next { s with dec := d', ret := .status .ready })
                            ∧ (d'.accCount = s.cfg.p.bitLength → e.level ≠ s.cfg.p.manchEndLevel →
                              exec .dmman s = .next { s with dec := d', ret := .status .error }))
                        ∧ (8 * s.cfg.accBytes = s.dec.accCount →
                          exec .dmman s
                            = .next { s with
                                dec := { s.dec with sd := true, pb := rest }
                                fault := 0x02
                                ret := .raised }))))

/-- On a configured decoder every demodulator called alone answers a next state; it changes nothing but the accumulator, the
buffer and `sd`; it consumes from the front only; an `Ok` leaves at most one entry (pulse-distance) or none (44_demodulators
R160, R161, R162). -/
def Obligations.DemodulatorsComplete : Prop :=
  ∀ (i : Instr) (s : State), i = .dmpd ∨ i = .dmpw ∨ i = .dmman → s.cfg.wf = true → s.fault = 0 →
    AccumulatorInv s.cfg s.dec →
    ∃ (t : State) (st : DemodStatus), exec i s = .next t
      ∧ t = { s with
          dec := { s.dec with acc := t.dec.acc, accCount := t.dec.accCount, pb := t.dec.pb, sd := t.dec.sd }
          ret := .status st }
      ∧ AccumulatorInv t.cfg t.dec
      ∧ t.dec.pb.IsSuffix s.dec.pb
      ∧ (i ≠ .dmman → t.dec.sd = s.dec.sd)
      ∧ (st = .ok → t.dec.pbLen ≤ 1 ∧ (i ≠ .dmpd → t.dec.pbLen = 0))
      ∧ (st = .ready → t.dec.accCount = s.cfg.p.bitLength)

/-- An alternating train of `2*bit_length - 1` unit-width samples that begins with a Mark decodes to bits that are all 1, not
alternating (44_demodulators R171). -/
def Obligations.SingleWidthTrainGivesConstantBits : Prop :=
  ∀ s : State, s.fault = 0 → s.cfg.wf = true → s.cfg.p.modulation = .man → s.cfg.p.manchStartFromSpace = false →
    s.cfg.p.manchEndLevel = .mark → s.dec.accCount = 0 → s.dec.sd = false →
    s.dec.pbLen = 2 * s.cfg.p.bitLength - 1 → alternates s.dec.pb = true →
    (∀ e, s.dec.pb.head? = some e → e.level = .mark) →
    (∀ e ∈ s.dec.pb, durMatch e.duration s.cfg.p.bit1Mark.toNat s.cfg.p.bitTol = true) →
    ∃ t, exec .dmman s = .next t ∧ t.ret = .status .ready ∧ t.dec.accCount = s.cfg.p.bitLength ∧ t.dec.pb = []
      ∧ ∀ k < s.cfg.p.bitLength, accBit t.dec k = some true

/-- 44_demodulators R172 and 10_state R37: the hook asks for at most the entries there are; they are consumed and its status
handed back; the hook changes nothing else. An absent hook is not called: a lone call of it is refused (log entry 11). -/
def Obligations.RepeatHookConsumesWhatItAsks : Prop :=
  ∀ s : State, s.fault = 0 →
    (∀ st k, demodRepeat s.cfg.p s.dec.pb = some (st, k) →
        k ≤ s.dec.pbLen
          ∧ exec .dmrpt s = .next { s with dec := { s.dec with pb := s.dec.pb.drop k }, ret := .status st })
      ∧ (s.cfg.p.demodRepeat = .absent → exec .dmrpt s = .refused .repeatHookAbsent)

/-! ### The bit accumulator -/

/-- 45_bit_accumulator R191: a push writes bit `acc_count mod 8` of byte `acc_count div 8`, zeroing a byte it starts, leaves
every other byte, and counts one; at the end of the store it raises `ACC_OVF` and writes nothing. A byte in the middle of which
a bit goes must hold a value, which it does in every state of the invariant (log entry 10). -/
def Obligations.PushWritesOneBit : Prop :=
  ∀ (s : State) (bit : Bool), s.fault = 0 →
    (∀ v : Byte, s.dec.accCount < 8 * s.cfg.accBytes →
        (s.dec.accCount % 8 = 0 → v = 0) →
        (s.dec.accCount % 8 ≠ 0 → Memory.read (s.dec.accCount / 8) s.dec.acc = some v) →
        ∃ acc', exec (.apush bit) s
            = .next { s with dec := { s.dec with acc := acc', accCount := s.dec.accCount + 1 }, ret := .nothing }
          ∧ Memory.read (s.dec.accCount / 8) acc'
              = some (v ||| BitVec.ofNat 8 (bit.toNat * 2 ^ (s.dec.accCount % 8)))
          ∧ (∀ j, j ≠ s.dec.accCount / 8 → Memory.read j acc' = Memory.read j s.dec.acc)
          ∧ (Memory.wf s.dec.acc = true → Memory.wf acc' = true))
      ∧ (s.dec.accCount = 8 * s.cfg.accBytes → exec (.apush bit) s = .next { s with fault := 0x02, ret := .raised })

/-- 45_bit_accumulator R192: after `ACLR` and any `N <= 8*ACC_BYTES` pushes the store reproduces exactly the bit pattern
pushed, bit `k` in bit `k mod 8` of byte `k div 8`, the view has `ceil(N/8)` bytes, and the bits above the last are 0. -/
def Obligations.AccumulatorReproducesTheBits : Prop :=
  ∀ (s : State) (bits : List Bool), s.fault = 0 → bits.length ≤ 8 * s.cfg.accBytes →
    ∃ t ws view, issueAll (.aclr :: bits.map .apush) s = .next (t, ws)
      ∧ t.fault = 0 ∧ t.dec.accCount = bits.length
      ∧ (∀ k b, bits[k]? = some b → accBit t.dec k = some b)
      ∧ accView t.dec = .ok view ∧ view.length = (bits.length + 7) / 8
      ∧ (∀ v, view.getLast? = some v → ∀ k < 8, (bits.length - 1) % 8 < k → v.getLsbD k = false)

/-! ### The engine -/

/-- 43_decode_engine R147: the engine loop always ends: `2*pb_len + 3` arms are enough from any state of the decoder under any
configuration, and more would change nothing. -/
def Obligations.EngineSettlesWithinTheBound : Prop :=
  ∀ (c : Config) (d : DecoderState) (n : Nat), 2 * d.pbLen + 3 ≤ n →
    engineLoop c n d = eRun c d ∧ engineLoop c n d ≠ .refused .engineDidNotSettle

/-- 43_decode_engine R144: with the preamble found (or none required) the accumulator and `sd` are cleared and the engine goes
on in `Decode` at once; otherwise it waits. -/
def Obligations.WaitPreambleArm : Prop :=
  ∀ s : State, s.fault = 0 → s.dec.engState = .waitPreamble →
    ((prDet s.cfg.p s.dec).1 = true →
        exec .erun s
          = exec .erun { s with
              dec := { (prDet s.cfg.p s.dec).2 with accCount := 0, sd := false, engState := .decode } })
      ∧ ((prDet s.cfg.p s.dec).1 = false →
        exec .erun s = .next { s with dec := (prDet s.cfg.p s.dec).2, ret := .message none })

/-- 43_decode_engine R145: the selected demodulator runs; `Ok` waits; `Ready` emits what `interpret` accepts and moves to
`ProcessRepeat`, or resets; `Error` resets, drops one entry and goes on; a raised fault ends the run. -/
def Obligations.DecodeArm : Prop :=
  ∀ (s : State) (d' : DecoderState), s.fault = 0 → s.dec.engState = .decode →
    ∀ demod : UnitFlow DemodStatus,
      demod = (match s.cfg.p.modulation with
        | .pd => dmPd s.cfg s.dec
        | .pw => dmPw s.cfg s.dec
        | .man => dmMan s.cfg s.dec) →
      (demod = .ret .ok d' → exec .erun s = .next { s with dec := d', ret := .message none })
        ∧ (demod = .ret .ready d' → ∀ view, accView d' = .ok view →
          (∀ code bits, interpret s.cfg.p view d'.accCount = .accept code bits →
              exec .erun s
                = .next { s with
                    dec := { d' with lastMsg := ⟨s.cfg.p.protocolId, code, bits, false⟩, engState := .processRepeat }
                    ret := .message (some ⟨s.cfg.p.protocolId, code, bits, false⟩) })
            ∧ (interpret s.cfg.p view d'.accCount = .reject →
              exec .erun s
                = .next { s with
                    dec := { d' with engState := .waitPreamble, accCount := 0, sd := false }
                    ret := .message none }))
        ∧ (demod = .ret .error d' →
          exec .erun s
            = exec .erun { s with
                dec := { d' with engState := .waitPreamble, accCount := 0, sd := false, pb := d'.pb.drop 1 } })
        ∧ (∀ cause, demod = .raised cause d' →
          exec .erun s = .next { s with dec := d', fault := causeBit cause, ret := .raised })

/-- 43_decode_engine R146: without a repeat function the engine goes back to `WaitPreamble` at once; otherwise `Ok` waits,
`Ready` emits the last message as a repeat and stays, `Error` resets and goes on without dropping a sample. -/
def Obligations.ProcessRepeatArm : Prop :=
  ∀ s : State, s.fault = 0 → s.dec.engState = .processRepeat →
    (s.cfg.p.demodRepeat = .absent →
        exec .erun s = exec .erun { s with dec := { s.dec with engState := .waitPreamble } })
      ∧ (∀ st k, demodRepeat s.cfg.p s.dec.pb = some (st, k) →
        (st = .ok →
            exec .erun s = .next { s with dec := { s.dec with pb := s.dec.pb.drop k }, ret := .message none })
          ∧ (st = .ready →
            exec .erun s
              = .next { s with
                  dec := { s.dec with pb := s.dec.pb.drop k, lastMsg := { s.dec.lastMsg with isRepeat := true } }
                  ret := .message (some { s.dec.lastMsg with isRepeat := true }) })
          ∧ (st = .error →
            exec .erun s
              = exec .erun { s with
                  dec := { s.dec with
                    pb := s.dec.pb.drop k, engState := .waitPreamble, accCount := 0, sd := false } }))

/-- On a configured decoder `ERUN` called alone answers a next state and raises no fault; it changes only the decoder group,
of it neither `last_level` nor the order of what it leaves (43_decode_engine R143 to R147). -/
def Obligations.EngineRunCompletes : Prop :=
  ∀ s : State, s.cfg.wf = true → s.fault = 0 → AccumulatorInv s.cfg s.dec →
    ∃ t m, exec .erun s = .next t ∧ t = { s with dec := t.dec, ret := .message m }
      ∧ t.dec.lastLevel = s.dec.lastLevel ∧ t.dec.pb.IsSuffix s.dec.pb ∧ AccumulatorInv t.cfg t.dec
      ∧ (m = none → t.dec.lastMsg = s.dec.lastMsg) ∧ (∀ x, m = some x → t.dec.lastMsg = x)

/-- 43_decode_engine R140: a same-level sample force-resets first; then the level is recorded, the sample appended (or the
overflow raised), the engine run; the response is the engine's message or `OK_NONE`, or `FAULTED` on a fault; a halted block
answers `FAULTED` and does nothing. -/
def Obligations.EdgeAppendsAndRuns : Prop :=
  ∀ (s : State) (level : Level) (d : Dur) (base : DecoderState),
    base = (if level = s.dec.lastLevel
      then { s.dec with engState := .waitPreamble, accCount := 0, sd := false, pb := [] } else s.dec) →
    (s.fault ≠ 0 → exec (.edge level d) s = .next { s with rsp := some (responseWord (.faulted s.fault)) })
      ∧ (s.fault = 0 → base.pbLen = s.cfg.pbCap →
        exec (.edge level d) s
          = .next { s with
              dec := { base with lastLevel := level }, fault := 0x01, rsp := some (responseWord (.faulted 0x01)) })
      ∧ (s.fault = 0 → base.pbLen < s.cfg.pbCap →
        ∀ run, run = eRun s.cfg { base with lastLevel := level, pb := base.pb ++ [⟨level, d⟩] } →
          (∀ d', run = .ret none d' →
              exec (.edge level d) s = .next { s with dec := d', rsp := some (responseWord .okNone) })
            ∧ (∀ m d', run = .ret (some m) d' →
              exec (.edge level d) s = .next { s with dec := d', rsp := some (responseWord (.okMsg m)) })
            ∧ (∀ cause d', run = .raised cause d' →
              exec (.edge level d) s
                = .next { s with
                    dec := d', fault := causeBit cause, rsp := some (responseWord (.faulted (causeBit cause))) }))

/-- On a configured block an `EDGE` whose sample fits completes, with `OK_NONE` or `OK_MSG`, and records its level; it changes
only the decoder group (43_decode_engine R140, R149 (a); 70_reset R270). -/
def Obligations.EdgeCompletes : Prop :=
  ∀ (s : State) (level : Level) (d : Dur), s.cfg.wf = true → s.Inv → s.fault = 0 →
    (level = s.dec.lastLevel ∨ s.dec.pbLen < s.cfg.pbCap) →
    ∃ t, exec (.edge level d) s = .next t ∧ t = { s with dec := t.dec, rsp := t.rsp }
      ∧ t.dec.lastLevel = level
      ∧ (t.rsp = some (responseWord .okNone) ∨ ∃ m, t.rsp = some (responseWord (.okMsg m)) ∧ t.dec.lastMsg = m)

/-- Which messages an `EDGE` emits: a fresh one carries the descriptor's identity; a repeat comes only in `ProcessRepeat`, on a
sample of the other level, and carries the last message's fields (43_decode_engine R145, R146, R149 (c)). -/
def Obligations.RepeatMessagesCarryTheLastMessage : Prop :=
  ∀ (s t : State) (level : Level) (d : Dur) (m : Message), s.fault = 0 → exec (.edge level d) s = .next t →
    t.rsp = some (responseWord (.okMsg m)) →
    t.dec.engState = .processRepeat ∧ t.dec.lastMsg = m
      ∧ (m.isRepeat = false → m.protocolId = s.cfg.p.protocolId)
      ∧ (m.isRepeat = true → s.dec.engState = .processRepeat ∧ level ≠ s.dec.lastLevel
          ∧ s.cfg.p.demodRepeat ≠ .absent ∧ m = { s.dec.lastMsg with isRepeat := true })

/-- Without a preamble, with an `interpret` that accepts and no repeat function, an `EDGE` that emits no message ends in
`Decode` (43_decode_engine R151). -/
def Obligations.NoPreambleEndsInDecode : Prop :=
  ∀ (s t : State) (level : Level) (d : Dur), s.fault = 0 → s.cfg.p.preambleMark = 0 → s.cfg.p.interpret = .reference →
    s.cfg.p.demodRepeat = .absent → exec (.edge level d) s = .next t → t.rsp = some (responseWord .okNone) →
    t.dec.engState = .decode

/-! ### The custom state machine -/

/-- 46_custom_fsm R201 and R203: the arms of states 0 and 2. -/
def Obligations.CustomIdleAndBitMarkArms : Prop :=
  ∀ (s : State) (level : Level) (d : Dur), s.fault = 0 →
    (s.cus.cState = .idle →
        (level = .mark ∧ windowMatch d.toNat s.cfg.q.short.toNat s.cfg.q.delta.toNat = true →
            exec (.cedge level d) s
              = .next { s with
                  cus := { s.cus with cLast := d, cHdr := 0, cState := .header }
                  rsp := some (responseWord .okNone) })
          ∧ (¬ (level = .mark ∧ windowMatch d.toNat s.cfg.q.short.toNat s.cfg.q.delta.toNat = true) →
            exec (.cedge level d) s = .next { s with rsp := some (responseWord .okNone) }))
      ∧ (s.cus.cState = .bitMark →
        (level = .mark →
            exec (.cedge level d) s
              = .next { s with
                  cus := { s.cus with cLast := d, cState := .bitSpace }
                  rsp := some (responseWord .okNone) })
          ∧ (level = .space →
            exec (.cedge level d) s
              = .next { s with cus := { s.cus with cState := .idle }, rsp := some (responseWord .okNone) }))

/-- 46_custom_fsm R202: the arm of state 1. -/
def Obligations.CustomHeaderArm : Prop :=
  ∀ (s : State) (level : Level) (d : Dur) (short start : Dur → Bool), s.fault = 0 → s.cus.cState = .header →
    (∀ x, short x = windowMatch x.toNat s.cfg.q.short.toNat s.cfg.q.delta.toNat) →
    (∀ x, start x = windowMatch x.toNat (4 * s.cfg.q.short.toNat) s.cfg.q.delta.toNat) →
    exec (.cedge level d) s
      = .next { s with
          rsp := some (responseWord .okNone)
          cus :=
            if level = .mark then
              if short d = true ∨ start d = true then { s.cus with cLast := d } else { s.cus with cState := .idle }
            else if short d = true then
              if short s.cus.cLast = true then
                { s.cus with cHdr := if s.cus.cHdr = 65535 then 65535 else s.cus.cHdr + 1 }
              else if start s.cus.cLast = true ∧ 40 < s.cus.cHdr.toNat then
                { s.cus with cCode := 0, cBits := 0, cState := .bitMark }
              else { s.cus with cState := .idle }
            else { s.cus with cState := .idle } }

/-- 46_custom_fsm R204: the arm of state 3: a Mark resets; then the stop test; then the two bit patterns, 0 first, and the
guard on the declared length. -/
def Obligations.CustomDecisionArm : Prop :=
  ∀ (s : State) (level : Level) (d : Dur) (short long : Dur → Bool), s.fault = 0 → s.cus.cState = .bitSpace →
    (∀ x, short x = windowMatch x.toNat s.cfg.q.short.toNat s.cfg.q.delta.toNat) →
    (∀ x, long x = windowMatch x.toNat s.cfg.q.long.toNat s.cfg.q.delta.toNat) →
    ∃ cus' r, exec (.cedge level d) s = .next { s with cus := cus', rsp := some (responseWord r) }
      ∧ (level = .mark → cus' = { s.cus with cState := .idle } ∧ r = .okNone)
      ∧ (level = .space → 10 * s.cfg.q.short.toNat + 2 * s.cfg.q.delta.toNat ≤ d.toNat →
        (s.cfg.q.minBits.toNat ≤ s.cus.cBits.toNat →
            cus' = { s.cus with
                cLastCode := s.cus.cCode, cLastBits := s.cus.cBits, cCode := 0, cBits := 0, cState := .idle }
              ∧ r = .okMsg ⟨s.cfg.q.protocolId, s.cus.cCode, s.cus.cBits, false⟩)
          ∧ (s.cus.cBits.toNat < s.cfg.q.minBits.toNat →
            cus' = { s.cus with cCode := 0, cBits := 0, cState := .idle } ∧ r = .okNone))
      ∧ (level = .space → d.toNat < 10 * s.cfg.q.short.toNat + 2 * s.cfg.q.delta.toNat →
        r = .okNone
          ∧ (s.cfg.q.maxBits.toNat ≤ s.cus.cBits.toNat → cus' = { s.cus with cState := .idle })
          ∧ (s.cus.cBits.toNat < s.cfg.q.maxBits.toNat →
            (short s.cus.cLast = true ∧ long d = true →
                cus'.cState = .bitMark ∧ cus'.cCode.toNat = (2 * s.cus.cCode.toNat) % 2 ^ 64)
              ∧ (¬ (short s.cus.cLast = true ∧ long d = true) → long s.cus.cLast = true ∧ short d = true →
                cus'.cState = .bitMark ∧ cus'.cCode.toNat = (2 * s.cus.cCode.toNat + 1) % 2 ^ 64)
              ∧ (¬ (short s.cus.cLast = true ∧ long d = true) → ¬ (long s.cus.cLast = true ∧ short d = true) →
                cus' = { s.cus with cState := .idle })
              ∧ (cus'.cState = .bitMark →
                cus' = { s.cus with cState := .bitMark, cCode := cus'.cCode, cBits := s.cus.cBits + 1 })))

/-- 46_custom_fsm R205: the shift register takes one bit, most significant first, modulo 2^64, and counts it. Past the 8 bits
of the counter, which no run reaches, the count is a free value (log entry 12) and the rest is as always. -/
def Obligations.ShiftRegisterTakesOneBit : Prop :=
  ∀ (s : State) (bit : Bool), s.fault = 0 →
    ∃ (code : BitVec 64) (bits : BitVec 8),
      exec (.cbit bit) s = .next { s with cus := { s.cus with cCode := code, cBits := bits }, ret := .nothing }
        ∧ code.toNat = (2 * s.cus.cCode.toNat + bit.toNat) % 2 ^ 64
        ∧ (s.cus.cBits ≠ 255 → bits.toNat = s.cus.cBits.toNat + 1)

/-- Header pairs are counted one by one and the counter saturates at 65535 (46_custom_fsm R202, 10_state R29; 95_test_vectors
V-CU12). -/
def Obligations.HeaderPairsAreCounted : Prop :=
  ∀ (s : State) (h : Nat) (mark space : Dur), s.fault = 0 → s.cus.cState = .idle → 1 ≤ h →
    durMatch mark s.cfg.q.short.toNat s.cfg.q.delta = true → durMatch space s.cfg.q.short.toNat s.cfg.q.delta = true →
    ∃ t ws, issueAll (timesCommands h [cmarkCommand mark, cspaceCommand space]) s = .next (t, ws)
      ∧ (∀ w ∈ ws, w = responseWord .okNone)
      ∧ t.cus = { s.cus with cState := .header, cLast := mark, cHdr := BitVec.ofNat 16 (min h 65535) }

/-- 46_custom_fsm R210 (a), (b): a message comes only from state 3, on a Space, never as a repeat, with an admitted bit count;
it is what the machine commits. -/
def Obligations.CustomMessagesAreBounded : Prop :=
  ∀ (s t : State) (level : Level) (d : Dur) (m : Message), s.Inv → s.fault = 0 → exec (.cedge level d) s = .next t →
    t.rsp = some (responseWord (.okMsg m)) →
    s.cus.cState = .bitSpace ∧ level = .space ∧ m.isRepeat = false ∧ m.protocolId = s.cfg.q.protocolId
      ∧ s.cfg.q.minBits.toNat ≤ m.bitCount.toNat ∧ m.bitCount.toNat ≤ s.cfg.q.maxBits.toNat
      ∧ m.code.toNat < 2 ^ m.bitCount.toNat ∧ t.cus.cLastCode = m.code ∧ t.cus.cLastBits = m.bitCount
      ∧ t.cus.cState = .idle

/-! ### The encoder -/

/-- 47_waveform_encoder R220, R221: `ENC` refuses more than 64 bits and a waveform longer than `ENC_CAP`, leaving the encoder
empty; otherwise the waveform has `2*enc_hdr_pairs + 2*bit_count + 4` entries and the cursors stand at its ends; a halted block
answers `FAULTED` and does nothing. -/
def Obligations.EncodeChecksThenFills : Prop :=
  ∀ (s : State) (code : BitVec 64) (n : BitVec 8),
    (s.fault ≠ 0 → exec (.enc code n) s = .next { s with rsp := some (responseWord (.faulted s.fault)) })
      ∧ (s.fault = 0 →
        ∃ enc' r, exec (.enc code n) s = .next { s with enc := enc', rsp := some (responseWord r) }
          ∧ enc'.encRd = 0
          ∧ (64 < n.toNat → r = .badOperand ∧ enc'.encWr = 0 ∧ enc'.ub = s.enc.ub)
          ∧ (n.toNat ≤ 64 → s.cfg.encCap < 2 * s.cfg.q.encHdrPairs + 2 * n.toNat + 4 →
            r = .tooLarge ∧ enc'.encWr = 0 ∧ enc'.ub = s.enc.ub)
          ∧ (n.toNat ≤ 64 → 2 * s.cfg.q.encHdrPairs + 2 * n.toNat + 4 ≤ s.cfg.encCap →
            r = .okNone ∧ enc'.encWr = 2 * s.cfg.q.encHdrPairs + 2 * n.toNat + 4
              ∧ exec (.efill code n) s = .next { s with enc := enc', ret := .nothing }))

/-- 47_waveform_encoder R222: what `EFILL` writes at each index: header train, start pair, payload bits from the most
significant down, stop pair; no entry beyond the waveform is written. A bit above 63, which a 64-bit code does not have, is a free value:
the model's choice (log entry 26). -/
def Obligations.FillWritesTheWaveform : Prop :=
  ∀ (s : State) (code : BitVec 64) (n : BitVec 8), s.fault = 0 → wfCustom s.cfg.q = true →
    2 * s.cfg.q.encHdrPairs + 2 * n.toNat + 4 ≤ s.cfg.encCap →
    ∃ ub', exec (.efill code n) s
        = .next { s with enc := ⟨ub', 2 * s.cfg.q.encHdrPairs + 2 * n.toNat + 4, 0⟩, ret := .nothing }
      ∧ (∀ i < s.cfg.q.encHdrPairs, Memory.read (2 * i) ub' = some ⟨.mark, s.cfg.q.short⟩
          ∧ Memory.read (2 * i + 1) ub' = some ⟨.space, s.cfg.q.short⟩)
      ∧ Memory.read (2 * s.cfg.q.encHdrPairs) ub' = some ⟨.mark, BitVec.ofNat 32 (4 * s.cfg.q.short.toNat)⟩
      ∧ Memory.read (2 * s.cfg.q.encHdrPairs + 1) ub' = some ⟨.space, s.cfg.q.short⟩
      ∧ (∀ j < n.toNat, ∃ one : Bool, (n.toNat - 1 - j < 64 → one = code.getLsbD (n.toNat - 1 - j))
            ∧ Memory.read (2 * s.cfg.q.encHdrPairs + 2 + 2 * j) ub'
              = some ⟨.mark, if one then s.cfg.q.long else s.cfg.q.short⟩
            ∧ Memory.read (2 * s.cfg.q.encHdrPairs + 2 + 2 * j + 1) ub'
              = some ⟨.space, if one then s.cfg.q.short else s.cfg.q.long⟩)
      ∧ Memory.read (2 * s.cfg.q.encHdrPairs + 2 + 2 * n.toNat) ub' = some ⟨.mark, s.cfg.q.short⟩
      ∧ Memory.read (2 * s.cfg.q.encHdrPairs + 2 + 2 * n.toNat + 1) ub' = some ⟨.space, s.cfg.q.encStopSpace⟩
      ∧ (∀ k, 2 * s.cfg.q.encHdrPairs + 2 * n.toNat + 4 ≤ k → Memory.read k ub' = Memory.read k s.enc.ub)
      ∧ (Memory.wf s.enc.ub = true → Memory.wf ub' = true)

/-- Every waveform begins with a Mark, ends with a Space, alternates in level, and depends only on the low `bit_count` bits of
the code (47_waveform_encoder R223 (c), (d)), the last for a `bit_count` that a code has bits for. -/
def Obligations.WaveformsAlternate : Prop :=
  ∀ (q : CustomDescriptor) (code : BitVec 64) (n : Nat),
    alternates (waveform q code n) = true
      ∧ (∃ e, (waveform q code n).head? = some e ∧ e.level = .mark)
      ∧ (∃ e, (waveform q code n).getLast? = some e ∧ e.level = .space)
      ∧ (n ≤ 64 → ∀ code' : BitVec 64, code'.toNat % 2 ^ n = code.toNat % 2 ^ n → waveform q code' n = waveform q code n)

/-- 47_waveform_encoder R224: `NEXT` returns the entry at the read cursor and advances it, or answers `DONE` and changes
nothing once the cursor has reached the end; a halted block answers `FAULTED`. -/
def Obligations.NextPullsInOrder : Prop :=
  ∀ s : State,
    (s.fault ≠ 0 → exec .next s = .next { s with rsp := some (responseWord (.faulted s.fault)) })
      ∧ (s.fault = 0 →
        (∀ e, s.enc.encRd < s.enc.encWr → Memory.read s.enc.encRd s.enc.ub = some e →
            exec .next s
              = .next { s with
                  enc := { s.enc with encRd := s.enc.encRd + 1 }
                  rsp := some (responseWord (.okSample e)) })
          ∧ (s.enc.encWr ≤ s.enc.encRd → exec .next s = .next { s with rsp := some (responseWord .done) }))

/-- After an `ENC` that was accepted, `DRAIN` returns every sample of the waveform in order, each once, and then `DONE`
(47_waveform_encoder R224, 20_memory R67, 30_encoding R94). -/
def Obligations.DrainReturnsTheWaveform : Prop :=
  ∀ (s s1 : State) (code : BitVec 64) (n : BitVec 8), s.fault = 0 →
    exec (.enc code n) s = .next s1 → s1.rsp = some (responseWord .okNone) →
    ∃ t, drain (pullsNeeded s1) s1
        = .next (t, (waveform s.cfg.q code n.toNat).map (fun e => responseWord (.okSample e)) ++ [responseWord .done])
      ∧ t.enc.encRd = t.enc.encWr ∧ t.cus = s.cus ∧ t.dec = s.dec

/-- 47_waveform_encoder R226, the round-trip law: under its conditions an encoded frame, pulled and fed to the custom machine,
gives exactly one message, on the last sample, with the code's low bits and the bit count. -/
def Obligations.EncodedFrameDecodesBack : Prop :=
  ∀ (s : State) (code : BitVec 64) (n : BitVec 8), wfCustom s.cfg.q = true → RoundTripConditions s.cfg n.toNat →
    s.fault = 0 → s.cus.cState = .idle →
    ∃ s1 t, exec (.enc code n) s = .next s1 ∧ s1.rsp = some (responseWord .okNone)
      ∧ loopback (pullsNeeded s1) s1
          = .next (t, List.replicate (2 * s.cfg.q.encHdrPairs + 2 * n.toNat + 3) (responseWord .okNone)
              ++ [responseWord (.okMsg ⟨s.cfg.q.protocolId, BitVec.ofNat 64 (code.toNat % 2 ^ n.toNat), n, false⟩)])
      ∧ t.cus.cState = .idle ∧ t.cus.cLastCode = BitVec.ofNat 64 (code.toNat % 2 ^ n.toNat) ∧ t.cus.cLastBits = n
      ∧ t.enc.encRd = t.enc.encWr

/-- Corrupting one sample of the start pair or of the payload, to a duration that is legal nowhere at that place, yields no
message for the frame (47_waveform_encoder R227 (a), (b), (c)). -/
def Obligations.CorruptedFrameGivesNoMessage : Prop :=
  ∀ (s : State) (code : BitVec 64) (n : BitVec 8) (i : Nat) (e : Sample) (bad : Dur),
    wfCustom s.cfg.q = true →
    RoundTripConditions s.cfg n.toNat → s.fault = 0 → s.cus.cState = .idle →
    2 * s.cfg.q.encHdrPairs ≤ i → i < 2 * s.cfg.q.encHdrPairs + 2 + 2 * n.toNat →
    (waveform s.cfg.q code n.toNat)[i]? = some e → IllegalAt s.cfg.q i bad →
    ∃ t ws, issueAll (cfeedCommands ((waveform s.cfg.q code n.toNat).set i ⟨e.level, bad⟩)) s = .next (t, ws)
      ∧ ∀ w ∈ ws, w = responseWord .okNone
end

