-- ==== Sys2Proof/Laws/Encoding.lean ====
section
/-! SUPPORT. The fields of the words that the encoder writes, and of the response word (30_encoding R80 to R85). -/

namespace Sys2Proof

/-- A bit of the lower part of a concatenation. -/
theorem bit_low {m n i : Nat} (x : BitVec m) (y : BitVec n) (h : i < n) : (x ++ y).getLsbD i = y.getLsbD i := by
  simp [BitVec.getLsbD_append, h]

/-- A bit of the upper part of a concatenation. -/
theorem bit_high {m n i : Nat} (x : BitVec m) (y : BitVec n) (h : n ≤ i) : (x ++ y).getLsbD i = x.getLsbD (i - n) := by
  simp [BitVec.getLsbD_append, Nat.not_lt.mpr h]

/-- A field of a word is read when each of its bits is. -/
theorem field_eq {w start len : Nat} {x : BitVec w} {v : BitVec len}
    (h : ∀ i < len, x.getLsbD (start + i) = v.getLsbD i) : x.extractLsb' start len = v := by
  apply BitVec.eq_of_getLsbD_eq
  intro i hi
  simp [hi, h i hi]

/-! ### Format Z -/

@[simp] theorem opField_encodeFormatZ (op : BitVec 8) : opField (encodeFormatZ op) = op :=
  field_eq fun i _ => (bit_high op 0#72 (by omega)).trans (congrArg op.getLsbD (by omega))

@[simp] theorem operandField_encodeFormatZ (op : BitVec 8) : operandField (encodeFormatZ op) = 0 :=
  field_eq fun i hi => (bit_low op 0#72 (i := 0 + i) (by omega)).trans (congrArg (0#72).getLsbD (by omega))

/-! ### Format S -/

@[simp] theorem opField_encodeFormatS (op : BitVec 8) (l : Level) (d : Dur) : opField (encodeFormatS op l d) = op :=
  field_eq fun i _ => (bit_high (op ++ 0#39 ++ BitVec.ofBool l) d (by omega)).trans <|
    (bit_high (op ++ 0#39) (BitVec.ofBool l) (by omega)).trans <|
      (bit_high op 0#39 (by omega)).trans (congrArg op.getLsbD (by omega))

@[simp] theorem sampleZeroField_encodeFormatS (op : BitVec 8) (l : Level) (d : Dur) :
    sampleZeroField (encodeFormatS op l d) = 0 :=
  field_eq fun i hi => (bit_high (op ++ 0#39 ++ BitVec.ofBool l) d (i := 33 + i) (by omega)).trans <|
    (bit_high (op ++ 0#39) (BitVec.ofBool l) (by omega)).trans <|
      (bit_low op 0#39 (by omega)).trans (congrArg (0#39).getLsbD (by omega))

@[simp] theorem levelField_encodeFormatS (op : BitVec 8) (l : Level) (d : Dur) :
    levelField (encodeFormatS op l d) = l :=
  (bit_high (op ++ 0#39 ++ BitVec.ofBool l) d (i := 32) (by omega)).trans <|
    (bit_low (op ++ 0#39) (BitVec.ofBool l) (by omega)).trans (by cases l <;> rfl)

@[simp] theorem durationField_encodeFormatS (op : BitVec 8) (l : Level) (d : Dur) :
    durationField (encodeFormatS op l d) = d :=
  field_eq fun i hi => (bit_low (op ++ 0#39 ++ BitVec.ofBool l) d (i := 0 + i) (by omega)).trans
    (congrArg d.getLsbD (by omega))

/-! ### Format K -/

@[simp] theorem opField_encodeFormatK (op : BitVec 8) (code : BitVec 64) (n : BitVec 8) :
    opField (encodeFormatK op code n) = op :=
  field_eq fun i _ => (bit_high (op ++ code) n (by omega)).trans <|
    (bit_high op code (by omega)).trans (congrArg op.getLsbD (by omega))

@[simp] theorem codeField_encodeFormatK (op : BitVec 8) (code : BitVec 64) (n : BitVec 8) :
    codeField (encodeFormatK op code n) = code :=
  field_eq fun i hi => (bit_high (op ++ code) n (i := 8 + i) (by omega)).trans <|
    (bit_low op code (by omega)).trans (congrArg code.getLsbD (by omega))

@[simp] theorem bitCountField_encodeFormatK (op : BitVec 8) (code : BitVec 64) (n : BitVec 8) :
    bitCountField (encodeFormatK op code n) = n :=
  field_eq fun i hi => (bit_low (op ++ code) n (i := 0 + i) (by omega)).trans (congrArg n.getLsbD (by omega))

/-! ### The response word -/

@[simp] theorem Machine.statusField_responseWord (r : Machine.Response) :
    Machine.statusField (Machine.responseWord r) = Machine.statusCode r :=
  field_eq fun i _ => (bit_high (Machine.statusCode r ++ 0#3) (Machine.payload r) (by omega)).trans <|
    (bit_high (Machine.statusCode r) 0#3 (by omega)).trans (congrArg (Machine.statusCode r).getLsbD (by omega))

end Sys2Proof
end

