-- ==== Sys2Proof/Laws/Memory.lean ====
section
/-! SUPPORT. Array access: read after write, frames, and the canonical form that every array operation keeps. -/

namespace Sys2Proof.Machine

variable {α : Type}

/-! ### One entry -/

@[simp] theorem Memory.read_nil (i : Nat) : Memory.read i ([] : Memory α) = none := rfl

@[simp] theorem Memory.read_write_same (i : Nat) (v : α) (m : Memory α) :
    Memory.read i (Memory.write i v m) = some v := by
  induction m with
  | nil => simp [Memory.write, Memory.read]
  | cons e rest ih =>
    simp only [Memory.write]
    split_ifs with h1 h2
    · simp [Memory.read]
    · simp [Memory.read]
    · simp [Memory.read, ih, Ne.symm h2]

theorem Memory.read_write_other {i j : Nat} (h : i ≠ j) (v : α) (m : Memory α) :
    Memory.read i (Memory.write j v m) = Memory.read i m := by
  induction m with
  | nil => simp [Memory.write, Memory.read, h.symm]
  | cons e rest ih =>
    simp only [Memory.write]
    split_ifs with h1 h2
    · simp [Memory.read, h.symm]
    · subst h2
      simp [Memory.read, h.symm]
    · simp [Memory.read, ih]

/-- A list is in canonical form exactly when its first index is below every later one and the rest is in the form. -/
theorem Memory.wf_cons_iff (e : Nat × α) (m : Memory α) :
    Memory.wf (e :: m) = true ↔ (∀ f ∈ m, e.1 < f.1) ∧ Memory.wf m = true := by
  induction m generalizing e with
  | nil => simp [Memory.wf]
  | cons f rest ih =>
    simp only [Memory.wf, Bool.and_eq_true, decide_eq_true_eq, List.mem_cons, forall_eq_or_imp]
    rw [ih f]
    constructor
    · rintro ⟨h1, h2, h3⟩
      exact ⟨⟨h1, fun g hg => h1.trans (h2 g hg)⟩, h2, h3⟩
    · rintro ⟨⟨h1, _⟩, h2, h3⟩
      exact ⟨h1, h2, h3⟩

/-- What a write lists: the entry written, and entries that were there before. -/
theorem Memory.mem_write {i : Nat} {v : α} {m : Memory α} {e : Nat × α} (h : e ∈ Memory.write i v m) :
    e = (i, v) ∨ e ∈ m := by
  induction m with
  | nil => simpa [Memory.write] using h
  | cons f rest ih =>
    simp only [Memory.write] at h
    split_ifs at h with h1 h2
    · simpa using h
    · rcases List.mem_cons.mp h with h | h
      · exact .inl h
      · exact .inr (List.mem_cons_of_mem _ h)
    · rcases List.mem_cons.mp h with h | h
      · exact .inr (h ▸ List.mem_cons_self)
      · rcases ih h with h | h
        · exact .inl h
        · exact .inr (List.mem_cons_of_mem _ h)

/-- Every write keeps the canonical form. -/
theorem Memory.wf_write (i : Nat) (v : α) {m : Memory α} (h : Memory.wf m = true) :
    Memory.wf (Memory.write i v m) = true := by
  induction m with
  | nil => rfl
  | cons f rest ih =>
    obtain ⟨hlt, hrest⟩ := (Memory.wf_cons_iff f rest).mp h
    simp only [Memory.write]
    split_ifs with h1 h2
    · rw [Memory.wf_cons_iff]
      refine ⟨?_, h⟩
      intro g hg
      rcases List.mem_cons.mp hg with hg | hg
      · simpa [hg] using h1
      · exact h1.trans (hlt g hg)
    · rw [Memory.wf_cons_iff]
      exact ⟨fun g hg => by simpa [h2] using hlt g hg, hrest⟩
    · rw [Memory.wf_cons_iff]
      refine ⟨?_, ih hrest⟩
      intro g hg
      rcases Memory.mem_write hg with hg | hg
      · simp only [hg]
        omega
      · exact hlt g hg

/-- A write below the capacity stays within it. -/
theorem Memory.within_write {i cap : Nat} (v : α) {m : Memory α} (hi : i < cap) (h : Memory.within m cap) :
    Memory.within (Memory.write i v m) cap := by
  intro e he
  rcases Memory.mem_write he with he | he
  · simpa [he] using hi
  · exact h e he

/-- A write gives an index a value and takes none away. -/
theorem Memory.filled_write {i n : Nat} (v : α) {m : Memory α} (h : ∀ j < n, j ≠ i → (Memory.read j m).isSome = true) :
    Memory.filled (Memory.write i v m) n := by
  intro j hj
  by_cases hji : j = i
  · simp [hji]
  · rw [Memory.read_write_other hji]
    exact h j hj hji

/-! ### Runs -/

theorem Memory.read_writeRun_below {i j : Nat} (vs : List α) (m : Memory α) (h : j < i) :
    Memory.read j (Memory.writeRun i vs m) = Memory.read j m := by
  induction vs generalizing i m with
  | nil => rfl
  | cons v rest ih =>
    simp only [Memory.writeRun]
    rw [ih _ (by omega), Memory.read_write_other (by omega)]

theorem Memory.read_writeRun_above {i j : Nat} (vs : List α) (m : Memory α) (h : i + vs.length ≤ j) :
    Memory.read j (Memory.writeRun i vs m) = Memory.read j m := by
  induction vs generalizing i m with
  | nil => rfl
  | cons v rest ih =>
    simp only [List.length_cons] at h
    simp only [Memory.writeRun]
    rw [ih _ (by omega), Memory.read_write_other (by omega)]

/-- What a run of writes leaves at each of its indices. -/
theorem Memory.read_writeRun_at {i k : Nat} (vs : List α) (m : Memory α) (h : k < vs.length) :
    Memory.read (i + k) (Memory.writeRun i vs m) = vs[k]? := by
  induction vs generalizing i k m with
  | nil => simp at h
  | cons v rest ih =>
    simp only [Memory.writeRun]
    cases k with
    | zero => simpa using Memory.read_writeRun_below rest (Memory.write i v m) (Nat.lt_succ_self i)
    | succ k =>
      have h' : k < rest.length := by simpa using h
      have := ih (i := i + 1) (Memory.write i v m) h'
      rw [show i + (k + 1) = i + 1 + k by omega, this]
      simp

theorem Memory.wf_writeRun (i : Nat) (vs : List α) {m : Memory α} (h : Memory.wf m = true) :
    Memory.wf (Memory.writeRun i vs m) = true := by
  induction vs generalizing i m with
  | nil => exact h
  | cons v rest ih => exact ih (i + 1) (Memory.wf_write i v h)

theorem Memory.within_writeRun {i cap : Nat} (vs : List α) {m : Memory α} (hi : i + vs.length ≤ cap)
    (h : Memory.within m cap) : Memory.within (Memory.writeRun i vs m) cap := by
  induction vs generalizing i m with
  | nil => exact h
  | cons v rest ih =>
    simp only [List.length_cons] at hi
    exact ih (by omega) (Memory.within_write v (by omega) h)

/-- A run of writes from 0 fills the indices it writes. -/
theorem Memory.filled_writeRun (vs : List α) (m : Memory α) : Memory.filled (Memory.writeRun 0 vs m) vs.length := by
  intro k hk
  have := Memory.read_writeRun_at (i := 0) vs m hk
  rw [Nat.zero_add] at this
  simp [this, hk]

/-- A run of reads over filled indices answers their values. -/
theorem Memory.readRun_of_reads {m : Memory α} (vs : List α) (i : Nat)
    (h : ∀ k < vs.length, Memory.read (i + k) m = vs[k]?) : Memory.readRun m i vs.length = .ok vs := by
  induction vs generalizing i with
  | nil => rfl
  | cons v rest ih =>
    have h0 := h 0 (by simp)
    have hr : Memory.readRun m (i + 1) rest.length = .ok rest := by
      apply ih
      intro k hk
      have := h (k + 1) (by simpa using hk)
      rw [show i + 1 + k = i + (k + 1) by omega, this]
      simp
    simp only [Nat.add_zero, List.getElem?_cons_zero] at h0
    simp [Memory.readRun, h0, hr]

/-- All that a run of reads can do: as many values as indices, each the one read there, or the first index without one. -/
theorem Memory.readRun_cases (m : Memory α) (i n : Nat) :
    (∃ vs, Memory.readRun m i n = .ok vs ∧ vs.length = n ∧ ∀ k < n, Memory.read (i + k) m = vs[k]?)
      ∨ ∃ k < n, Memory.readRun m i n = .error (i + k) ∧ Memory.read (i + k) m = none := by
  induction n generalizing i with
  | zero => exact .inl ⟨[], rfl, rfl, by simp⟩
  | succ n ih =>
    cases hr : Memory.read i m with
    | none => exact .inr ⟨0, by omega, by simp [Memory.readRun, hr], hr⟩
    | some v =>
      rcases ih (i + 1) with ⟨vs, h1, h2, h3⟩ | ⟨k, hk, h1, h2⟩
      · refine .inl ⟨v :: vs, by simp [Memory.readRun, hr, h1], by simp [h2], ?_⟩
        intro k hk
        cases k with
        | zero => simpa using hr
        | succ k =>
          have := h3 k (by omega)
          rw [show i + (k + 1) = i + 1 + k by omega, this]
          simp
      · refine .inr ⟨k + 1, by omega, ?_, ?_⟩
        · simp [Memory.readRun, hr, h1]
          omega
        · rw [← h2]
          congr 1
          omega

/-- Filled indices can be read. -/
theorem Memory.readRun_filled {m : Memory α} {n : Nat} (h : Memory.filled m n) :
    ∃ vs, Memory.readRun m 0 n = .ok vs ∧ vs.length = n := by
  rcases Memory.readRun_cases m 0 n with ⟨vs, h1, h2, _⟩ | ⟨k, hk, _, h2⟩
  · exact ⟨vs, h1, h2⟩
  · have := h k hk
    rw [Nat.zero_add] at h2
    simp [h2] at this

/-! ### Reset -/

/-- Right after reset both arrays are in canonical form and list nothing. -/
theorem State.reset_memory_wf (c : Config) :
    Memory.wf (State.resetWith c).dec.acc = true ∧ Memory.wf (State.resetWith c).enc.ub = true := ⟨rfl, rfl⟩

end Sys2Proof.Machine
end

