-- ==== Sys2Proof/Laws/State.lean ====
section
/-! SUPPORT. One lemma per field per update, so that no later proof unfolds a record update. -/

namespace Sys2Proof.Machine

/-! ### `consume` (41_pulse_buffer R121) -/

@[simp] theorem consume_engState (k : Nat) (d : DecoderState) : (consume k d).engState = d.engState := rfl
@[simp] theorem consume_pb (k : Nat) (d : DecoderState) : (consume k d).pb = d.pb.drop k := rfl
@[simp] theorem consume_acc (k : Nat) (d : DecoderState) : (consume k d).acc = d.acc := rfl
@[simp] theorem consume_accCount (k : Nat) (d : DecoderState) : (consume k d).accCount = d.accCount := rfl
@[simp] theorem consume_sd (k : Nat) (d : DecoderState) : (consume k d).sd = d.sd := rfl
@[simp] theorem consume_lastLevel (k : Nat) (d : DecoderState) : (consume k d).lastLevel = d.lastLevel := rfl
@[simp] theorem consume_lastMsg (k : Nat) (d : DecoderState) : (consume k d).lastMsg = d.lastMsg := rfl

/-! ### `pbClr` (41_pulse_buffer R122) -/

@[simp] theorem pbClr_engState (d : DecoderState) : (pbClr d).engState = d.engState := rfl
@[simp] theorem pbClr_pb (d : DecoderState) : (pbClr d).pb = [] := rfl
@[simp] theorem pbClr_acc (d : DecoderState) : (pbClr d).acc = d.acc := rfl
@[simp] theorem pbClr_accCount (d : DecoderState) : (pbClr d).accCount = d.accCount := rfl
@[simp] theorem pbClr_sd (d : DecoderState) : (pbClr d).sd = d.sd := rfl
@[simp] theorem pbClr_lastLevel (d : DecoderState) : (pbClr d).lastLevel = d.lastLevel := rfl
@[simp] theorem pbClr_lastMsg (d : DecoderState) : (pbClr d).lastMsg = d.lastMsg := rfl

/-! ### `aClr` (45_bit_accumulator R190) -/

@[simp] theorem aClr_engState (d : DecoderState) : (aClr d).engState = d.engState := rfl
@[simp] theorem aClr_pb (d : DecoderState) : (aClr d).pb = d.pb := rfl
@[simp] theorem aClr_acc (d : DecoderState) : (aClr d).acc = d.acc := rfl
@[simp] theorem aClr_accCount (d : DecoderState) : (aClr d).accCount = 0 := rfl
@[simp] theorem aClr_sd (d : DecoderState) : (aClr d).sd = d.sd := rfl
@[simp] theorem aClr_lastLevel (d : DecoderState) : (aClr d).lastLevel = d.lastLevel := rfl
@[simp] theorem aClr_lastMsg (d : DecoderState) : (aClr d).lastMsg = d.lastMsg := rfl

/-! ### `sRst` (43_decode_engine R142) -/

@[simp] theorem sRst_engState (d : DecoderState) : (sRst d).engState = .waitPreamble := rfl
@[simp] theorem sRst_pb (d : DecoderState) : (sRst d).pb = d.pb := rfl
@[simp] theorem sRst_acc (d : DecoderState) : (sRst d).acc = d.acc := rfl
@[simp] theorem sRst_accCount (d : DecoderState) : (sRst d).accCount = 0 := rfl
@[simp] theorem sRst_sd (d : DecoderState) : (sRst d).sd = false := rfl
@[simp] theorem sRst_lastLevel (d : DecoderState) : (sRst d).lastLevel = d.lastLevel := rfl
@[simp] theorem sRst_lastMsg (d : DecoderState) : (sRst d).lastMsg = d.lastMsg := rfl

/-! ### `fRst` (43_decode_engine R141) -/

@[simp] theorem fRst_engState (d : DecoderState) : (fRst d).engState = .waitPreamble := rfl
@[simp] theorem fRst_pb (d : DecoderState) : (fRst d).pb = [] := rfl
@[simp] theorem fRst_acc (d : DecoderState) : (fRst d).acc = d.acc := rfl
@[simp] theorem fRst_accCount (d : DecoderState) : (fRst d).accCount = 0 := rfl
@[simp] theorem fRst_sd (d : DecoderState) : (fRst d).sd = false := rfl
@[simp] theorem fRst_lastLevel (d : DecoderState) : (fRst d).lastLevel = d.lastLevel := rfl
@[simp] theorem fRst_lastMsg (d : DecoderState) : (fRst d).lastMsg = d.lastMsg := rfl

/-! ### `dRst` (43_decode_engine R148) -/

@[simp] theorem dRst_engState (d : DecoderState) : (dRst d).engState = .waitPreamble := rfl
@[simp] theorem dRst_pb (d : DecoderState) : (dRst d).pb = [] := rfl
@[simp] theorem dRst_acc (d : DecoderState) : (dRst d).acc = d.acc := rfl
@[simp] theorem dRst_accCount (d : DecoderState) : (dRst d).accCount = 0 := rfl
@[simp] theorem dRst_sd (d : DecoderState) : (dRst d).sd = false := rfl
@[simp] theorem dRst_lastLevel (d : DecoderState) : (dRst d).lastLevel = .mark := rfl
@[simp] theorem dRst_lastMsg (d : DecoderState) : (dRst d).lastMsg = ⟨0, 0, 0, false⟩ := rfl

/-! ### `decodeError` (43_decode_engine R145) -/

@[simp] theorem decodeError_engState (d : DecoderState) : (decodeError d).engState = .waitPreamble := rfl
@[simp] theorem decodeError_pb (d : DecoderState) : (decodeError d).pb = d.pb.drop 1 := rfl
@[simp] theorem decodeError_acc (d : DecoderState) : (decodeError d).acc = d.acc := rfl
@[simp] theorem decodeError_accCount (d : DecoderState) : (decodeError d).accCount = 0 := rfl
@[simp] theorem decodeError_sd (d : DecoderState) : (decodeError d).sd = false := rfl
@[simp] theorem decodeError_lastLevel (d : DecoderState) : (decodeError d).lastLevel = d.lastLevel := rfl
@[simp] theorem decodeError_lastMsg (d : DecoderState) : (decodeError d).lastMsg = d.lastMsg := rfl

/-! ### `respond` (00_scope R13) -/

@[simp] theorem respond_cfg (r : Response) (s : State) : (respond r s).cfg = s.cfg := rfl
@[simp] theorem respond_dec (r : Response) (s : State) : (respond r s).dec = s.dec := rfl
@[simp] theorem respond_cus (r : Response) (s : State) : (respond r s).cus = s.cus := rfl
@[simp] theorem respond_enc (r : Response) (s : State) : (respond r s).enc = s.enc := rfl
@[simp] theorem respond_fault (r : Response) (s : State) : (respond r s).fault = s.fault := rfl
@[simp] theorem respond_inbox (r : Response) (s : State) : (respond r s).inbox = s.inbox := rfl
@[simp] theorem respond_rsp (r : Response) (s : State) : (respond r s).rsp = some (responseWord r) := rfl
@[simp] theorem respond_ret (r : Response) (s : State) : (respond r s).ret = s.ret := rfl

/-! ### `raiseFault` (60_exceptions R243, R248) -/

@[simp] theorem raiseFault_cfg (cause : Cause) (s : State) : (raiseFault cause s).cfg = s.cfg := rfl
@[simp] theorem raiseFault_dec (cause : Cause) (s : State) : (raiseFault cause s).dec = s.dec := rfl
@[simp] theorem raiseFault_cus (cause : Cause) (s : State) : (raiseFault cause s).cus = s.cus := rfl
@[simp] theorem raiseFault_enc (cause : Cause) (s : State) : (raiseFault cause s).enc = s.enc := rfl
@[simp] theorem raiseFault_fault (cause : Cause) (s : State) : (raiseFault cause s).fault = s.fault ||| causeBit cause := rfl
@[simp] theorem raiseFault_inbox (cause : Cause) (s : State) : (raiseFault cause s).inbox = s.inbox := rfl
@[simp] theorem raiseFault_rsp (cause : Cause) (s : State) : (raiseFault cause s).rsp = s.rsp := rfl
@[simp] theorem raiseFault_ret (cause : Cause) (s : State) : (raiseFault cause s).ret = s.ret := rfl

/-! ### `answerFaulted` (60_exceptions R243) -/

@[simp] theorem answerFaulted_cfg (s : State) : (answerFaulted s).cfg = s.cfg := rfl
@[simp] theorem answerFaulted_dec (s : State) : (answerFaulted s).dec = s.dec := rfl
@[simp] theorem answerFaulted_cus (s : State) : (answerFaulted s).cus = s.cus := rfl
@[simp] theorem answerFaulted_enc (s : State) : (answerFaulted s).enc = s.enc := rfl
@[simp] theorem answerFaulted_fault (s : State) : (answerFaulted s).fault = s.fault := rfl
@[simp] theorem answerFaulted_inbox (s : State) : (answerFaulted s).inbox = s.inbox := rfl
@[simp] theorem answerFaulted_rsp (s : State) : (answerFaulted s).rsp = some (responseWord (.faulted s.fault)) := rfl
@[simp] theorem answerFaulted_ret (s : State) : (answerFaulted s).ret = s.ret := rfl

/-! ### `hardReset` (70_reset R260) -/

@[simp] theorem hardReset_cfg (s : State) : (hardReset s).cfg = s.cfg := rfl
@[simp] theorem hardReset_dec (s : State) : (hardReset s).dec = DecoderState.initial := rfl
@[simp] theorem hardReset_cus (s : State) : (hardReset s).cus = CustomState.initial := rfl
@[simp] theorem hardReset_enc (s : State) : (hardReset s).enc = EncoderState.initial := rfl
@[simp] theorem hardReset_fault (s : State) : (hardReset s).fault = 0 := rfl
@[simp] theorem hardReset_inbox (s : State) : (hardReset s).inbox = s.inbox := rfl
@[simp] theorem hardReset_rsp (s : State) : (hardReset s).rsp = none := rfl
@[simp] theorem hardReset_ret (s : State) : (hardReset s).ret = .nothing := rfl

/-! ### `present` (00_scope R14) -/

@[simp] theorem present_cfg (e : Event) (s : State) : (present e s).cfg = s.cfg := rfl
@[simp] theorem present_dec (e : Event) (s : State) : (present e s).dec = s.dec := rfl
@[simp] theorem present_cus (e : Event) (s : State) : (present e s).cus = s.cus := rfl
@[simp] theorem present_enc (e : Event) (s : State) : (present e s).enc = s.enc := rfl
@[simp] theorem present_fault (e : Event) (s : State) : (present e s).fault = s.fault := rfl
@[simp] theorem present_inbox (e : Event) (s : State) : (present e s).inbox = e :: s.inbox := rfl
@[simp] theorem present_rsp (e : Event) (s : State) : (present e s).rsp = s.rsp := rfl
@[simp] theorem present_ret (e : Event) (s : State) : (present e s).ret = s.ret := rfl

/-! ### `toIdle` (46_custom_fsm R202) -/

@[simp] theorem toIdle_cState (m : CustomState) : (toIdle m).cState = .idle := rfl
@[simp] theorem toIdle_cLast (m : CustomState) : (toIdle m).cLast = m.cLast := rfl
@[simp] theorem toIdle_cHdr (m : CustomState) : (toIdle m).cHdr = m.cHdr := rfl
@[simp] theorem toIdle_cCode (m : CustomState) : (toIdle m).cCode = m.cCode := rfl
@[simp] theorem toIdle_cBits (m : CustomState) : (toIdle m).cBits = m.cBits := rfl
@[simp] theorem toIdle_cLastCode (m : CustomState) : (toIdle m).cLastCode = m.cLastCode := rfl
@[simp] theorem toIdle_cLastBits (m : CustomState) : (toIdle m).cLastBits = m.cLastBits := rfl

/-! ### `cBit` (46_custom_fsm R205) -/

@[simp] theorem cBit_cState (bit : Bool) (m : CustomState) : (cBit bit m).cState = m.cState := rfl
@[simp] theorem cBit_cLast (bit : Bool) (m : CustomState) : (cBit bit m).cLast = m.cLast := rfl
@[simp] theorem cBit_cHdr (bit : Bool) (m : CustomState) : (cBit bit m).cHdr = m.cHdr := rfl
@[simp] theorem cBit_cCode (bit : Bool) (m : CustomState) : (cBit bit m).cCode = (m.cCode <<< 1) ||| (BitVec.ofBool bit).setWidth 64 := rfl
@[simp] theorem cBit_cBits (bit : Bool) (m : CustomState) : (cBit bit m).cBits = bumpBits m.cCode bit m.cBits := rfl
@[simp] theorem cBit_cLastCode (bit : Bool) (m : CustomState) : (cBit bit m).cLastCode = m.cLastCode := rfl
@[simp] theorem cBit_cLastBits (bit : Bool) (m : CustomState) : (cBit bit m).cLastBits = m.cLastBits := rfl

/-! ### `eRst` (47_waveform_encoder R225) -/

@[simp] theorem eRst_ub (e : EncoderState) : (eRst e).ub = e.ub := rfl
@[simp] theorem eRst_encWr (e : EncoderState) : (eRst e).encWr = 0 := rfl
@[simp] theorem eRst_encRd (e : EncoderState) : (eRst e).encRd = 0 := rfl

/-! ### `eFill` (47_waveform_encoder R222) -/

@[simp] theorem eFill_ub (q : CustomDescriptor) (code : BitVec 64) (n : Nat) (e : EncoderState) : (eFill q code n e).ub = Memory.writeRun 0 (waveform q code n) e.ub := rfl
@[simp] theorem eFill_encWr (q : CustomDescriptor) (code : BitVec 64) (n : Nat) (e : EncoderState) : (eFill q code n e).encWr = (waveform q code n).length := rfl
@[simp] theorem eFill_encRd (q : CustomDescriptor) (code : BitVec 64) (n : Nat) (e : EncoderState) : (eFill q code n e).encRd = 0 := rfl

/-! ### Lengths -/

@[simp] theorem pbLen_consume (k : Nat) (d : DecoderState) : (consume k d).pbLen = d.pbLen - k := by
  simp [DecoderState.pbLen]

@[simp] theorem pbLen_pbClr (d : DecoderState) : (pbClr d).pbLen = 0 := rfl
@[simp] theorem pbLen_aClr (d : DecoderState) : (aClr d).pbLen = d.pbLen := rfl
@[simp] theorem pbLen_sRst (d : DecoderState) : (sRst d).pbLen = d.pbLen := rfl
@[simp] theorem pbLen_fRst (d : DecoderState) : (fRst d).pbLen = 0 := rfl

end Sys2Proof.Machine
end

