-- ==== Sys2Proof/Laws/Ops.lean ====
section
/-! SUPPORT. What each shared operation can do, said once: sequencing, halting, the ends of commands and of lone calls. -/

namespace Sys2Proof.Machine

variable {α β : Type}

/-! ### `UnitFlow.bind` -/

@[simp] theorem UnitFlow.bind_ret (a : α) (d : DecoderState) (k : α → DecoderState → UnitFlow β) :
    (UnitFlow.ret a d).bind k = k a d := rfl

@[simp] theorem UnitFlow.bind_raised (c : Cause) (d : DecoderState) (k : α → DecoderState → UnitFlow β) :
    (UnitFlow.raised c d : UnitFlow α).bind k = .raised c d := rfl

@[simp] theorem UnitFlow.bind_fault (f : Fault) (k : α → DecoderState → UnitFlow β) :
    (UnitFlow.fault f : UnitFlow α).bind k = .fault f := rfl

@[simp] theorem UnitFlow.bind_refused (r : Refusal) (k : α → DecoderState → UnitFlow β) :
    (UnitFlow.refused r : UnitFlow α).bind k = .refused r := rfl

/-- A sequence that returns a value went through its first part. -/
theorem UnitFlow.bind_eq_ret {x : UnitFlow α} {k : α → DecoderState → UnitFlow β} {b : β} {d' : DecoderState} :
    x.bind k = .ret b d' ↔ ∃ a d, x = .ret a d ∧ k a d = .ret b d' := by
  cases x <;> simp [UnitFlow.bind]

/-- A sequence that raises a fault raised it in its first part or in its second. -/
theorem UnitFlow.bind_eq_raised {x : UnitFlow α} {k : α → DecoderState → UnitFlow β} {c : Cause} {d' : DecoderState} :
    x.bind k = .raised c d' ↔ x = .raised c d' ∨ ∃ a d, x = .ret a d ∧ k a d = .raised c d' := by
  cases x <;> simp [UnitFlow.bind]

/-- `P` holds of the decoder that a unit operation leaves, whether it returns or raises. -/
def UnitFlow.Leaves (P : DecoderState → Prop) : UnitFlow α → Prop
  | .ret _ d => P d
  | .raised _ d => P d
  | .fault _ => True
  | .refused _ => True

theorem UnitFlow.Leaves.bind {P : DecoderState → Prop} {x : UnitFlow α} {k : α → DecoderState → UnitFlow β} (hx : x.Leaves P)
    (hk : ∀ a d, P d → (k a d).Leaves P) : (x.bind k).Leaves P := by
  cases x with
  | ret a d => exact hk a d hx
  | raised c d => exact hx
  | fault f => trivial
  | refused r => trivial

theorem UnitFlow.Leaves.mono {P Q : DecoderState → Prop} {x : UnitFlow α} (hx : x.Leaves P) (h : ∀ d, P d → Q d) :
    x.Leaves Q := by
  cases x with
  | ret a d => exact h d hx
  | raised c d => exact h d hx
  | fault f => trivial
  | refused r => trivial

/-! ### Commands and lone calls -/

theorem command_running {s : State} (h : s.fault = 0) (body : Out) : command s body = body := if_pos h

theorem command_halted {s : State} (h : s.fault ≠ 0) (body : Out) : command s body = .next (answerFaulted s) := if_neg h

theorem microCall_running {s : State} (h : s.fault = 0) (body : Out) : microCall s body = body := if_pos h

theorem microCall_halted {s : State} (h : s.fault ≠ 0) (body : Out) : microCall s body = .next s := if_neg h

/-- All that a command can do: run, or be answered `FAULTED` with nothing changed (60_exceptions R243). -/
theorem command_next {s t : State} {body : Out} (h : command s body = .next t) :
    (s.fault = 0 ∧ body = .next t) ∨ (s.fault ≠ 0 ∧ t = answerFaulted s) := by
  unfold command at h
  split at h
  · exact .inl ⟨‹_›, h⟩
  · exact .inr ⟨‹_›, by injection h with h; exact h.symm⟩

/-- All that a lone micro-operation call can do: run, or nothing on a halted block. -/
theorem microCall_next {s t : State} {body : Out} (h : microCall s body = .next t) :
    (s.fault = 0 ∧ body = .next t) ∨ (s.fault ≠ 0 ∧ t = s) := by
  unfold microCall at h
  split at h
  · exact .inl ⟨‹_›, h⟩
  · exact .inr ⟨‹_›, by injection h with h; exact h.symm⟩

/-- All that the end of an `EDGE` can do (43_decode_engine R140, 60_exceptions R243). -/
theorem finishEdge_next {s t : State} {x : UnitFlow (Option Message)} (h : finishEdge s x = .next t) :
    (∃ m d, x = .ret m d ∧ t = respond (edgeResponse m) { s with dec := d })
      ∨ ∃ c d, x = .raised c d ∧ t = answerFaulted (raiseFault c { s with dec := d }) := by
  cases x with
  | ret m d => exact .inl ⟨m, d, rfl, by injection h with h; exact h.symm⟩
  | raised c d => exact .inr ⟨c, d, rfl, by injection h with h; exact h.symm⟩
  | fault f => exact absurd h (by simp [finishEdge])
  | refused r => exact absurd h (by simp [finishEdge])

/-- All that the end of a lone call can do. -/
theorem finishCall_next {s t : State} {value : α → ReturnValue} {x : UnitFlow α} (h : finishCall s value x = .next t) :
    (∃ a d, x = .ret a d ∧ t = { s with dec := d, ret := value a })
      ∨ ∃ c d, x = .raised c d ∧ t = { raiseFault c { s with dec := d } with ret := .raised } := by
  cases x with
  | ret a d => exact .inl ⟨a, d, rfl, by injection h with h; exact h.symm⟩
  | raised c d => exact .inr ⟨c, d, rfl, by injection h with h; exact h.symm⟩
  | fault f => exact absurd h (by simp [finishCall])
  | refused r => exact absurd h (by simp [finishCall])

/-! ### The step -/

/-- All that a step can do (00_scope R14): nothing, a hardware reset, a word, or a lone call. -/
theorem step_next {s t : State} (h : step s = .next t) :
    s.cfg.wf = true ∧
      ((s.inbox = [] ∧ t = s)
        ∨ (∃ rest, s.inbox = .reset :: rest ∧ t = hardReset { s with inbox := rest })
        ∨ (∃ w rest i, s.inbox = .command w :: rest ∧ decodeWord w = .ok i ∧ exec i { s with inbox := rest } = .next t)
        ∨ (∃ w rest e, s.inbox = .command w :: rest ∧ decodeWord w = .error e
            ∧ t = answerIllegal { s with inbox := rest })
        ∨ (∃ c rest i, s.inbox = .call c :: rest ∧ decodeCall c = .ok i ∧ exec i { s with inbox := rest } = .next t)) := by
  unfold step takeEvent at h
  split at h
  · refine ⟨‹_›, ?_⟩
    split at h
    · rename_i he
      exact .inl ⟨he, by injection h with h; exact h.symm⟩
    · rename_i e rest he
      cases e with
      | reset => exact .inr (.inl ⟨rest, he, by injection h with h; exact h.symm⟩)
      | command w =>
        simp only [runEvent, runCommandWord] at h
        cases hd : decodeWord w with
        | ok i => exact .inr (.inr (.inl ⟨w, rest, i, he, hd, by simpa [hd] using h⟩))
        | error e =>
          rw [hd] at h
          exact .inr (.inr (.inr (.inl ⟨w, rest, e, he, hd, by injection h with h; exact h.symm⟩)))
      | call c =>
        simp only [runEvent, runCall] at h
        cases hd : decodeCall c with
        | ok i => exact .inr (.inr (.inr (.inr ⟨c, rest, i, he, hd, by simpa [hd] using h⟩)))
        | error e =>
          rw [hd] at h
          exact absurd h (by simp)
  · exact absurd h (by simp)

end Sys2Proof.Machine
end

