-- ==== Sys2Proof/Laws/PerInstr.lean ====
section
/-! SUPPORT. What is shown of every instruction, one lemma per constructor. -/

namespace Sys2Proof.Laws.OpcodeByte

/-- The opcode byte or identifier of what is presented to the block (30_encoding R80, R91). -/
def identifier : Event → BitVec 8
  | .command w => opField w
  | .call c => c.id
  | .reset => 0

/-- The value that opcode_table.json gives the instruction's row (30_encoding R86, R91). -/
def tableValue : Instr → BitVec 8
  | .drst => 0x01#8
  | .edge _ _ => 0x02#8
  | .crst => 0x03#8
  | .cedge _ _ => 0x04#8
  | .erst => 0x05#8
  | .enc _ _ => 0x06#8
  | .next => 0x07#8
  | .matchOp _ _ _ => 0x80#8
  | .pbpush _ _ => 0x88#8
  | .pbcons _ => 0x89#8
  | .pbclr => 0x8A#8
  | .pblvl => 0x8B#8
  | .prdet => 0x90#8
  | .frst => 0x98#8
  | .srst => 0x99#8
  | .erun => 0x9A#8
  | .dmpd => 0xA0#8
  | .dmpw => 0xA1#8
  | .dmman => 0xA2#8
  | .dmrpt => 0xA3#8
  | .aclr => 0xA8#8
  | .apush _ => 0xA9#8
  | .cbit _ => 0xB0#8
  | .efill _ _ => 0xB8#8

/-- A command is exactly what has bit 7 of its table value clear (30_encoding R91). -/
theorem isCommand_eq (i : Instr) : i.isCommand = !(tableValue i).getLsbD 7 := by
  cases i <;> simp [Instr.isCommand, tableValue]

/-- The encoder puts the table's value into the opcode field, and a command is exactly what has bit 7 of it clear
(30_encoding R91). -/
def Statement (i : Instr) : Prop :=
  identifier (encode i) = tableValue i ∧ (i.isCommand = !(tableValue i).getLsbD 7)

theorem drst : Statement .drst := ⟨opField_encodeFormatZ _, isCommand_eq _⟩
theorem edge (level : Level) (duration : Dur) : Statement (.edge level duration) := ⟨opField_encodeFormatS _ _ _, isCommand_eq _⟩
theorem crst : Statement .crst := ⟨opField_encodeFormatZ _, isCommand_eq _⟩
theorem cedge (level : Level) (duration : Dur) : Statement (.cedge level duration) := ⟨opField_encodeFormatS _ _ _, isCommand_eq _⟩
theorem erst : Statement .erst := ⟨opField_encodeFormatZ _, isCommand_eq _⟩
theorem enc (code : BitVec 64) (bitCount : BitVec 8) : Statement (.enc code bitCount) := ⟨opField_encodeFormatK _ _ _, isCommand_eq _⟩
theorem next : Statement .next := ⟨opField_encodeFormatZ _, isCommand_eq _⟩
theorem matchOp (measured : Dur) (expected : Nat) (tolerance : Dur) : Statement (.matchOp measured expected tolerance) := ⟨rfl, isCommand_eq _⟩
theorem pbpush (level : Level) (duration : Dur) : Statement (.pbpush level duration) := ⟨rfl, isCommand_eq _⟩
theorem pbcons (k : Nat) : Statement (.pbcons k) := ⟨rfl, isCommand_eq _⟩
theorem pbclr : Statement .pbclr := ⟨rfl, isCommand_eq _⟩
theorem pblvl : Statement .pblvl := ⟨rfl, isCommand_eq _⟩
theorem prdet : Statement .prdet := ⟨rfl, isCommand_eq _⟩
theorem frst : Statement .frst := ⟨rfl, isCommand_eq _⟩
theorem srst : Statement .srst := ⟨rfl, isCommand_eq _⟩
theorem erun : Statement .erun := ⟨rfl, isCommand_eq _⟩
theorem dmpd : Statement .dmpd := ⟨rfl, isCommand_eq _⟩
theorem dmpw : Statement .dmpw := ⟨rfl, isCommand_eq _⟩
theorem dmman : Statement .dmman := ⟨rfl, isCommand_eq _⟩
theorem dmrpt : Statement .dmrpt := ⟨rfl, isCommand_eq _⟩
theorem aclr : Statement .aclr := ⟨rfl, isCommand_eq _⟩
theorem apush (bit : Bool) : Statement (.apush bit) := ⟨rfl, isCommand_eq _⟩
theorem cbit (bit : Bool) : Statement (.cbit bit) := ⟨rfl, isCommand_eq _⟩
theorem efill (code : BitVec 64) (bitCount : BitVec 8) : Statement (.efill code bitCount) := ⟨rfl, isCommand_eq _⟩

end Sys2Proof.Laws.OpcodeByte
end

