-- ==== Sys2Proof/Laws/Units.lean ====
section
/-! SUPPORT. What each unit operation of the generic decoder can do, and what it leaves alone. -/

namespace Sys2Proof.Machine

/-! ### The matcher -/

/-- The window in integers (40_tolerance_matcher R110). -/
theorem windowMatch_iff (m e t : Nat) : windowMatch m e t = true ↔ |(m : Int) - (e : Int)| < (t : Int) := by
  rw [windowMatch, decide_eq_true_iff, absDiff]
  split_ifs with h
  · rw [abs_of_nonneg (by omega)]
    omega
  · rw [abs_of_nonpos (by omega)]
    omega

/-- The window as two strict bounds. -/
theorem windowMatch_bounds (m e t : Nat) : windowMatch m e t = true ↔ m < e + t ∧ e < m + t := by
  rw [windowMatch, decide_eq_true_iff, absDiff]
  split_ifs with h
  · omega
  · omega

/-! ### The pulse buffer -/

/-- All that `PBPUSH` can do (41_pulse_buffer R120). -/
theorem pbPush_cases (c : Config) (l : Level) (t : Dur) (d : DecoderState) :
    (c.pbCap ≤ d.pbLen ∧ pbPush c l t d = .raised .pbOvf d)
      ∨ (d.pbLen < c.pbCap ∧ pbPush c l t d = .ret () { d with pb := d.pb ++ [⟨l, t⟩] }) := by
  unfold pbPush
  split
  · exact .inl ⟨‹_›, rfl⟩
  · exact .inr ⟨by omega, rfl⟩

/-- All that `PBCONS` can do (41_pulse_buffer R121). -/
theorem pbCons_cases (k : Nat) (d : DecoderState) :
    (k ≤ d.pbLen ∧ pbCons k d = .ret () (consume k d))
      ∨ (d.pbLen < k ∧ pbCons k d = .refused (.consumeBeyondLength k d.pbLen)) := by
  unfold pbCons
  split
  · exact .inl ⟨‹_›, rfl⟩
  · exact .inr ⟨by omega, rfl⟩

/-! ### The accumulator -/

/-- All that `APUSH` can do (45_bit_accumulator R191). -/
theorem aPush_cases (c : Config) (b : Bool) (d : DecoderState) :
    (8 * c.accBytes ≤ d.accCount ∧ aPush c b d = .raised .accOvf d)
      ∨ (d.accCount < 8 * c.accBytes ∧ accByte d = none
        ∧ aPush c b d = .fault (.unspecifiedEntry .acc (d.accCount / 8)))
      ∨ ∃ v, d.accCount < 8 * c.accBytes ∧ accByte d = some v
        ∧ aPush c b d = .ret () { d with
            acc := Memory.write (d.accCount / 8) (orBit v b (d.accCount % 8)) d.acc
            accCount := d.accCount + 1 } := by
  unfold aPush
  split
  · exact .inl ⟨‹_›, rfl⟩
  · cases h : accByte d with
    | none => exact .inr (.inl ⟨by omega, rfl, rfl⟩)
    | some v => exact .inr (.inr ⟨v, by omega, rfl, rfl⟩)

/-- The bits of a byte after one bit is OR'd in. -/
theorem orBit_getLsbD (v : Byte) (b : Bool) (sh k : Nat) (hk : k < 8) :
    (orBit v b sh).getLsbD k = (v.getLsbD k || (decide (k = sh) && b)) := by
  simp only [orBit, BitVec.getLsbD_or, BitVec.getLsbD_shiftLeft, BitVec.getLsbD_setWidth, BitVec.getLsbD_ofBool]
  by_cases h : k = sh
  · subst h
    simp [hk]
  · by_cases h2 : k < sh
    · simp [h, h2]
    · have : k - sh ≠ 0 := by omega
      simp [h, this]

/-- A push inside the declared length completes and keeps the accumulator's invariant (44_demodulators R162). -/
theorem aPush_keeps {c : Config} {d : DecoderState} (b : Bool) (hw : c.p.bitLength ≤ 8 * c.accBytes)
    (hd : AccumulatorInv c d) (hlt : d.accCount < c.p.bitLength) :
    ∃ d', aPush c b d = .ret () d' ∧ AccumulatorInv c d'
      ∧ d' = { d with acc := d'.acc, accCount := d.accCount + 1 } := by
  obtain ⟨_, hwf, hin, hfill, hclr⟩ := hd
  have hread : d.accCount % 8 ≠ 0 → ∃ v, Memory.read (d.accCount / 8) d.acc = some v := by
    intro h
    exact Option.isSome_iff_exists.mp (hfill _ (by simp only [viewBytes]; omega))
  have hbyte : ∃ v, accByte d = some v ∧ v >>> (d.accCount % 8) = 0 := by
    unfold accByte
    split
    · exact ⟨0, rfl, by simp⟩
    · obtain ⟨v, hv⟩ := hread ‹_›
      have hz := hclr ‹_›
      rw [hv] at hz
      exact ⟨v, hv, by simpa using hz⟩
  obtain ⟨v, hv, hz⟩ := hbyte
  rcases aPush_cases c b d with ⟨h, _⟩ | ⟨_, h, _⟩ | ⟨v', _, hv', h⟩
  · omega
  · rw [hv] at h
    cases h
  · rw [hv] at hv'
    cases hv'
    refine ⟨_, h, ⟨hlt, Memory.wf_write _ _ hwf, Memory.within_write _ (by omega) hin, ?_, ?_⟩, rfl⟩
    · apply Memory.filled_write
      intro j hj hne
      apply hfill
      simp only [viewBytes] at hj ⊢
      omega
    · intro hne
      have hdiv : (d.accCount + 1) / 8 = d.accCount / 8 := by
        dsimp only at hne
        omega
      dsimp only
      rw [hdiv, Memory.read_write_same]
      simp only [Option.getD_some]
      apply BitVec.eq_of_getLsbD_eq
      intro i _
      rw [BitVec.getLsbD_ushiftRight, show (0 : Byte).getLsbD i = false by simp]
      by_cases hi : (d.accCount + 1) % 8 + i < 8
      · rw [orBit_getLsbD _ _ _ _ hi]
        have hvz : v.getLsbD ((d.accCount + 1) % 8 + i) = false := by
          have := congrArg (fun x : Byte => x.getLsbD ((d.accCount + 1) % 8 + i - d.accCount % 8)) hz
          simp only [BitVec.getLsbD_ushiftRight] at this
          rw [show d.accCount % 8 + ((d.accCount + 1) % 8 + i - d.accCount % 8) = (d.accCount + 1) % 8 + i by
            dsimp only at hne
            omega] at this
          simpa using this
        have : (d.accCount + 1) % 8 + i ≠ d.accCount % 8 := by
          dsimp only at hne
          omega
        simp [hvz, this]
      · exact BitVec.getLsbD_of_ge _ _ (by omega)

/-- What a push leaves alone, whether it returns or raises. -/
theorem aPush_leaves (c : Config) (b : Bool) (d : DecoderState) :
    (aPush c b d).Leaves (fun d' => d' = { d with acc := d'.acc, accCount := d'.accCount }) := by
  rcases aPush_cases c b d with ⟨_, h⟩ | ⟨_, _, h⟩ | ⟨v, _, _, h⟩ <;> rw [h]
  · rfl
  · trivial
  · rfl

/-! ### The preamble detector -/

/-- `PRDET` changes the buffer only, and only by consuming from its front (42_preamble_detector R130). -/
theorem scanPairs_frame (p : GenericDescriptor) (n : Nat) (d : DecoderState) :
    (scanPairs p n d).2 = { d with pb := (scanPairs p n d).2.pb } ∧ (scanPairs p n d).2.pb <:+ d.pb := by
  induction n generalizing d with
  | zero => exact ⟨rfl, List.suffix_refl _⟩
  | succ n ih =>
    simp only [scanPairs]
    split
    · split
      · exact ⟨rfl, List.drop_suffix _ _⟩
      · obtain ⟨h1, h2⟩ := ih (consume 2 d)
        exact ⟨by rw [h1]; rfl, h2.trans (List.drop_suffix _ _)⟩
    · exact ⟨rfl, List.suffix_refl _⟩

theorem prDet_frame (p : GenericDescriptor) (d : DecoderState) :
    (prDet p d).2 = { d with pb := (prDet p d).2.pb } ∧ (prDet p d).2.pb <:+ d.pb := by
  unfold prDet
  split
  · exact ⟨rfl, List.suffix_refl _⟩
  · split
    · exact ⟨rfl, List.suffix_refl _⟩
    · unfold realign
      split
      · exact scanPairs_frame _ _ _
      · obtain ⟨h1, h2⟩ := scanPairs_frame p d.pbLen (consume 1 d)
        exact ⟨by rw [h1]; rfl, h2.trans (List.drop_suffix _ _)⟩

/-! ### The demodulators -/

/-- What a demodulator leaves alone: it changes the accumulator, the buffer and `sd`, and consumes from the front only
(44_demodulators R160). -/
def DemodFrame (d d' : DecoderState) : Prop :=
  d' = { d with acc := d'.acc, accCount := d'.accCount, pb := d'.pb, sd := d'.sd } ∧ d'.pb <:+ d.pb

theorem DemodFrame.refl (d : DecoderState) : DemodFrame d d := ⟨rfl, List.suffix_refl _⟩

theorem DemodFrame.trans {d d' d'' : DecoderState} (h : DemodFrame d d') (h' : DemodFrame d' d'') : DemodFrame d d'' :=
  ⟨by rw [h'.1, h.1], h'.2.trans h.2⟩

theorem DemodFrame.consume (k : Nat) (d : DecoderState) : DemodFrame d (consume k d) := ⟨rfl, List.drop_suffix _ _⟩

theorem DemodFrame.sd (b : Bool) (d : DecoderState) : DemodFrame d { d with sd := b } := ⟨rfl, List.suffix_refl _⟩

theorem aPush_demodFrame (c : Config) (b : Bool) {d0 d : DecoderState} (h : DemodFrame d0 d) :
    (aPush c b d).Leaves (DemodFrame d0) :=
  (aPush_leaves c b d).mono fun d' hd' => h.trans ⟨by rw [hd'], by rw [hd']⟩

theorem dmPdLoop_leaves (c : Config) (n : Nat) {d0 d : DecoderState} (h : DemodFrame d0 d) :
    (dmPdLoop c n d).Leaves (DemodFrame d0) := by
  induction n generalizing d with
  | zero => exact h
  | succ n ih =>
    simp only [dmPdLoop]
    split
    · split
      · exact h
      · split
        · exact h.trans (.consume 1 d)
        · exact h
    · split
      · split
        · exact h
        · exact (aPush_demodFrame c _ h).bind fun _ d' h' => ih (h'.trans (.consume 2 d'))
      · exact h

theorem dmPwLoop_leaves (c : Config) (n : Nat) {d0 d : DecoderState} (h : DemodFrame d0 d) :
    (dmPwLoop c n d).Leaves (DemodFrame d0) := by
  induction n generalizing d with
  | zero => exact h
  | succ n ih =>
    have hc : ∀ d', DemodFrame d0 d' → (dmPwConsumed c (dmPwLoop c n) d').Leaves (DemodFrame d0) := by
      intro d' h'
      unfold dmPwConsumed
      split
      · exact h'.trans (.consume 1 d')
      · exact ih (h'.trans (.consume 1 d'))
    simp only [dmPwLoop]
    split
    · exact h
    · split
      · split
        · exact h
        · split
          · exact h
          · exact (aPush_demodFrame c _ h).bind fun _ d' h' => hc d' h'
      · split
        · exact hc d h
        · exact h

theorem dmManLoop_leaves (c : Config) (n : Nat) {d0 d : DecoderState} (h : DemodFrame d0 d) :
    (dmManLoop c n d).Leaves (DemodFrame d0) := by
  induction n generalizing d with
  | zero => exact h
  | succ n ih =>
    simp only [dmManLoop]
    split
    · exact h
    · split
      · exact h
      · refine UnitFlow.Leaves.bind (P := DemodFrame d0) ?_ ?_
        · unfold manchSynthesize
          split
          · exact aPush_demodFrame c _ (h.trans (.sd true d))
          · exact h
        · intro _ d1 h1
          split
          · exact h1
          · split
            · exact h1
            · exact ih ((h1.trans (.sd false d1)).trans (.consume 1 _))
            · refine UnitFlow.Leaves.bind (aPush_demodFrame c _ ((h1.trans (.sd true d1)).trans (.consume 1 _))) ?_
              intro _ d2 h2
              split
              · split <;> exact h2
              · exact ih h2

/-- Every demodulator, whichever `P.modulation` selects (44_demodulators R160). -/
theorem demodulate_leaves (c : Config) (d : DecoderState) : (demodulate c d).Leaves (DemodFrame d) := by
  unfold demodulate
  split
  · exact dmPdLoop_leaves c _ (.refl d)
  · exact dmPwLoop_leaves c _ (.refl d)
  · exact dmManLoop_leaves c _ (.refl d)

/-- Every hook that a configuration can name meets its contract (10_state R37, 00_scope R7). -/
theorem repeatContract (p : GenericDescriptor) : RepeatContract p := by
  intro entries st k h
  unfold demodRepeat at h
  split at h
  · cases h
  · unfold refRepeat at h
    split at h
    · split_ifs at h <;> cases h <;> simp
    · cases h
      exact Nat.zero_le _
  · cases h
    exact Nat.zero_le _
  · cases h
    exact Nat.lt_succ_iff.mp (Fin.isLt _)

/-- The repeat hook answers nothing only where it is absent (10_state R37). -/
theorem demodRepeat_eq_none {p : GenericDescriptor} {entries : List Sample} (h : demodRepeat p entries = none) :
    p.demodRepeat = .absent := by
  unfold demodRepeat at h
  split at h <;> first | assumption | cases h

/-- All that `DMRPT` can do (44_demodulators R172). -/
theorem dmRpt_cases (p : GenericDescriptor) (d : DecoderState) :
    (p.demodRepeat = .absent ∧ dmRpt p d = .refused .repeatHookAbsent)
      ∨ ∃ st k, demodRepeat p d.pb = some (st, k) ∧ k ≤ d.pbLen ∧ dmRpt p d = .ret st (consume k d) := by
  unfold dmRpt
  cases h : demodRepeat p d.pb with
  | none => exact .inl ⟨demodRepeat_eq_none h, rfl⟩
  | some r =>
    obtain ⟨st, k⟩ := r
    have hk : k ≤ d.pbLen := repeatContract p _ _ _ h
    refine .inr ⟨st, k, rfl, hk, ?_⟩
    simp only [pbCons, if_pos hk]
    rfl

/-! ### The engine -/

/-- What the engine keeps: the last level, and of the buffer it only consumes from the front. -/
def EngineFrame (d d' : DecoderState) : Prop := d'.lastLevel = d.lastLevel ∧ d'.pb <:+ d.pb

theorem DemodFrame.engine {d d' : DecoderState} (h : DemodFrame d d') : EngineFrame d d' := ⟨by rw [h.1], h.2⟩

theorem EngineFrame.trans {d d' d'' : DecoderState} (h : EngineFrame d d') (h' : EngineFrame d' d'') :
    EngineFrame d d'' := ⟨h'.1.trans h.1, h'.2.trans h.2⟩

theorem armWaitPreamble_leaves (c : Config) (d : DecoderState) : (armWaitPreamble c d).Leaves (EngineFrame d) := by
  have h := prDet_frame c.p d
  have hl : (prDet c.p d).2.lastLevel = d.lastLevel := by rw [h.1]
  unfold armWaitPreamble
  split <;> exact ⟨hl, h.2⟩

theorem armDecode_leaves (c : Config) (d : DecoderState) : (armDecode c d).Leaves (EngineFrame d) := by
  unfold armDecode
  refine ((demodulate_leaves c d).mono fun _ => DemodFrame.engine).bind ?_
  intro st d' h
  split
  · exact h
  · unfold decodeReady
    split
    · trivial
    · split <;> exact h
  · exact ⟨h.1, (List.drop_suffix _ _).trans h.2⟩

theorem armProcessRepeat_leaves (c : Config) (d : DecoderState) : (armProcessRepeat c d).Leaves (EngineFrame d) := by
  unfold armProcessRepeat
  split
  · exact ⟨rfl, List.suffix_refl _⟩
  · refine UnitFlow.Leaves.bind (P := EngineFrame d) ?_ ?_
    · rcases dmRpt_cases c.p d with ⟨_, h⟩ | ⟨st, k, _, _, h⟩ <;> rw [h]
      · trivial
      · exact ⟨rfl, List.drop_suffix _ _⟩
    · intro st d' h
      split <;> exact h

theorem engineLoop_leaves (c : Config) (n : Nat) (d : DecoderState) : (engineLoop c n d).Leaves (EngineFrame d) := by
  induction n generalizing d with
  | zero => trivial
  | succ n ih =>
    simp only [engineLoop]
    refine UnitFlow.Leaves.bind (P := EngineFrame d) ?_ ?_
    · unfold engineArm
      split
      · exact armWaitPreamble_leaves c d
      · exact armDecode_leaves c d
      · exact armProcessRepeat_leaves c d
    · intro r d' h
      split
      · exact (ih d').mono fun _ h' => h.trans h'
      · exact h

/-- One run of the engine keeps the last level and only consumes from the front of the buffer (43_decode_engine R143). -/
theorem eRun_leaves (c : Config) (d : DecoderState) : (eRun c d).Leaves (EngineFrame d) := engineLoop_leaves c _ d

end Sys2Proof.Machine
end

