-- ==== Sys2Proof/Laws/Waveform.lean ====
section
/-! SUPPORT. The custom machine's shift register and the waveform's shape (46_custom_fsm R205, 47_waveform_encoder R222). -/

namespace Sys2Proof.Machine

/-! ### The shift register and the header counter -/

/-- Below the width of the counter a bit is counted (46_custom_fsm R205). -/
theorem bumpBits_toNat {code : BitVec 64} {bit : Bool} {bits : BitVec 8} (h : bits ≠ 255) :
    (bumpBits code bit bits).toNat = bits.toNat + 1 := by
  unfold bumpBits
  rw [if_neg (by simpa using h)]
  bv_omega

/-- The counter after one more pair (46_custom_fsm R202). -/
theorem bumpHdr_toNat (h : BitVec 16) : (bumpHdr h).toNat = min (h.toNat + 1) 65535 := by
  simp only [bumpHdr, hdrMax, BitVec.toNat_ofNat]
  omega

/-- A message comes from state 3 on a Space that stops a long enough frame, and from nowhere else
(46_custom_fsm R204, R206). -/
theorem cEdge_message {q : CustomDescriptor} {l : Level} {d : Dur} {m : CustomState} {x : Message}
    (h : (cEdge q l d m).2 = some x) :
    m.cState = .bitSpace ∧ l = .space ∧ CustomTiming.isStop q d = true ∧ q.minBits.toNat ≤ m.cBits.toNat
      ∧ x = customMessage q m := by
  unfold cEdge at h
  split at h
  · cases h
  · cases h
  · cases h
  · rename_i hs
    unfold arm3 at h
    split at h
    · cases h
    · rename_i hl
      split at h
      · rename_i hstop
        unfold stopFrame at h
        split at h
        · refine ⟨hs, by simpa using hl, hstop, ‹_›, ?_⟩
          injection h with h
          exact h.symm
        · cases h
      · cases h

/-! ### The waveform -/

@[simp] theorem headerTrain_length (q : CustomDescriptor) (n : Nat) : (headerTrain q n).length = 2 * n := by
  induction n with
  | zero => rfl
  | succ n ih =>
    simp only [headerTrain, List.length_append, ih, pair, List.length_cons, List.length_nil]
    omega

@[simp] theorem bitSamples_length (q : CustomDescriptor) (b : Bool) : (bitSamples q b).length = 2 := rfl

/-- The bits that a code has are its own (47_waveform_encoder R222). -/
theorem codeBit_of_lt {code : BitVec 64} {i : Nat} (h : i < 64) : codeBit code i = code.getLsbD i := if_pos h

@[simp] theorem payloadSamples_length (q : CustomDescriptor) (code : BitVec 64) (n : Nat) :
    (payloadSamples q code n).length = 2 * n := by
  induction n with
  | zero => rfl
  | succ n ih =>
    simp only [payloadSamples, List.length_append, ih, bitSamples_length]
    omega

/-- A waveform has as many entries as `ENC` checked for (47_waveform_encoder R221). -/
theorem waveform_length (q : CustomDescriptor) (code : BitVec 64) (n : Nat) :
    (waveform q code n).length = CustomTiming.waveformLength q n := by
  simp only [waveform, CustomTiming.waveformLength, List.length_append, headerTrain_length, payloadSamples_length, pair,
    List.length_cons, List.length_nil]

end Sys2Proof.Machine
end

