-- ==== Sys2Proof/Tests/Slice0.lean ====
section
/-! SUPPORT. The model's own tests: well-formedness, decoding, single steps from the vectors of 95_test_vectors, and for every
statement with hypotheses a concrete state that meets them. -/

namespace Sys2Proof.Tests

open Sys2Proof.Machine

/-! ### Helpers -/

/-- The next state, if there is one. -/
def out : Out → Option State
  | .next t => some t
  | .fault _ => none
  | .refused _ => none

/-- The refusal, if there is one. -/
def refusal : Out → Option Refusal
  | .refused r => some r
  | .next _ => none
  | .fault _ => none

/-- What is read of the state after an instruction. -/
def after {α : Type} (i : Instr) (s : State) (f : State → α) : Option α := (out (exec i s)).map f

/-- The reset state under configuration `c` with another decoder group. -/
def withDec (c : Config) (d : DecoderState) : State := { State.resetWith c with dec := d }

/-- A decoder in state `st` with a buffer, the newest level, and an accumulator of `n` bits in one byte. -/
def decoder (st : EngState) (pb : List Sample) (last : Level) (byte : Byte) (n : Nat) : DecoderState :=
  { DecoderState.initial with engState := st, pb := pb, lastLevel := last, acc := [(0, byte)], accCount := n }

/-- A state that holds only a buffer. -/
def buffered (c : Config) (pb : List Sample) (last : Level) : State :=
  withDec c { DecoderState.initial with pb := pb, lastLevel := last }

/-- The reset state with another custom group. -/
def withCus (st : CState) (last : Dur) (hdr : BitVec 16) (code : BitVec 64) (bits : BitVec 8) : State :=
  { State.reset with cus := ⟨st, last, hdr, code, bits, 0, 0⟩ }

/-- A configuration with another generic descriptor. -/
def cfgP (p : GenericDescriptor) : Config := { refConfig with p := p }

/-- REF-CUS-S with `ENC_CAP = 16` (95_test_vectors section 3.11). -/
def cfgS : Config := { refConfig with q := refCusS, encCap := 16 }

/-- `PB_CAP = 4` (95_test_vectors section 3.3). -/
def cfg4 : Config := { refConfig with pbCap := 4 }

/-- REF-PD with the repeat function of 95_test_vectors section 2. -/
def refPdRepeat : GenericDescriptor := { refPd with demodRepeat := .reference 30000 150000 9000 2250 }

/-- A block halted by `PB_OVF`. -/
def halted : State := { State.reset with fault := 0x01 }

/-- A Mark. -/
def mk (d : Dur) : Sample := ⟨.mark, d⟩

/-- A Space. -/
def sp (d : Dur) : Sample := ⟨.space, d⟩

/-! ### Well-formedness: an ill-formed term for each check -/

theorem test_wf_expected : (Instr.matchOp 0 (2 ^ 36 - 1) 0).wf = true ∧ (Instr.matchOp 0 (2 ^ 36) 0).wf = false := by decide

theorem test_wf_reference : refConfig.wf = true ∧ (cfgP refPw).wf = true ∧ (cfgP refMan).wf = true
    ∧ (cfgP refMan2).wf = true ∧ cfgS.wf = true ∧ (cfgP refPdRepeat).wf = true := by decide

theorem test_wf_capacities : ({ refConfig with pbCap := 1 } : Config).wf = false
    ∧ ({ refConfig with pbCap := 2 } : Config).wf = true ∧ ({ refConfig with encCap := 0 } : Config).wf = false := by decide

theorem test_wf_bit_length : (cfgP { refPd with bitLength := 0 }).wf = false
    ∧ (cfgP { refPd with bitLength := 65 }).wf = false ∧ (cfgP { refPd with bitLength := 64 }).wf = true := by decide

theorem test_wf_manchester : (cfgP { refMan with bitTol := 445 }).wf = false ∧ (cfgP { refMan with bitTol := 444 }).wf = true
    ∧ (cfgP { refMan with bitLength := 1 }).wf = false ∧ (cfgP { refMan2 with bitLength := 1 }).wf = true := by decide

theorem test_wf_custom : ({ refConfig with q := { refCus with maxBits := 65 } } : Config).wf = false
    ∧ ({ refConfig with q := { refCus with minBits := 65 } } : Config).wf = false
    ∧ ({ refConfig with q := { refCus with short := 0x40000000 } } : Config).wf = false := by decide

/-! ### Decoding: the words of 30_encoding R81 to R84, R91 and of vectors V-CW1 to V-CW22 -/

theorem test_decode_commands :
    decodeWord 0x01000000000000000000 = .ok .drst ∧ decodeWord 0x02000000000100002328 = .ok (.edge .mark 9000)
      ∧ decodeWord 0x020000000000FFFFFFFF = .ok (.edge .space 4294967295)
      ∧ decodeWord 0x03000000000000000000 = .ok .crst ∧ decodeWord 0x040000000001000000C8 = .ok (.cedge .mark 200)
      ∧ decodeWord 0x04000000000000000870 = .ok (.cedge .space 2160) ∧ decodeWord 0x05000000000000000000 = .ok .erst
      ∧ decodeWord 0x06005A5A5A5A5A5A5A37 = .ok (.enc 0x5A5A5A5A5A5A5A 55)
      ∧ decodeWord 0x0600000000000000FF41 = .ok (.enc 0xFF 65) ∧ decodeWord 0x07000000000000000000 = .ok .next := by decide

theorem test_decode_illegal :
    decodeWord 0x00000000000000000000 = .error (.unknownOpcode 0) ∧ decodeWord 0x08000000000000000000 = .error (.unknownOpcode 8)
      ∧ decodeWord 0x7F000000000000000000 = .error (.unknownOpcode 0x7F)
      ∧ decodeWord 0x01000000000000000001 = .error (.nonzeroField 1) ∧ decodeWord 0x07800000000000000000 = .error (.nonzeroField 7)
      ∧ decodeWord 0x02000000000200000000 = .error (.nonzeroField 2)
      ∧ decodeWord 0x80000000000000000000 = .error (.internalOpcode 0x80)
      ∧ decodeWord 0xFFFFFFFFFFFFFFFFFFFF = .error (.internalOpcode 0xFF) := by decide

/-- The identifiers of 30_encoding R91, each with its operand values. -/
theorem test_decode_calls :
    decodeCall ⟨0x80, 560, 3556, 300⟩ = .ok (.matchOp 560 3556 300) ∧ decodeCall ⟨0x88, 1, 9000, 0⟩ = .ok (.pbpush .mark 9000)
      ∧ decodeCall ⟨0x89, 2, 0, 0⟩ = .ok (.pbcons 2) ∧ decodeCall ⟨0x8A, 0, 0, 0⟩ = .ok .pbclr
      ∧ decodeCall ⟨0x8B, 0, 0, 0⟩ = .ok .pblvl ∧ decodeCall ⟨0x90, 0, 0, 0⟩ = .ok .prdet
      ∧ decodeCall ⟨0x98, 0, 0, 0⟩ = .ok .frst ∧ decodeCall ⟨0x99, 0, 0, 0⟩ = .ok .srst
      ∧ decodeCall ⟨0x9A, 0, 0, 0⟩ = .ok .erun ∧ decodeCall ⟨0xA0, 0, 0, 0⟩ = .ok .dmpd
      ∧ decodeCall ⟨0xA1, 0, 0, 0⟩ = .ok .dmpw ∧ decodeCall ⟨0xA2, 0, 0, 0⟩ = .ok .dmman
      ∧ decodeCall ⟨0xA3, 0, 0, 0⟩ = .ok .dmrpt ∧ decodeCall ⟨0xA8, 0, 0, 0⟩ = .ok .aclr
      ∧ decodeCall ⟨0xA9, 1, 0, 0⟩ = .ok (.apush true) ∧ decodeCall ⟨0xB0, 0, 0, 0⟩ = .ok (.cbit false)
      ∧ decodeCall ⟨0xB8, 5, 3, 0⟩ = .ok (.efill 5 3) := by decide

theorem test_decode_calls_refused :
    decodeCall ⟨0x81, 0, 0, 0⟩ = .error (.unknownMicro 0x81) ∧ decodeCall ⟨0x80, 0, 2 ^ 36, 0⟩ = .error (.operandRange 0x80)
      ∧ decodeCall ⟨0xA9, 2, 0, 0⟩ = .error (.operandRange 0xA9) ∧ decodeCall ⟨0x8A, 1, 0, 0⟩ = .error (.operandRange 0x8A) := by
  decide

theorem test_table_words : decodeTableWord 80 0x07000000000000000000 = some .next ∧ decodeTableWord 8 0xA2 = some .dmman
    ∧ decodeTableWord 8 0x01 = none ∧ decodeTableWord 80 0xA2000000000000000000 = none := by decide

/-! ### One step -/

/-- V-CW15 and V-CW23: an illegal word, on a running and on a halted block. -/
theorem test_step_illegal :
    (out (step (present (.command 0) State.reset))).map (·.rsp) = some (some 0x5000000000000000000000)
      ∧ (out (step (present (.command 0) halted))).map (·.rsp) = some (some 0xF000000000000000000001) := by decide

/-- V-CW12: `NEXT` right after reset. -/
theorem test_step_first_instruction :
    (out (step (State.reset.withFetchWord 80 0x07000000000000000000))).map (·.rsp) = some (some 0x3000000000000000000000) := by
  decide

/-- V-RS1. -/
theorem test_drst : after .drst (withDec refConfig (decoder .processRepeat [] .space 0xA5 8)) (·.dec)
    = some { DecoderState.initial with acc := [(0, 0xA5)] } := by decide

/-- P1, command 20: the stop Mark completes the frame. -/
theorem test_edge_message : after (.edge .mark 560) (withDec refConfig (decoder .decode [] .space 0xA5 8))
    (fun t => (t.rsp, t.dec.engState, t.dec.pb)) = some (some 0x100100000000000000A508, .processRepeat, []) := by decide

/-- V-EN1, command 6: an error in the middle of a frame. -/
theorem test_edge_error : after (.edge .space 1000) (withDec refConfig (decoder .decode [mk 560] .mark 0 1))
    (fun t => (t.rsp, t.dec.engState, t.dec.pb, t.dec.accCount)) = some (some 0, .waitPreamble, [], 0) := by decide

/-- V-RS2. -/
theorem test_crst : after .crst (withCus .header 200 1 7 3) (·.cus) = some CustomState.initial := by decide

/-- V-CU30: bit 0 at the lower edge of the `long` window. -/
theorem test_cedge_bit : after (.cedge .space 321) (withCus .bitSpace 200 41 1 1)
    (fun t => (t.cus.cState, t.cus.cCode, t.cus.cBits)) = some (.bitMark, 2, 2) := by decide

/-- V-CU1, command 196: the stop commits. -/
theorem test_cedge_stop : after (.cedge .space 2160) (withCus .bitSpace 200 41 0 55)
    (fun t => (t.rsp, t.cus)) = some (some 0x1002000000000000000037, ⟨.idle, 200, 41, 0, 0, 0, 55⟩) := by decide

/-- V-EC8. -/
theorem test_erst : after .erst { State.reset with enc := ⟨[(0, mk 200)], 14, 3⟩ } (fun t => (t.enc.encWr, t.enc.encRd))
    = some (0, 0) := by decide

/-- V-EC1: the whole upload buffer. -/
theorem test_enc : after (.enc 5 3) (State.resetWith cfgS) (fun t => (t.enc.encWr, t.enc.ub.map (·.2)))
    = some (14, [mk 200, sp 200, mk 200, sp 200, mk 800, sp 200, mk 400, sp 200, mk 200, sp 400, mk 400, sp 200, mk 200,
        sp 2160]) := by decide

/-- V-EC5 and V-EC6: both refusals empty the encoder. -/
theorem test_enc_refused :
    after (.enc 0 7) { State.resetWith cfgS with enc := ⟨[], 14, 3⟩ } (fun t => (t.rsp, t.enc.encWr, t.enc.encRd))
        = some (some 0x4000000000000000000000, 0, 0)
      ∧ after (.enc 0xFF 65) { State.resetWith cfgS with enc := ⟨[], 14, 3⟩ } (fun t => (t.rsp, t.enc.encWr, t.enc.encRd))
        = some (some 0x6000000000000000000000, 0, 0) := by decide

/-- V-CW13: the first sample. -/
theorem test_next : after .next { State.reset with enc := ⟨[(0, mk 200)], 1, 0⟩ } (fun t => (t.rsp, t.enc.encRd))
    = some (some 0x20000000000001000000C8, 1) := by decide

/-- V-TM2, V-TM3 and V-TM12. -/
theorem test_match : after (.matchOp 759 560 200) State.reset (·.ret) = some (.bool true)
    ∧ after (.matchOp 760 560 200) State.reset (·.ret) = some (.bool false)
    ∧ after (.matchOp 0 4294967295 10) State.reset (·.ret) = some (.bool false) := by decide

/-- V-PB2 and V-PB3. -/
theorem test_pbpush :
    after (.pbpush .space 560) (buffered cfg4 [mk 9000, sp 4500, mk 560] .mark) (·.dec.pb)
        = some [mk 9000, sp 4500, mk 560, sp 560]
      ∧ after (.pbpush .mark 560) (buffered cfg4 [mk 9000, sp 4500, mk 560, sp 560] .space) (fun t => (t.fault, t.dec.pbLen))
        = some (1, 4) := by decide

/-- V-PB4; and `k` beyond the buffer (93 U6). -/
theorem test_pbcons : after (.pbcons 2) (buffered cfg4 [mk 9000, sp 4500, mk 560] .mark) (·.dec.pb) = some [mk 560]
    ∧ refusal (exec (.pbcons 3) (buffered cfg4 [mk 9000, sp 4500] .space)) = some (.consumeBeyondLength 3 2) := by decide

/-- V-PB7. -/
theorem test_pbclr : after .pbclr (buffered cfg4 [mk 9000, sp 4500, mk 560] .mark) (·.dec.pb) = some [] := by decide

/-- V-PB8 and V-PB9. -/
theorem test_pblvl : after .pblvl (buffered cfg4 [sp 1, mk 2, sp 3] .space) (·.ret) = some (.level .space)
    ∧ after .pblvl (buffered cfg4 [mk 2, sp 3] .space) (·.ret) = some (.level .mark) := by decide

/-- V-PR10 and V-PR11. -/
theorem test_prdet :
    after .prdet (buffered refConfig [sp 700, mk 500, sp 300, mk 9000, sp 4500, mk 560] .mark) (fun t => (t.ret, t.dec.pb))
        = some (.bool true, [mk 560])
      ∧ after .prdet (buffered refConfig [mk 500, sp 300, mk 700, sp 100, mk 9000] .mark) (fun t => (t.ret, t.dec.pb))
        = some (.bool false, [mk 9000]) := by decide

/-- 43_decode_engine R141: `last_level` and `last_msg` stay. -/
theorem test_frst : after .frst (withDec refConfig { decoder .decode [mk 560] .mark 0xA5 8 with sd := true }) (·.dec)
    = some (decoder .waitPreamble [] .mark 0xA5 0) := by decide

/-- 43_decode_engine R142: the buffer stays too. -/
theorem test_srst : after .srst (withDec refConfig { decoder .decode [mk 560] .mark 0xA5 8 with sd := true }) (·.dec)
    = some (decoder .waitPreamble [mk 560] .mark 0xA5 0) := by decide

/-- V-EN4, command 24 (a repeat) and command 32 (a new frame), the sample already pushed. -/
theorem test_erun :
    after .erun (withDec (cfgP refPdRepeat) { decoder .processRepeat [sp 40000, mk 9000, sp 2250, mk 560] .mark 0xA5 8 with
          lastMsg := ⟨1, 0xA5, 8, false⟩ }) (fun t => (t.ret, t.dec.engState, t.dec.pb))
        = some (.message (some ⟨1, 0xA5, 8, true⟩), .processRepeat, [])
      ∧ after .erun (withDec (cfgP refPdRepeat) (decoder .processRepeat [sp 96000, mk 9000, sp 4500, mk 560] .mark 0xA5 8))
          (fun t => (t.ret, t.dec.engState, t.dec.pb, t.dec.accCount)) = some (.message none, .decode, [mk 560], 0) := by
  decide

/-- V-PD1, command 20, and P1, command 5. -/
theorem test_dmpd :
    after .dmpd (withDec refConfig (decoder .decode [mk 900] .mark 0xA5 8)) (fun t => (t.ret, t.dec.pb))
        = some (.status .error, [mk 900])
      ∧ after .dmpd (withDec refConfig (decoder .decode [mk 560, sp 1690] .space 0 0)) (fun t => (t.ret, t.dec.pb, t.dec.acc))
        = some (.status .ok, [], [(0, 1)]) := by decide

/-- P2, command 10, and V-PW1, command 4. -/
theorem test_dmpw :
    after .dmpw (withDec (cfgP refPw) (decoder .decode [mk 1200] .mark 3 3)) (fun t => (t.ret, t.dec.pb, t.dec.acc))
        = some (.status .ready, [], [(0, 0x0B)])
      ∧ after .dmpw (withDec (cfgP refPw) (decoder .decode [sp 900] .space 1 1)) (fun t => (t.ret, t.dec.pb))
        = some (.status .error, [sp 900]) := by decide

/-- V-MA1, command 1, and V-MA4, command 7. -/
theorem test_dmman :
    after .dmman (withDec (cfgP refMan) (decoder .decode [mk 1778] .mark 0 0)) (fun t => (t.ret, t.dec.acc, t.dec.sd))
        = some (.status .ok, [(0, 3)], true)
      ∧ after .dmman (withDec (cfgP refMan2) (decoder .decode [sp 889] .space 0 3)) (fun t => (t.ret, t.dec.accCount))
        = some (.status .error, 4) := by decide

/-- The worked example of 44_demodulators R172. -/
theorem test_dmrpt : after .dmrpt (buffered (cfgP refPdRepeat) [sp 40000, mk 9000, sp 2250, mk 560] .mark)
    (fun t => (t.ret, t.dec.pb)) = some (.status .ready, []) := by decide

/-- V-AC3: the bytes stay. -/
theorem test_aclr : after .aclr (withDec refConfig (decoder .decode [] .mark 0x1F 5)) (fun t => (t.dec.accCount, t.dec.acc))
    = some (0, [(0, 0x1F)]) := by decide

/-- V-AC4 and V-AC5. -/
theorem test_apush :
    after (.apush true) (withDec refConfig (decoder .decode [] .mark 0xA5 8)) (fun t => (t.dec.acc, t.dec.accCount))
        = some ([(0, 0xA5), (1, 1)], 9)
      ∧ after (.apush true) (withDec { refConfig with accBytes := 1 } (decoder .decode [] .mark 0xFF 8))
          (fun t => (t.fault, t.dec.acc, t.dec.accCount)) = some (2, [(0, 0xFF)], 8) := by decide

/-- The shift of V-CU36: bit 63 leaves. -/
theorem test_cbit : after (.cbit true) (withCus .bitSpace 400 41 0x8000000000000001 63) (fun t => (t.cus.cCode, t.cus.cBits))
    = some (3, 64) := by decide

/-- V-EC4: no payload. -/
theorem test_efill : after (.efill 0 0) (State.resetWith cfgS) (fun t => (t.enc.encWr, t.enc.encRd, t.enc.ub.map (·.2)))
    = some (8, 0, [mk 200, sp 200, mk 200, sp 200, mk 800, sp 200, mk 200, sp 2160]) := by decide

/-- 47_waveform_encoder R222 with 65 bits: the call runs, and around the pair of bit 64 every entry is as always. -/
theorem test_efill_past_width :
    (∃ t, exec (.efill 1 65) (State.resetWith { cfgS with encCap := 138 }) = .next t
        ∧ t.enc.encWr = (waveform refCusS 1 65).length)
      ∧ (waveform refCusS 1 65)[4]? = some (mk 800) ∧ (waveform refCusS 1 65)[8]? = some (mk 200)
      ∧ (waveform refCusS 1 65)[134]? = some (mk 400) ∧ (waveform refCusS 1 65)[137]? = some (sp 2160) :=
  ⟨⟨_, rfl, rfl⟩, by decide, by decide, by decide, by decide⟩

/-! ### Witnesses: for every statement with hypotheses, values that meet them -/

/-- A configuration whose accumulator holds nothing: no block accepts it, its rules still compute (93 U7). -/
def cfgNoAcc (p : GenericDescriptor) : Config := { refConfig with accBytes := 0, p := p }

theorem witness_DecodeUndoesEncode : (Instr.matchOp 4294967295 (2 ^ 36 - 1) 4294967295).wf = true := by decide

theorem witness_EncodeUndoesDecode : decodeWord 0x020000000000FFFFFFFF = .ok (.edge .space 4294967295) := by decide

/-- Opcode 0x00, opcode 0x08, a bit set in format Z (lowest and highest), the lowest bit of format S's zero field; the block
running, and halted. -/
theorem witness_IllegalWordIsNotExecuted :
    State.reset.cfg.wf = true ∧ State.reset.fault = 0 ∧ halted.cfg.wf = true ∧ halted.fault ≠ 0
      ∧ (present (.command 0) State.reset).inbox = [.command 0]
      ∧ ¬ (1 ≤ (opField 0).toNat ∧ (opField 0).toNat ≤ 7)
      ∧ ¬ (1 ≤ (opField 0x08000000000000000000).toNat ∧ (opField 0x08000000000000000000).toNat ≤ 7)
      ∧ ((opField 0x01000000000000000001).toNat = 1 ∧ (0x01000000000000000001 : CommandWord).getLsbD 0 = true)
      ∧ ((opField 0x07800000000000000000).toNat = 7 ∧ (0x07800000000000000000 : CommandWord).getLsbD 71 = true)
      ∧ ((opField 0x02000000000200000000).toNat = 2 ∧ (0x02000000000200000000 : CommandWord).getLsbD 33 = true) := by decide

theorem witness_AnswersAreThoseOfTheTable :
    (∃ t, Instr.isCommand .next = true ∧ exec .next State.reset = .next t ∧ t.fault = 0)
      ∧ ∃ t, exec .next halted = .next t ∧ t.fault ≠ 0 := ⟨⟨_, rfl, rfl, by decide⟩, ⟨_, rfl, by decide⟩⟩

theorem witness_CommandTextReadsBack : commandText (.enc 0xFF 65) = some "ENC 0xFF, 65".toList := by decide

theorem witness_StepRunsTheDecodedInstruction :
    (State.reset.withFetchWord 80 0x01000000000000000000).inbox = [.command 0x01000000000000000000]
      ∧ State.reset.cfg.wf = true ∧ decode (.command 0x01000000000000000000) = .ok .drst ∧ State.reset.inbox = [] := by decide

theorem witness_HardwareResetRestoresEveryRegister :
    (present .reset halted).cfg.wf = true ∧ (present .reset halted).inbox = [.reset] := by decide

theorem witness_FaultIsSticky :
    (∃ t, (present (.command 0) halted).inbox.head? ≠ some .reset ∧ step (present (.command 0) halted) = .next t)
      ∧ Instr.isCommand .pbclr = false ∧ halted.fault ≠ 0 := ⟨⟨_, by decide, rfl⟩, by decide, by decide⟩

theorem witness_ConfigurationNeverChanges : ∃ t, step (present .reset halted) = .next t := ⟨_, rfl⟩

/-- A buffer filled to `PB_CAP = 4` by alternating samples that the engine keeps. -/
def fullBuffer : State :=
  withDec { cfg4 with p := { refPd with demodRepeat := .holdAll } }
    { decoder .processRepeat [mk 9000, sp 4500, mk 560, sp 560] .space 0xA5 8 with lastMsg := ⟨1, 0xA5, 8, false⟩ }

theorem witness_FaultHaltsTheBlock :
    (∃ d, fullBuffer.fault = 0 ∧ edge fullBuffer.cfg .mark 560 fullBuffer.dec = .raised .pbOvf d)
      ∧ halted.cfg.wf = true ∧ halted.fault ≠ 0 ∧ (present (.command 0) halted).inbox = [.command 0] :=
  ⟨⟨_, by decide, rfl⟩, by decide, by decide, by decide⟩

theorem witness_OverflowingEdgeEntersTheFault :
    fullBuffer.fault = 0 ∧ Level.mark ≠ fullBuffer.dec.lastLevel ∧ fullBuffer.dec.pbLen = fullBuffer.cfg.pbCap := by decide

theorem witness_FaultHoldsAtMostOneCause :
    (∃ t, step State.reset = .next t ∧ State.reset.fault = 0) ∧ ∃ t, step halted = .next t ∧ halted.fault = 1 :=
  ⟨⟨_, rfl, rfl⟩, ⟨_, rfl, rfl⟩⟩

theorem witness_InvariantIsKept :
    (present (.command 0x02000000000100002328) fullBuffer).Inv
      ∧ ∃ t, step (present (.command 0x02000000000100002328) fullBuffer) = .next t := ⟨by decide, ⟨_, rfl⟩⟩

theorem witness_EveryStepCompletes : State.reset.cfg.wf = true ∧ State.reset.Inv := by decide

theorem witness_UnitsAreIndependent :
    commandUnit .drst = some .decoder ∧ commandUnit .crst = some .custom ∧ commandUnit .next = some .encoder
      ∧ State.reset.fault = 0 ∧ commandUnit .drst ≠ commandUnit .crst
      ∧ ∃ si sj sij, exec .drst State.reset = .next si ∧ exec .crst State.reset = .next sj ∧ si.fault = 0 ∧ sj.fault = 0
        ∧ exec .crst si = .next sij :=
  ⟨rfl, rfl, rfl, rfl, by decide, ⟨_, _, _, rfl, rfl, rfl, rfl, rfl⟩⟩

theorem witness_ResetCommandsRestoreTheirUnit : State.reset.fault = 0 ∧ halted.fault ≠ 0 := by decide

theorem witness_ThreeResetsEqualHardwareReset :
    [Instr.erst, .drst, .crst].Perm [.drst, .crst, .erst] ∧ fullBuffer.fault = 0 := by decide

theorem witness_MatchIsTheStrictWindow : State.reset.fault = 0 := rfl

theorem witness_MatchCornerCases : 1 ≤ 200 ∧ 200 ≤ 200 ∧ 199 < 200 := by decide

theorem witness_PushAppendsOrOverflows :
    (buffered cfg4 [mk 9000, sp 4500, mk 560] .mark).fault = 0
      ∧ (buffered cfg4 [mk 9000, sp 4500, mk 560] .mark).dec.pbLen < cfg4.pbCap
      ∧ (buffered cfg4 [mk 9000, sp 4500, mk 560, sp 560] .space).dec.pbLen = cfg4.pbCap := by decide

theorem witness_ConsumeKeepsTheRest :
    (buffered cfg4 [mk 9000, sp 4500] .space).fault = 0 ∧ 2 ≤ (buffered cfg4 [mk 9000, sp 4500] .space).dec.pbLen
      ∧ (buffered cfg4 [mk 9000, sp 4500] .space).dec.pbLen < 3 := by decide

theorem witness_InternalResetsWriteTheirRegisters : fullBuffer.fault = 0 := rfl

theorem witness_InferredLevelIsTheFrontLevel :
    (buffered cfg4 [mk 2, sp 3] .space).fault = 0 ∧ 1 ≤ (buffered cfg4 [mk 2] .mark).dec.pbLen
      ∧ (buffered cfg4 [mk 2, sp 3] .space).dec.pb = mk 2 :: [sp 3] ∧ LevelsInv (buffered cfg4 [mk 2, sp 3] .space).dec
      ∧ State.reset.dec.pbLen = 0 := by decide

/-- Without a preamble; with one and a leading Space; with one, aligned; with one and an empty buffer. -/
theorem witness_PreambleDetectorScansPairs :
    State.reset.fault = 0 ∧ (cfgP refMan).p.preambleMark = 0 ∧ refConfig.p.preambleMark ≠ 0
      ∧ frontLevel (buffered refConfig [sp 700, mk 9000, sp 4500] .space).dec ≠ .mark
      ∧ frontLevel (buffered refConfig [mk 9000, sp 4500] .space).dec = .mark
      ∧ State.reset.dec.pb = [] := by decide

theorem witness_PreambleDetectorLeavesAMark :
    (buffered refConfig [sp 700, mk 500] .mark).fault = 0 ∧ refConfig.p.preambleMark ≠ 0
      ∧ LevelsInv (buffered refConfig [sp 700, mk 500] .mark).dec
      ∧ ∃ t, exec .prdet (buffered refConfig [sp 700, mk 500] .mark) = .next t ∧ t.ret = .bool false ∧ t.dec.pb = [mk 500] :=
  ⟨by decide, by decide, by decide, ⟨_, rfl, rfl, rfl⟩⟩

/-- The count reached (8 of 8): no entry, a stop Mark, another one. One short of it: one entry, a pair of neither pattern, a
pair of each pattern with a push that completes; and a store that is full before the count is reached. -/
theorem witness_PulseDistanceRounds :
    (withDec refConfig (decoder .decode [mk 560] .mark 0xA5 8)).fault = 0 ∧ refConfig.p.bitLength ≤ 8
      ∧ durMatch 560 refConfig.p.bit1Mark.toNat refConfig.p.bitTol = true
      ∧ durMatch 900 refConfig.p.bit1Mark.toNat refConfig.p.bitTol = false
      ∧ 7 < refConfig.p.bitLength
      ∧ durMatch 1690 refConfig.p.bit1Space.toNat refConfig.p.bitTol = true
      ∧ durMatch 560 refConfig.p.bit0Space.toNat refConfig.p.bitTol = true
      ∧ durMatch 1000 refConfig.p.bit1Space.toNat refConfig.p.bitTol = false
      ∧ durMatch 1000 refConfig.p.bit0Space.toNat refConfig.p.bitTol = false
      ∧ (∃ d, aPush refConfig true (decoder .decode [mk 560, sp 1690] .space 0 7) = .ret () d)
      ∧ 8 * (cfgNoAcc refPd).accBytes = 0 ∧ 0 < (cfgNoAcc refPd).p.bitLength :=
  ⟨by decide, by decide, by decide, by decide, by decide, by decide, by decide, by decide, by decide, ⟨_, rfl⟩, by decide,
    by decide⟩

/-- A Mark at the count (4 of 4) and one short of it: neither width, each width with a push that completes it; a full store;
a Space in and out of tolerance, at the count and below it. -/
theorem witness_PulseWidthRounds :
    (withDec (cfgP refPw) (decoder .decode [mk 1200] .mark 3 3)).fault = 0 ∧ (cfgP refPw).p.bitLength ≤ 4
      ∧ 3 < (cfgP refPw).p.bitLength
      ∧ durMatch 1200 refPw.bit1Mark.toNat refPw.bitTol = true ∧ durMatch 1200 refPw.bit0Mark.toNat refPw.bitTol = false
      ∧ durMatch 600 refPw.bit0Mark.toNat refPw.bitTol = true ∧ durMatch 600 refPw.bit1Mark.toNat refPw.bitTol = false
      ∧ durMatch 900 refPw.bit1Mark.toNat refPw.bitTol = false ∧ durMatch 900 refPw.bit0Mark.toNat refPw.bitTol = false
      ∧ (∃ d, aPush (cfgP refPw) true (decoder .decode [mk 1200] .mark 3 3) = .ret () d ∧ d.accCount = refPw.bitLength)
      ∧ (∃ d, aPush (cfgP refPw) true (decoder .decode [mk 1200] .mark 0 2) = .ret () d ∧ d.accCount ≠ refPw.bitLength)
      ∧ 8 * (cfgNoAcc refPw).accBytes = 0 ∧ 0 < (cfgNoAcc refPw).p.bitLength
      ∧ durMatch 600 refPw.bit1Space.toNat refPw.bitTol = true ∧ durMatch 900 refPw.bit1Space.toNat refPw.bitTol = false :=
  ⟨by decide, by decide, by decide, by decide, by decide, by decide, by decide, by decide, by decide,
    ⟨_, rfl, by decide⟩, ⟨_, rfl, by decide⟩, by decide, by decide, by decide, by decide⟩

/-- Neither width; the synthesized bit, also into a full store; at the count and one short of it; each flag with each width;
the last bit at the end level and at the other. -/
theorem witness_ManchesterRounds :
    (withDec (cfgP refMan) (decoder .decode [mk 1778] .mark 0 0)).fault = 0
      ∧ durMatch 1300 refMan.bit1Mark.toNat refMan.bitTol = false
      ∧ durMatch 1300 (2 * refMan.bit1Mark.toNat) refMan.bitTol = false
      ∧ durMatch 1778 (2 * refMan.bit1Mark.toNat) refMan.bitTol = true
      ∧ durMatch 889 refMan.bit1Mark.toNat refMan.bitTol = true
      ∧ refMan.manchStartFromSpace = true ∧ refMan2.manchStartFromSpace = false
      ∧ (∃ d, aPush (cfgP refMan) refMan.manchFirstBit { decoder .decode [mk 1778] .mark 0 0 with sd := true } = .ret () d)
      ∧ 8 * (cfgNoAcc refMan).accBytes = 0 ∧ refMan2.bitLength ≤ 4 ∧ 3 < refMan2.bitLength
      ∧ (∃ d, aPush (cfgP refMan2) Level.mark { decoder .decode [] .mark 0 3 with sd := true } = .ret () d
          ∧ d.accCount = refMan2.bitLength)
      ∧ (∃ d, aPush (cfgP refMan2) Level.mark { decoder .decode [] .mark 0 2 with sd := true } = .ret () d
          ∧ d.accCount ≠ refMan2.bitLength)
      ∧ refMan2.manchEndLevel = .mark :=
  ⟨by decide, by decide, by decide, by decide, by decide, by decide, by decide, ⟨_, rfl⟩, by decide, by decide, by decide,
    ⟨_, rfl, by decide⟩, ⟨_, rfl, by decide⟩, by decide⟩

theorem witness_DemodulatorsComplete :
    refConfig.wf = true ∧ (withDec refConfig (decoder .decode [mk 560] .mark 0xA5 8)).fault = 0
      ∧ AccumulatorInv refConfig (decoder .decode [mk 560] .mark 0xA5 8)
      ∧ AccumulatorInv refConfig (decoder .decode [mk 560] .mark 0x25 7) := by decide

/-- V-MA2 held in the buffer. -/
def singleWidths : State :=
  buffered (cfgP refMan2) [mk 889, sp 889, mk 889, sp 889, mk 889, sp 889, mk 889] .mark

theorem witness_SingleWidthTrainGivesConstantBits :
    singleWidths.fault = 0 ∧ singleWidths.cfg.wf = true ∧ singleWidths.cfg.p.modulation = .man
      ∧ singleWidths.cfg.p.manchStartFromSpace = false ∧ singleWidths.cfg.p.manchEndLevel = .mark
      ∧ singleWidths.dec.accCount = 0 ∧ singleWidths.dec.sd = false
      ∧ singleWidths.dec.pbLen = 2 * singleWidths.cfg.p.bitLength - 1 ∧ alternates singleWidths.dec.pb = true
      ∧ singleWidths.dec.pb.head? = some (mk 889)
      ∧ (∀ e ∈ singleWidths.dec.pb, durMatch e.duration singleWidths.cfg.p.bit1Mark.toNat singleWidths.cfg.p.bitTol = true) := by
  decide

theorem witness_RepeatHookConsumesWhatItAsks :
    (buffered (cfgP refPdRepeat) [sp 40000, mk 9000, sp 2250, mk 560] .mark).fault = 0
      ∧ demodRepeat refPdRepeat [sp 40000, mk 9000, sp 2250, mk 560] = some (.ready, 4)
      ∧ demodRepeat refPdRepeat [sp 40000] = some (.ok, 0) ∧ refPd.demodRepeat = .absent := by decide

/-- The first bit of a byte, the last bit of the store, and the store full. -/
theorem witness_PushWritesOneBit :
    State.reset.fault = 0 ∧ 0 < 8 * refConfig.accBytes
      ∧ Memory.read 7 [(7, (0x7F : Byte))] = some 0x7F ∧ 63 < 8 * refConfig.accBytes ∧ 63 / 8 = 7 ∧ 63 % 8 ≠ 0
      ∧ 64 = 8 * refConfig.accBytes := by decide

theorem witness_AccumulatorReproducesTheBits :
    State.reset.fault = 0 ∧ (List.replicate 64 true).length ≤ 8 * State.reset.cfg.accBytes := by decide

theorem witness_EngineSettlesWithinTheBound : 2 * fullBuffer.dec.pbLen + 3 ≤ 11 := by decide

theorem witness_WaitPreambleArm :
    (buffered refConfig [mk 9000, sp 4500] .space).fault = 0
      ∧ (buffered refConfig [mk 9000, sp 4500] .space).dec.engState = .waitPreamble
      ∧ (prDet refPd (buffered refConfig [mk 9000, sp 4500] .space).dec).1 = true
      ∧ (prDet refPd (buffered refConfig [mk 9000] .mark).dec).1 = false := by decide

/-- `Ok` on an empty buffer; `Ready` with each verdict; `Error` on a stop Mark out of tolerance; a raise. -/
theorem witness_DecodeArm :
    (withDec refConfig (decoder .decode [] .space 0xA5 8)).fault = 0
      ∧ (∃ d, dmPd refConfig (decoder .decode [] .space 0xA5 8) = .ret .ok d)
      ∧ (∃ d, dmPd refConfig (decoder .decode [mk 560] .mark 0xA5 8) = .ret .ready d ∧ accView d = .ok [0xA5]
          ∧ interpret refPd [0xA5] d.accCount = .accept 0xA5 8
          ∧ interpret { refPd with interpret := .rejectAll } [0xA5] d.accCount = .reject)
      ∧ (∃ d, dmPd refConfig (decoder .decode [mk 900] .mark 0xA5 8) = .ret .error d)
      ∧ ∃ d, dmPd (cfgNoAcc refPd) (decoder .decode [mk 560, sp 560] .space 0 0) = .raised .accOvf d :=
  ⟨rfl, ⟨_, rfl⟩, ⟨_, rfl, rfl, rfl, rfl⟩, ⟨_, rfl⟩, ⟨_, rfl⟩⟩

theorem witness_ProcessRepeatArm :
    (withDec (cfgP refPdRepeat) (decoder .processRepeat [sp 40000] .space 0xA5 8)).fault = 0
      ∧ refPd.demodRepeat = .absent
      ∧ demodRepeat refPdRepeat [sp 40000] = some (.ok, 0)
      ∧ demodRepeat refPdRepeat [sp 40000, mk 9000, sp 2250, mk 560] = some (.ready, 4)
      ∧ demodRepeat refPdRepeat [sp 96000, mk 9000, sp 4500, mk 560] = some (.error, 0) := by decide

theorem witness_EngineRunCompletes :
    refConfig.wf = true ∧ (withDec refConfig (decoder .decode [mk 560] .mark 0xA5 8)).fault = 0
      ∧ AccumulatorInv refConfig (decoder .decode [mk 560] .mark 0xA5 8) := by decide

/-- A halted block; a full buffer; a sample of the other level, one of the same level, one that completes a frame, and a raise
by an accumulator that is too small. -/
theorem witness_EdgeAppendsAndRuns :
    halted.fault ≠ 0 ∧ State.reset.fault = 0 ∧ fullBuffer.fault = 0
      ∧ Level.mark ≠ fullBuffer.dec.lastLevel ∧ fullBuffer.dec.pbLen = fullBuffer.cfg.pbCap
      ∧ State.reset.dec.pbLen < State.reset.cfg.pbCap ∧ Level.space ≠ State.reset.dec.lastLevel
      ∧ (∃ d, eRun refConfig { State.reset.dec with lastLevel := .space, pb := [sp 30000] } = .ret none d)
      ∧ Level.mark = State.reset.dec.lastLevel
      ∧ (∃ d, eRun refConfig { State.reset.dec with lastLevel := .mark, pb := [mk 9000] } = .ret none d)
      ∧ (∃ m d, eRun refConfig { decoder .decode [] .space 0xA5 8 with lastLevel := .mark, pb := [mk 560] } = .ret (some m) d)
      ∧ ∃ c d, eRun (cfgNoAcc refPd) { decoder .decode [mk 560] .mark 0 0 with lastLevel := .space, pb := [mk 560, sp 560] }
        = .raised c d :=
  ⟨by decide, rfl, rfl, by decide, by decide, by decide, by decide, ⟨_, rfl⟩, rfl, ⟨_, rfl⟩, ⟨_, _, rfl⟩, ⟨_, _, rfl⟩⟩

/-- A full buffer and a same-level sample; a buffer with room. -/
theorem witness_EdgeCompletes :
    (∃ s : State, s.cfg.wf = true ∧ s.Inv ∧ s.fault = 0 ∧ Level.mark = s.dec.lastLevel ∧ s.dec.pbLen = s.cfg.pbCap)
      ∧ State.reset.cfg.wf = true ∧ State.reset.Inv ∧ State.reset.dec.pbLen < State.reset.cfg.pbCap :=
  ⟨⟨buffered { refConfig with pbCap := 2 } [sp 700, mk 500] .mark, by decide⟩, by decide⟩

/-- A fresh message (P1, command 20) and a repeat (V-EN4, command 24). -/
theorem witness_RepeatMessagesCarryTheLastMessage :
    (∃ t, exec (.edge .mark 560) (withDec refConfig (decoder .decode [] .space 0xA5 8)) = .next t
        ∧ t.rsp = some (responseWord (.okMsg ⟨1, 0xA5, 8, false⟩)))
      ∧ ∃ t, exec (.edge .mark 560) (withDec (cfgP refPdRepeat)
            { decoder .processRepeat [sp 40000, mk 9000, sp 2250] .space 0xA5 8 with lastMsg := ⟨1, 0xA5, 8, false⟩ }) = .next t
        ∧ t.rsp = some (responseWord (.okMsg ⟨1, 0xA5, 8, true⟩)) := ⟨⟨_, rfl, rfl⟩, ⟨_, rfl, rfl⟩⟩

theorem witness_NoPreambleEndsInDecode :
    refMan.preambleMark = 0 ∧ refMan.interpret = .reference ∧ refMan.demodRepeat = .absent
      ∧ ∃ t, exec (.edge .space 60000) (State.resetWith (cfgP refMan)) = .next t ∧ t.rsp = some (responseWord .okNone) :=
  ⟨rfl, rfl, rfl, ⟨_, rfl, rfl⟩⟩

/-- V-CU15 and V-CU14, V-CU26 and V-CU27. -/
theorem witness_CustomIdleAndBitMarkArms :
    (withCus .idle 0 7 0 0).fault = 0 ∧ (withCus .idle 0 7 0 0).cus.cState = .idle
      ∧ windowMatch 121 refCus.short.toNat refCus.delta.toNat = true
      ∧ windowMatch 120 refCus.short.toNat refCus.delta.toNat = false
      ∧ (withCus .bitMark 200 41 0 12).cus.cState = .bitMark := by decide

/-- V-CU19 to V-CU25, and the counter at its end. -/
theorem witness_CustomHeaderArm :
    (withCus .header 200 65535 0 0).fault = 0 ∧ (withCus .header 200 65535 0 0).cus.cState = .header
      ∧ windowMatch 200 refCus.short.toNat refCus.delta.toNat = true
      ∧ windowMatch 800 (4 * refCus.short.toNat) refCus.delta.toNat = true
      ∧ windowMatch 500 refCus.short.toNat refCus.delta.toNat = false
      ∧ windowMatch 500 (4 * refCus.short.toNat) refCus.delta.toNat = false
      ∧ (withCus .header 800 41 7 3).cus.cHdr.toNat = 41 ∧ (withCus .header 800 40 0 0).cus.cHdr.toNat = 40 := by decide

/-- The stop at its threshold with the minimum and one below it; below the threshold at the maximum and one below it, with each
pattern and with none (V-CU28 to V-CU37). -/
theorem witness_CustomDecisionArm :
    (withCus .bitSpace 200 41 1 55).fault = 0 ∧ (withCus .bitSpace 200 41 1 55).cus.cState = .bitSpace
      ∧ 10 * refCus.short.toNat + 2 * refCus.delta.toNat = 2160 ∧ refCus.minBits.toNat = 55 ∧ refCus.maxBits.toNat = 64
      ∧ (withCus .bitSpace 200 41 1 54).cus.cBits.toNat < refCus.minBits.toNat
      ∧ refCus.maxBits.toNat ≤ (withCus .bitSpace 200 41 1 64).cus.cBits.toNat
      ∧ (withCus .bitSpace 200 41 1 63).cus.cBits.toNat < refCus.maxBits.toNat
      ∧ windowMatch 200 refCus.short.toNat refCus.delta.toNat = true
      ∧ windowMatch 400 refCus.long.toNat refCus.delta.toNat = true
      ∧ windowMatch 200 refCus.long.toNat refCus.delta.toNat = false := by decide

theorem witness_ShiftRegisterTakesOneBit :
    (withCus .bitSpace 400 41 1 63).fault = 0 ∧ (withCus .bitSpace 400 41 1 254).cus.cBits ≠ 255 := by decide

theorem witness_HeaderPairsAreCounted :
    State.reset.fault = 0 ∧ State.reset.cus.cState = .idle ∧ durMatch 121 refCus.short.toNat refCus.delta = true
      ∧ durMatch 279 refCus.short.toNat refCus.delta = true ∧ 1 ≤ 65536 := by decide

theorem witness_CustomMessagesAreBounded :
    (withCus .bitSpace 200 41 0x7FFFFFFFFFFFFF 55).Inv
      ∧ ∃ t, exec (.cedge .space 2160) (withCus .bitSpace 200 41 0x7FFFFFFFFFFFFF 55) = .next t
        ∧ t.rsp = some (responseWord (.okMsg ⟨2, 0x7FFFFFFFFFFFFF, 55, false⟩)) := ⟨by decide, ⟨_, rfl, rfl⟩⟩

/-- 65 bits; a waveform one entry too long (V-EC10); one that fits exactly (V-EC9). -/
theorem witness_EncodeChecksThenFills :
    halted.fault ≠ 0 ∧ State.reset.fault = 0 ∧ 64 < (65 : BitVec 8).toNat ∧ (64 : BitVec 8).toNat ≤ 64
      ∧ 213 < 2 * refCus.encHdrPairs + 2 * (64 : BitVec 8).toNat + 4
      ∧ 2 * refCus.encHdrPairs + 2 * (64 : BitVec 8).toNat + 4 ≤ 214 := by decide

/-- REF-CUS-S with room for the longest waveform that an 8-bit count gives. -/
def cfgLong : Config := { cfgS with encCap := 518 }

/-- A waveform that fits exactly, one bit more than a code has, and the greatest count. -/
theorem witness_FillWritesTheWaveform :
    (State.resetWith cfgS).fault = 0 ∧ wfCustom refCusS = true
      ∧ 2 * refCusS.encHdrPairs + 2 * (4 : BitVec 8).toNat + 4 = cfgS.encCap
      ∧ 2 * refCusS.encHdrPairs + 2 * (65 : BitVec 8).toNat + 4 ≤ cfgLong.encCap
      ∧ 2 * refCusS.encHdrPairs + 2 * (255 : BitVec 8).toNat + 4 = cfgLong.encCap
      ∧ Memory.wf (State.resetWith cfgS).enc.ub = true := by decide

theorem witness_WaveformsAlternate : 64 ≤ 64 ∧ (0xFD : BitVec 64).toNat % 2 ^ 3 = (5 : BitVec 64).toNat % 2 ^ 3 := by decide

theorem witness_NextPullsInOrder :
    halted.fault ≠ 0 ∧ ({ State.reset with enc := ⟨[(0, mk 200)], 1, 0⟩ } : State).fault = 0 ∧ Memory.read 0 [(0, mk 200)] = some (mk 200)
      ∧ ({ State.reset with enc := ⟨[(0, mk 200)], 1, 0⟩ } : State).enc.encRd < 1 ∧ State.reset.enc.encWr ≤ State.reset.enc.encRd := by
  decide

theorem witness_DrainReturnsTheWaveform :
    ∃ t, exec (.enc 5 3) (State.resetWith cfgS) = .next t ∧ t.rsp = some (responseWord .okNone) := ⟨_, rfl, rfl⟩

/-- REF-CUS with its least and its greatest bit count. -/
theorem witness_EncodedFrameDecodesBack :
    wfCustom refCus = true ∧ RoundTripConditions refConfig 55 ∧ RoundTripConditions refConfig 64 ∧ State.reset.fault = 0
      ∧ State.reset.cus.cState = .idle := by decide

/-- The start Mark, the start Space, a payload Mark and the last payload Space of a 55-bit frame, corrupted. -/
theorem witness_CorruptedFrameGivesNoMessage :
    wfCustom refCus = true ∧ RoundTripConditions refConfig 55 ∧ 2 * refCus.encHdrPairs = 82 ∧ 82 + 2 + 2 * 55 = 194
      ∧ IllegalAt refCus 82 500 ∧ IllegalAt refCus 83 400 ∧ IllegalAt refCus 84 300 ∧ IllegalAt refCus 193 2159
      ∧ (waveform refCus 0 55)[82]? = some (mk 800) ∧ (waveform refCus 0 55)[193]? = some (sp 400) := by decide

end Sys2Proof.Tests
end

section
/-! PROOFS. What every run of the engine ends in: never a refusal, and no stop at all on a decoder that keeps the accumulator's
invariant (43_decode_engine R143 to R147, 44_demodulators R162). -/

namespace Sys2Proof.Machine

variable {α β : Type} {c : Config} {stop : Prop} {P : DecoderState → Prop}

/-! ### How a unit operation ends -/

/-- The operation is never refused; where it returns, `P` holds of the decoder; it raises or faults only if `stop` allows it.
With `stop` false it completes, and with `stop` true it is only never refused. -/
def UnitFlow.Meets (stop : Prop) (P : DecoderState → Prop) : UnitFlow α → Prop
  | .ret _ d => P d
  | .raised _ _ => stop
  | .fault _ => stop
  | .refused _ => False

theorem UnitFlow.Meets.bind {Q : DecoderState → Prop} {x : UnitFlow α} {k : α → DecoderState → UnitFlow β}
    (hx : x.Meets stop P) (hk : ∀ a d, x = .ret a d → P d → (k a d).Meets stop Q) : (x.bind k).Meets stop Q := by
  cases x with
  | ret a d => exact hk a d rfl hx
  | raised cause d => exact hx
  | fault f => exact hx
  | refused r => exact hx.elim

theorem UnitFlow.Meets.ne_refused {x : UnitFlow α} (hx : x.Meets stop P) (r : Refusal) : x ≠ .refused r := by
  rintro rfl
  exact hx

theorem UnitFlow.Meets.returns {x : UnitFlow α} (hx : x.Meets False P) : ∃ a d, x = .ret a d ∧ P d := by
  cases x with
  | ret a d => exact ⟨a, d, rfl, hx⟩
  | raised cause d => exact hx.elim
  | fault f => exact hx.elim
  | refused r => exact hx.elim

/-! ### The accumulator as the demodulators use it -/

/-- What the decoder's operations need of a predicate on the accumulator to keep it: it reads nothing else, `ACLR` keeps it, a
push inside the declared length or as the first bit keeps it, and the view can be read. -/
structure StoreRule (c : Config) (stop : Prop) (P : DecoderState → Prop) : Prop where
  congr : ∀ {d d' : DecoderState}, P d → (hacc : d'.acc = d.acc := by rfl) →
    (hcount : d'.accCount = d.accCount := by rfl) → P d'
  clear : ∀ {d : DecoderState}, P d → P (aClr d)
  push : ∀ (b : Bool) {d : DecoderState}, P d → d.accCount < c.p.bitLength ∨ d.accCount = 0 → (aPush c b d).Meets stop P
  view : ∀ {d : DecoderState}, P d → stop ∨ ∃ v, accView d = .ok v

/-- A cleared accumulator keeps its bytes and holds no bit (45_bit_accumulator R190). -/
theorem accumulatorInv_aClr {d : DecoderState} (h : AccumulatorInv c d) : AccumulatorInv c (aClr d) := by
  obtain ⟨-, hwf, hin, -, -⟩ := h
  exact ⟨Nat.zero_le _, hwf, hin, fun i hi => absurd hi (by simp [viewBytes]), fun hne => absurd rfl hne⟩

/-- The view of an accumulator in its invariant can be read (45_bit_accumulator R192). -/
theorem accView_of_inv {d : DecoderState} (h : AccumulatorInv c d) : ∃ v, accView d = .ok v := by
  obtain ⟨-, -, -, hfill, -⟩ := h
  obtain ⟨v, hv, -⟩ := Memory.readRun_filled hfill
  exact ⟨v, hv⟩

/-- Under a well-formed configuration the accumulator's invariant is kept and nothing stops (44_demodulators R162). -/
theorem storeRule_accumulatorInv (h1 : 1 ≤ c.p.bitLength) (h2 : c.p.bitLength ≤ 8 * c.accBytes) :
    StoreRule c False (AccumulatorInv c) where
  congr := by
    intro d d' h ha hn
    simpa only [AccumulatorInv, highBitsClear, ha, hn] using h
  clear := accumulatorInv_aClr
  push := by
    intro b d h hlt
    obtain ⟨d', hd', hinv, -⟩ := aPush_keeps b h2 h (by omega)
    rw [hd']
    exact hinv
  view := fun h => .inr (accView_of_inv h)

/-- Under any configuration and from any decoder a push is never refused. -/
theorem storeRule_true (c : Config) : StoreRule c True (fun _ => True) where
  congr := fun _ _ _ => trivial
  clear := fun _ => trivial
  push := by
    intro b d _ _
    rcases aPush_cases c b d with ⟨-, h⟩ | ⟨-, -, h⟩ | ⟨v, -, -, h⟩ <;> rw [h] <;> trivial
  view := fun _ => .inl trivial

/-! ### The demodulators -/

theorem dmPdLoop_meets (hR : StoreRule c stop P) (n : Nat) {d : DecoderState} (hd : P d) : (dmPdLoop c n d).Meets stop P := by
  induction n generalizing d with
  | zero => exact hd
  | succ n ih =>
    simp only [dmPdLoop]
    split
    · split
      · exact hd
      · split
        · exact hR.congr hd
        · exact hd
    · split
      · split
        · exact hd
        · exact (hR.push _ hd (.inl (by omega))).bind fun _ _ _ h' => ih (hR.congr h')
      · exact hd

theorem dmPwConsumed_meets (hR : StoreRule c stop P) {again : DecoderState → UnitFlow DemodStatus}
    (ha : ∀ {d}, P d → (again d).Meets stop P) {d : DecoderState} (hd : P d) : (dmPwConsumed c again d).Meets stop P := by
  unfold dmPwConsumed
  split
  · exact hR.congr hd
  · exact ha (hR.congr hd)

theorem dmPwLoop_meets (hR : StoreRule c stop P) (n : Nat) {d : DecoderState} (hd : P d) : (dmPwLoop c n d).Meets stop P := by
  induction n generalizing d with
  | zero => exact hd
  | succ n ih =>
    simp only [dmPwLoop]
    split
    · exact hd
    · split
      · split
        · exact hd
        · split
          · exact hd
          · exact (hR.push _ hd (.inl (by omega))).bind fun _ _ _ h' => dmPwConsumed_meets hR ih h'
      · split
        · exact dmPwConsumed_meets hR ih hd
        · exact hd

theorem manchSynthesize_meets (hR : StoreRule c stop P) {d : DecoderState} (hd : P d) :
    (manchSynthesize c d).Meets stop P := by
  unfold manchSynthesize
  split
  · rename_i hfirst
    rw [Bool.and_eq_true, decide_eq_true_eq] at hfirst
    exact hR.push _ (hR.congr hd) (.inr hfirst.2)
  · exact hd

theorem dmManLoop_meets (hR : StoreRule c stop P) (n : Nat) {d : DecoderState} (hd : P d) :
    (dmManLoop c n d).Meets stop P := by
  induction n generalizing d with
  | zero => exact hd
  | succ n ih =>
    simp only [dmManLoop]
    split
    · exact hd
    · split
      · exact hd
      · refine (manchSynthesize_meets hR hd).bind fun _ d1 _ h1 => ?_
        split
        · exact h1
        · rename_i hlt
          split
          · exact h1
          · exact ih (hR.congr h1)
          · have hready : P (consume 1 { d1 with sd := true }) := hR.congr h1
            refine (hR.push _ hready (.inl (Nat.lt_of_not_le hlt))).bind fun _ d2 _ h2 => ?_
            split
            · split <;> exact h2
            · exact ih h2

/-- Every demodulator, whichever `P.modulation` selects (44_demodulators R160, R162). -/
theorem demodulate_meets (hR : StoreRule c stop P) {d : DecoderState} (hd : P d) : (demodulate c d).Meets stop P := by
  unfold demodulate
  split
  · exact dmPdLoop_meets hR _ hd
  · exact dmPwLoop_meets hR _ hd
  · exact dmManLoop_meets hR _ hd

/-- On an empty buffer every demodulator waits (44_demodulators R161). -/
theorem demodulate_empty (c : Config) {d : DecoderState} (h : d.pbLen = 0) : demodulate c d = .ret .ok d := by
  unfold demodulate dmPd dmPw dmMan
  rw [h]
  split <;> rfl

/-! ### The arms of the engine -/

theorem armWaitPreamble_meets (hR : StoreRule c stop P) {d : DecoderState} (hd : P d) : (armWaitPreamble c d).Meets stop P := by
  obtain ⟨hframe, -⟩ := prDet_frame c.p d
  have hpr : P (prDet c.p d).2 := hR.congr hd (by rw [hframe]) (by rw [hframe])
  unfold armWaitPreamble
  split
  · exact hR.congr (hR.clear hpr)
  · exact hpr

theorem sRst_of_storeRule (hR : StoreRule c stop P) {d : DecoderState} (hd : P d) : P (sRst d) :=
  hR.congr (hR.clear hd)

theorem decodeReady_meets (hR : StoreRule c stop P) {d : DecoderState} (hd : P d) : (decodeReady c d).Meets stop P := by
  unfold decodeReady
  split
  · rename_i i hi
    rcases hR.view hd with hstop | ⟨v, hv⟩
    · exact hstop
    · rw [hv] at hi
      cases hi
  · split
    · exact hR.congr hd
    · exact sRst_of_storeRule hR hd

theorem armDecode_meets (hR : StoreRule c stop P) {d : DecoderState} (hd : P d) : (armDecode c d).Meets stop P := by
  unfold armDecode
  refine (demodulate_meets hR hd).bind fun st d' _ h' => ?_
  cases st with
  | ok => exact h'
  | ready => exact decodeReady_meets hR h'
  | error => exact hR.congr (sRst_of_storeRule hR h')

/-- The hook is called only where it is present, and never asks for more than there is (44_demodulators R172, 10_state R37). -/
theorem armProcessRepeat_meets (hR : StoreRule c stop P) {d : DecoderState} (hd : P d) :
    (armProcessRepeat c d).Meets stop P := by
  unfold armProcessRepeat
  split
  · exact hR.congr hd
  · rename_i hpresent
    rcases dmRpt_cases c.p d with ⟨habsent, -⟩ | ⟨st, k, -, -, h⟩
    · exact absurd habsent hpresent
    · rw [h, UnitFlow.bind_ret]
      have hk : P (consume k d) := hR.congr hd
      cases st with
      | ok => exact hk
      | ready => exact hR.congr hk
      | error => exact sRst_of_storeRule hR hk

theorem engineArm_meets (hR : StoreRule c stop P) {d : DecoderState} (hd : P d) : (engineArm c d).Meets stop P := by
  unfold engineArm
  split
  · exact armWaitPreamble_meets hR hd
  · exact armDecode_meets hR hd
  · exact armProcessRepeat_meets hR hd

/-! ### The measure of the engine loop (43_decode_engine R147) -/

/-- A bound on the arms still to run: at most two for each entry, and one, two or three for the way to a `return`. -/
def engineMeasure (d : DecoderState) : Nat :=
  match d.engState with
  | .decode => 2 * d.pbLen + 1
  | .waitPreamble => 2 * d.pbLen + 2
  | .processRepeat => 2 * d.pbLen + 3

theorem engineMeasure_pos (d : DecoderState) : 0 < engineMeasure d := by
  unfold engineMeasure
  split <;> omega

theorem engineMeasure_le_armBound (d : DecoderState) : engineMeasure d ≤ armBound d := by
  unfold engineMeasure armBound
  split <;> omega

theorem armWaitPreamble_again {d d' : DecoderState} (h : armWaitPreamble c d = .ret .again d') :
    d'.engState = .decode ∧ d'.pbLen ≤ d.pbLen := by
  obtain ⟨-, hsuffix⟩ := prDet_frame c.p d
  unfold armWaitPreamble at h
  split at h
  · cases h
    exact ⟨rfl, hsuffix.length_le⟩
  · cases h

/-- An `Error` of the demodulator costs at least one entry: on an empty buffer there is none, and with entries left one is
dropped (43_decode_engine R145). -/
theorem armDecode_again {d d' : DecoderState} (h : armDecode c d = .ret .again d') :
    d'.engState = .waitPreamble ∧ d'.pbLen < d.pbLen := by
  unfold armDecode at h
  obtain ⟨st, d1, hdem, h⟩ := UnitFlow.bind_eq_ret.mp h
  have hsuffix : (demodulate c d).Leaves (DemodFrame d) := demodulate_leaves c d
  rw [hdem] at hsuffix
  obtain ⟨-, hsuffix⟩ := hsuffix
  cases st with
  | ok => cases h
  | ready =>
    simp only [decodeReady] at h
    split at h
    · cases h
    · split at h <;> cases h
  | error =>
    cases h
    have hne : d.pbLen ≠ 0 := fun hempty => by
      rw [demodulate_empty c hempty] at hdem
      cases hdem
    have hlen : d1.pbLen ≤ d.pbLen := hsuffix.length_le
    exact ⟨rfl, by rw [decodeError, pbLen_consume, pbLen_sRst]; omega⟩

theorem armProcessRepeat_again {d d' : DecoderState} (h : armProcessRepeat c d = .ret .again d') :
    d'.engState = .waitPreamble ∧ d'.pbLen ≤ d.pbLen := by
  unfold armProcessRepeat at h
  split at h
  · cases h
    exact ⟨rfl, le_rfl⟩
  · rcases dmRpt_cases c.p d with ⟨-, hr⟩ | ⟨st, k, -, -, hr⟩
    · rw [hr] at h
      cases h
    · rw [hr, UnitFlow.bind_ret] at h
      cases st with
      | ok => cases h
      | ready => cases h
      | error =>
        cases h
        exact ⟨rfl, by rw [pbLen_sRst, pbLen_consume]; omega⟩

/-- Each arm that goes on brings the engine nearer to its end, under any configuration (43_decode_engine R147). -/
theorem engineArm_again {d d' : DecoderState} (h : engineArm c d = .ret .again d') : engineMeasure d' < engineMeasure d := by
  unfold engineArm at h
  cases hs : d.engState with
  | waitPreamble =>
    rw [hs] at h
    obtain ⟨hs', hlen⟩ := armWaitPreamble_again h
    simp only [engineMeasure, hs, hs']
    omega
  | decode =>
    rw [hs] at h
    obtain ⟨hs', hlen⟩ := armDecode_again h
    simp only [engineMeasure, hs, hs']
    omega
  | processRepeat =>
    rw [hs] at h
    obtain ⟨hs', hlen⟩ := armProcessRepeat_again h
    simp only [engineMeasure, hs, hs']
    omega

/-- A loop that may run as many arms as the measure says settles. -/
theorem engineLoop_meets (hR : StoreRule c stop P) {n : Nat} {d : DecoderState} (hn : engineMeasure d ≤ n) (hd : P d) :
    (engineLoop c n d).Meets stop P := by
  induction n generalizing d with
  | zero => exact absurd hn (Nat.not_le.mpr (engineMeasure_pos d))
  | succ n ih =>
    refine (engineArm_meets hR hd).bind fun r d' harm h' => ?_
    cases r with
    | done m => exact h'
    | again =>
      have hlt := engineArm_again harm
      exact ih (by omega) h'

theorem eRun_meets (hR : StoreRule c stop P) {d : DecoderState} (hd : P d) : (eRun c d).Meets stop P :=
  engineLoop_meets hR (engineMeasure_le_armBound d) hd

/-- From any decoder and under any configuration a run of the engine is never refused (43_decode_engine R147). -/
theorem eRun_ne_refused (c : Config) (d : DecoderState) (r : Refusal) : eRun c d ≠ .refused r :=
  (eRun_meets (storeRule_true c) (d := d) trivial).ne_refused r

end Sys2Proof.Machine
end

section
/-! PROOFS. The step of the block: what it runs, when it is refused, and that it completes (00_scope R6 to R8, R14). -/

namespace Sys2Proof.Machine

/-! ### The step, case by case -/

theorem step_of_inbox_nil {s : State} (hwf : s.cfg.wf = true) (h : s.inbox = []) : step s = .next s := by
  unfold step takeEvent
  rw [if_pos hwf, h]

theorem step_of_inbox_cons {s : State} {e : Event} {rest : List Event} (hwf : s.cfg.wf = true) (h : s.inbox = e :: rest) :
    step s = runEvent e { s with inbox := rest } := by
  unfold step takeEvent
  rw [if_pos hwf, h]

theorem step_of_not_wf {s : State} (hwf : s.cfg.wf = false) : step s = .refused .illFormedConfig := by
  unfold step takeEvent
  rw [hwf]
  rfl

theorem runEvent_of_decode {e : Event} {i : Instr} (h : decode e = .ok i) (s : State) : runEvent e s = exec i s := by
  cases e with
  | command w =>
    rw [decode] at h
    simp only [runEvent, runCommandWord, h]
  | call c =>
    rw [decode] at h
    simp only [runEvent, runCall, h]
  | reset => cases h

/-- Settles O9, by the step's equation for an event taken and the event's own decoding. -/
theorem stepRunsTheDecodedInstruction : Obligations.StepRunsTheDecodedInstruction := by
  intro s hwf
  exact ⟨fun e rest i hinbox hdec => (step_of_inbox_cons hwf hinbox).trans (runEvent_of_decode hdec _),
    step_of_inbox_nil hwf⟩

/-! ### The configurations that are refused -/

theorem wfGeneric_eq_false_iff (accBytes : Nat) (p : GenericDescriptor) :
    wfGeneric accBytes p = false ↔
      p.bitLength < 1 ∨ 8 * accBytes < p.bitLength
        ∨ (p.modulation = .man ∧ p.bit1Mark.toNat < 2 * p.bitTol.toNat)
        ∨ (p.modulation = .man ∧ p.manchStartFromSpace = true ∧ p.bitLength < 2) := by
  simp only [wfGeneric, Bool.and_eq_false_iff, Bool.or_eq_false_iff, Bool.not_eq_false', decide_eq_false_iff_not,
    decide_eq_true_eq, Nat.not_le, and_or_left, or_assoc]

theorem wfCustom_eq_false_iff (q : CustomDescriptor) :
    wfCustom q = false ↔
      64 < q.maxBits.toNat ∨ q.maxBits.toNat < q.minBits.toNat ∨ 2 ^ 32 ≤ 4 * q.short.toNat := by
  simp only [wfCustom, Bool.and_eq_false_iff, decide_eq_false_iff_not, Nat.not_le, Nat.not_lt, or_assoc]
  rfl

theorem config_wf_eq_false_iff (c : Config) :
    c.wf = false ↔ c.pbCap < 2 ∨ c.encCap < 1 ∨ wfGeneric c.accBytes c.p = false ∨ wfCustom c.q = false := by
  simp only [Config.wf, wfConfig, Bool.and_eq_false_iff, decide_eq_false_iff_not, Nat.not_le, or_assoc]

/-! ### No instruction is refused for its configuration -/

variable {r : Refusal} {s : State}

theorem command_ne_refused {body : Out} (h : body ≠ .refused r) : command s body ≠ .refused r := by
  unfold command
  split
  · exact h
  · nofun

theorem microCall_ne_refused {body : Out} (h : body ≠ .refused r) : microCall s body ≠ .refused r := by
  unfold microCall
  split
  · exact h
  · nofun

theorem finishEdge_ne_refused {x : UnitFlow (Option Message)} (h : x ≠ .refused r) : finishEdge s x ≠ .refused r := by
  cases x with
  | ret m d => nofun
  | raised cause d => nofun
  | fault f => nofun
  | refused r' => exact fun h' => h (by cases h'; rfl)

theorem microCall_finishCall_ne_refused {α : Type} {value : α → ReturnValue} {x : UnitFlow α} (h : x ≠ .refused r) :
    microCall s (finishCall s value x) ≠ .refused r := by
  refine microCall_ne_refused ?_
  cases x with
  | ret a d => nofun
  | raised cause d => nofun
  | fault f => nofun
  | refused r' => exact fun h' => h (by cases h'; rfl)

theorem pbPush_ne_refused (c : Config) (l : Level) (t : Dur) (d : DecoderState) (r : Refusal) :
    pbPush c l t d ≠ .refused r := by
  rcases pbPush_cases c l t d with ⟨-, h⟩ | ⟨-, h⟩ <;> rw [h] <;> nofun

theorem edge_ne_refused (c : Config) (l : Level) (t : Dur) (d : DecoderState) (r : Refusal) : edge c l t d ≠ .refused r := by
  unfold edge
  rcases pbPush_cases c l t { sameLevelReset l d with lastLevel := l } with ⟨-, h⟩ | ⟨-, h⟩ <;> rw [h]
  · nofun
  · exact eRun_ne_refused c _ r

theorem pullSample_ne_refused (s : State) (r : Refusal) : pullSample s ≠ .refused r := by
  unfold pullSample
  split
  · split <;> nofun
  · nofun

/-- The meanings compute under any configuration; only the step refuses one (log entry 6). -/
theorem exec_ne_illFormedConfig (i : Instr) (s : State) : exec i s ≠ .refused .illFormedConfig := by
  have hR := storeRule_true s.cfg
  cases i with
  | drst => exact command_ne_refused nofun
  | edge level duration => exact command_ne_refused (finishEdge_ne_refused (edge_ne_refused _ _ _ _ _))
  | crst => exact command_ne_refused nofun
  | cedge level duration => exact command_ne_refused nofun
  | erst => exact command_ne_refused nofun
  | enc code bitCount => exact command_ne_refused nofun
  | next => exact command_ne_refused (pullSample_ne_refused s _)
  | matchOp measured expected tolerance => exact microCall_ne_refused nofun
  | pbpush level duration => exact microCall_finishCall_ne_refused (pbPush_ne_refused _ _ _ _ _)
  | pbcons k =>
    refine microCall_finishCall_ne_refused ?_
    rcases pbCons_cases k s.dec with ⟨-, h⟩ | ⟨-, h⟩ <;> rw [h] <;> nofun
  | pbclr => exact microCall_finishCall_ne_refused nofun
  | pblvl => exact microCall_finishCall_ne_refused nofun
  | prdet => exact microCall_finishCall_ne_refused nofun
  | frst => exact microCall_finishCall_ne_refused nofun
  | srst => exact microCall_finishCall_ne_refused nofun
  | erun => exact microCall_finishCall_ne_refused (eRun_ne_refused _ _ _)
  | dmpd => exact microCall_finishCall_ne_refused ((dmPdLoop_meets hR _ trivial).ne_refused _)
  | dmpw => exact microCall_finishCall_ne_refused ((dmPwLoop_meets hR _ trivial).ne_refused _)
  | dmman => exact microCall_finishCall_ne_refused ((dmManLoop_meets hR _ trivial).ne_refused _)
  | dmrpt =>
    refine microCall_finishCall_ne_refused ?_
    rcases dmRpt_cases s.cfg.p s.dec with ⟨-, h⟩ | ⟨st, k, -, -, h⟩ <;> rw [h] <;> nofun
  | aclr => exact microCall_finishCall_ne_refused nofun
  | apush bit =>
    refine microCall_finishCall_ne_refused ?_
    rcases aPush_cases s.cfg bit s.dec with ⟨-, h⟩ | ⟨-, -, h⟩ | ⟨v, -, -, h⟩ <;> rw [h] <;> nofun
  | cbit bit => exact microCall_ne_refused nofun
  | efill code bitCount =>
    refine microCall_ne_refused ?_
    split <;> nofun

theorem runEvent_ne_illFormedConfig (e : Event) (s : State) : runEvent e s ≠ .refused .illFormedConfig := by
  cases e with
  | command w =>
    simp only [runEvent, runCommandWord]
    split
    · exact exec_ne_illFormedConfig _ s
    · nofun
  | reset => nofun
  | call c =>
    simp only [runEvent, runCall]
    split
    · exact exec_ne_illFormedConfig _ s
    · nofun

theorem step_illFormedConfig_iff (s : State) : step s = .refused .illFormedConfig ↔ s.cfg.wf = false := by
  refine ⟨fun h => ?_, step_of_not_wf⟩
  rw [← Bool.not_eq_true]
  intro hwf
  cases hinbox : s.inbox with
  | nil =>
    rw [step_of_inbox_nil hwf hinbox] at h
    cases h
  | cons e rest =>
    rw [step_of_inbox_cons hwf hinbox] at h
    exact runEvent_ne_illFormedConfig _ _ h

/-- Settles O10: the step refuses exactly the configurations that are not well-formed, since no meaning refuses for that reason,
and each conjunct of well-formedness fails exactly when its check does. -/
theorem illFormedConfigurationIsRefused : Obligations.IllFormedConfigurationIsRefused := by
  intro s
  rw [step_illFormedConfig_iff, config_wf_eq_false_iff, wfGeneric_eq_false_iff, wfCustom_eq_false_iff]
  simp only [or_assoc]

/-! ### Every step completes -/

theorem command_completes {body : Out} (h : ∃ t, body = .next t) : ∃ t, command s body = .next t := by
  unfold command
  split
  · exact h
  · exact ⟨_, rfl⟩

/-- The bounds on the declared length that a well-formed configuration gives (00_scope R7). -/
theorem bitLength_bounds_of_wf {c : Config} (h : c.wf = true) : 1 ≤ c.p.bitLength ∧ c.p.bitLength ≤ 8 * c.accBytes := by
  simp only [Config.wf, wfConfig, wfGeneric, Bool.and_eq_true, decide_eq_true_eq] at h
  obtain ⟨⟨-, ⟨hlow, hhigh⟩, -⟩, -⟩ := h
  exact ⟨hlow, hhigh⟩

/-- On a configured decoder a run of the engine returns and keeps the accumulator's invariant (43_decode_engine R147). -/
theorem eRun_completes {c : Config} (hwf : c.wf = true) {d : DecoderState} (hd : AccumulatorInv c d) :
    ∃ m d', eRun c d = .ret m d' ∧ AccumulatorInv c d' := by
  obtain ⟨hlow, hhigh⟩ := bitLength_bounds_of_wf hwf
  exact (eRun_meets (storeRule_accumulatorInv hlow hhigh) hd).returns

theorem accumulatorInv_sameLevelReset {c : Config} {d : DecoderState} (level : Level) (hd : AccumulatorInv c d) :
    AccumulatorInv c (sameLevelReset level d) := by
  unfold sameLevelReset
  split
  · exact accumulatorInv_aClr (d := d) hd
  · exact hd

/-- An `EDGE` either raises `PB_OVF` at its push or runs the engine to its end; both are answered (43_decode_engine R140). -/
theorem finishEdge_edge_completes (hwf : s.cfg.wf = true) (hd : AccumulatorInv s.cfg s.dec) (level : Level) (duration : Dur) :
    ∃ t, finishEdge s (edge s.cfg level duration s.dec) = .next t := by
  unfold edge
  rcases pbPush_cases s.cfg level duration { sameLevelReset level s.dec with lastLevel := level } with
    ⟨-, hpush⟩ | ⟨-, hpush⟩ <;> rw [hpush]
  · exact ⟨_, rfl⟩
  · have hinv := accumulatorInv_sameLevelReset level hd
    rw [UnitFlow.bind_ret]
    obtain ⟨m, d', hrun, -⟩ := eRun_completes (d := { sameLevelReset level s.dec with
      lastLevel := level, pb := (sameLevelReset level s.dec).pb ++ [⟨level, duration⟩] }) hwf hinv
    exact ⟨_, congrArg (finishEdge s) hrun⟩

/-- Every entry below the write cursor can be pulled (47_waveform_encoder R224). -/
theorem pullSample_completes (h : EncoderInv s.cfg s.enc) : ∃ t, pullSample s = .next t := by
  obtain ⟨-, -, -, -, hfill⟩ := h
  unfold pullSample
  split
  · rename_i hlt
    obtain ⟨e, he⟩ := Option.isSome_iff_exists.mp (hfill _ hlt)
    rw [he]
    exact ⟨_, rfl⟩
  · exact ⟨_, rfl⟩

/-- Every command of a configured block in its invariant is answered, halted or not (00_scope R14). -/
theorem exec_command_completes (hwf : s.cfg.wf = true) (hacc : AccumulatorInv s.cfg s.dec) (henc : EncoderInv s.cfg s.enc)
    {i : Instr} (hi : i.isCommand = true) : ∃ t, exec i s = .next t := by
  cases i with
  | drst => exact command_completes ⟨_, rfl⟩
  | edge level duration => exact command_completes (finishEdge_edge_completes hwf hacc level duration)
  | crst => exact command_completes ⟨_, rfl⟩
  | cedge level duration => exact command_completes ⟨_, rfl⟩
  | erst => exact command_completes ⟨_, rfl⟩
  | enc code bitCount => exact command_completes ⟨_, rfl⟩
  | next => exact command_completes (pullSample_completes henc)
  | _ => cases hi

/-- The command port decodes to commands only, never to a micro-operation (30_encoding R90, R91). -/
theorem isCommand_of_decodeWord {w : CommandWord} {i : Instr} (h : decodeWord w = .ok i) : i.isCommand = true := by
  simp only [decodeWord, decodeFormatZ, decodeFormatS, decodeFormatK] at h
  split_ifs at h <;> cases h <;> rfl

/-- Settles O19: the host presents words and resets only; a reset and an illegal word are answered from any state, and a
command completes because the engine settles and every entry it reads is filled. -/
theorem everyStepCompletes : Obligations.EveryStepCompletes := by
  rintro s hwf ⟨⟨-, hacc, -⟩, -, -, henc, -, hhost⟩
  cases hinbox : s.inbox with
  | nil => exact ⟨s, step_of_inbox_nil hwf hinbox⟩
  | cons e rest =>
    rw [step_of_inbox_cons hwf hinbox]
    cases e with
    | reset => exact ⟨_, rfl⟩
    | call c => simp [HostOnly, hinbox, Event.fromHost] at hhost
    | command w =>
      simp only [runEvent, runCommandWord]
      cases hdec : decodeWord w with
      | error e => exact ⟨_, rfl⟩
      | ok i => exact exec_command_completes (s := { s with inbox := rest }) hwf hacc henc (isCommand_of_decodeWord hdec)

end Sys2Proof.Machine
end

section
/-! PROOFS. The levels of the pulse buffer and what `EDGE` keeps of the generic decoder (10_state R40, 41_pulse_buffer R123,
43_decode_engine R140 to R149). -/

namespace Sys2Proof.Machine

variable {c : Config} {d d' : DecoderState}

/-! ### Alternating levels -/

theorem alternates_iff_isChain (l : List Sample) :
    alternates l = true ↔ l.IsChain (fun a b => a.level ≠ b.level) := by
  induction l with
  | nil => simp [alternates]
  | cons a l ih =>
    cases l with
    | nil => simp [alternates]
    | cons b rest => rw [alternates, Bool.and_eq_true, bne_iff_ne, ih, List.isChain_cons_cons]

theorem newestAgrees_iff (d : DecoderState) :
    newestAgrees d = true ↔ ∀ e ∈ d.pb.getLast?, e.level = d.lastLevel := by
  unfold newestAgrees
  cases d.pb.getLast? <;> simp

/-- Under alternation the newest level and the length give the level of the front entry (41_pulse_buffer R123). -/
theorem front_level_of_isChain {e : Sample} {rest : List Sample} {l : Level}
    (halt : (e :: rest).IsChain (fun a b => a.level ≠ b.level)) (hlast : ∀ f ∈ (e :: rest).getLast?, f.level = l) :
    e.level = (l ^^ decide (rest.length % 2 = 1)) := by
  induction rest generalizing e with
  | nil => simpa using hlast
  | cons b rest ih =>
    obtain ⟨hne, hrest⟩ := List.isChain_cons_cons.mp halt
    have hb : b.level = (l ^^ decide (rest.length % 2 = 1)) := ih hrest (by simpa using hlast)
    have hparity : decide ((b :: rest).length % 2 = 1) = !decide (rest.length % 2 = 1) := by
      rw [List.length_cons, ← decide_not, decide_eq_decide]
      omega
    rw [hparity, Bool.xor_not, ← hb]
    exact Bool.eq_not.mpr hne

/-- The inferred level of a buffer whose levels alternate is its front entry's (41_pulse_buffer R123). -/
theorem frontLevel_of_levelsInv {e : Sample} {rest : List Sample} (hpb : d.pb = e :: rest) (h : LevelsInv d) :
    frontLevel d = e.level := by
  obtain ⟨halt, hnew⟩ := h
  rw [alternates_iff_isChain, hpb] at halt
  rw [newestAgrees_iff, hpb] at hnew
  rw [front_level_of_isChain halt hnew, frontLevel, inferredFrontLevel, DecoderState.pbLen, hpb, List.length_cons,
    Nat.add_sub_cancel]

/-- Consuming from the front keeps the levels as they are (10_state R40 (b)). -/
theorem levelsInv_of_engineFrame (h : LevelsInv d) (hf : EngineFrame d d') : LevelsInv d' := by
  obtain ⟨halt, hnew⟩ := h
  obtain ⟨hlast, hsuffix⟩ := hf
  rw [alternates_iff_isChain] at halt
  rw [newestAgrees_iff] at hnew
  refine ⟨(alternates_iff_isChain _).mpr (halt.suffix hsuffix), (newestAgrees_iff _).mpr fun e he => ?_⟩
  obtain ⟨consumed, hpb⟩ := hsuffix
  rw [hlast]
  refine hnew e ?_
  rw [← hpb, List.getLast?_append, Option.mem_def.mp he]
  rfl

/-! ### The sample of an `EDGE` -/

/-- The decoder that an `EDGE` pushes into: force-reset on a repeated level, and the level taken over (43_decode_engine R140). -/
def observe (level : Level) (d : DecoderState) : DecoderState := { sameLevelReset level d with lastLevel := level }

theorem edge_eq (c : Config) (level : Level) (duration : Dur) (d : DecoderState) :
    edge c level duration d = (pbPush c level duration (observe level d)).bind (fun _ d' => eRun c d') := rfl

theorem observe_same {level : Level} (h : level = d.lastLevel) : observe level d = { fRst d with lastLevel := level } := by
  rw [observe, sameLevelReset, if_pos h]

theorem observe_other {level : Level} (h : level ≠ d.lastLevel) : observe level d = { d with lastLevel := level } := by
  rw [observe, sameLevelReset, if_neg h]

/-- A sample pushed after `observe` alternates with what is left in the buffer, and is the newest (10_state R40 (b)). -/
theorem levelsInv_push_observe (level : Level) (duration : Dur) (h : LevelsInv d) :
    LevelsInv { observe level d with pb := (observe level d).pb ++ [⟨level, duration⟩] } := by
  by_cases hsame : level = d.lastLevel
  · rw [observe_same hsame]
    exact ⟨rfl, (newestAgrees_iff _).mpr (by simp)⟩
  · obtain ⟨halt, hnew⟩ := h
    rw [newestAgrees_iff] at hnew
    rw [observe_other hsame]
    refine ⟨(alternates_iff_isChain _).mpr (List.isChain_append.mpr ⟨(alternates_iff_isChain _).mp halt, .singleton _, ?_⟩),
      (newestAgrees_iff _).mpr (by simp)⟩
    rintro x hx y hy
    obtain rfl : (⟨level, duration⟩ : Sample) = y := by simpa using hy
    rw [hnew x hx]
    exact Ne.symm hsame

/-! ### A decoder that may repeat a message holds one of its own protocol -/

/-- The clause of `DecoderInv` on the last message (43_decode_engine R149 (c)). -/
def OwnRepeat (c : Config) (d : DecoderState) : Prop := d.engState = .processRepeat → d.lastMsg.protocolId = c.p.protocolId

theorem ownRepeat_of_engState_ne (h : d.engState ≠ .processRepeat) : OwnRepeat c d := fun hs => absurd hs h

theorem OwnRepeat.congr (h : OwnRepeat c d) (hs : d'.engState = d.engState) (hm : d'.lastMsg = d.lastMsg) : OwnRepeat c d' := by
  unfold OwnRepeat
  rw [hs, hm]
  exact h

theorem OwnRepeat.demodFrame (h : OwnRepeat c d) (hf : DemodFrame d d') : OwnRepeat c d' := by
  obtain ⟨heq, -⟩ := hf
  exact h.congr (by rw [heq]) (by rw [heq])

theorem armWaitPreamble_ownRepeat (h : OwnRepeat c d) : (armWaitPreamble c d).Leaves (OwnRepeat c) := by
  obtain ⟨hframe, -⟩ := prDet_frame c.p d
  unfold armWaitPreamble
  split
  · exact ownRepeat_of_engState_ne nofun
  · exact h.congr (by rw [hframe]) (by rw [hframe])

/-- A fresh message carries the descriptor's identifier; a rejected one leaves the repeat state (43_decode_engine R145). -/
theorem decodeReady_ownRepeat (c : Config) (d : DecoderState) : (decodeReady c d).Leaves (OwnRepeat c) := by
  unfold decodeReady
  split
  · trivial
  · split
    · exact fun _ => rfl
    · exact ownRepeat_of_engState_ne nofun

theorem armDecode_ownRepeat (h : OwnRepeat c d) : (armDecode c d).Leaves (OwnRepeat c) := by
  unfold armDecode
  refine ((demodulate_leaves c d).mono fun _ => h.demodFrame).bind fun st d' h' => ?_
  cases st with
  | ok => exact h'
  | ready => exact decodeReady_ownRepeat c d'
  | error => exact ownRepeat_of_engState_ne nofun

/-- A repeat message differs from the last one in its repeat flag only (43_decode_engine R146). -/
theorem armProcessRepeat_ownRepeat (h : OwnRepeat c d) : (armProcessRepeat c d).Leaves (OwnRepeat c) := by
  unfold armProcessRepeat
  split
  · exact ownRepeat_of_engState_ne nofun
  · rcases dmRpt_cases c.p d with ⟨-, hr⟩ | ⟨st, k, -, -, hr⟩ <;> rw [hr]
    · trivial
    · cases st with
      | ok => exact h
      | ready => exact h
      | error => exact ownRepeat_of_engState_ne nofun

theorem engineLoop_ownRepeat (n : Nat) (h : OwnRepeat c d) : (engineLoop c n d).Leaves (OwnRepeat c) := by
  induction n generalizing d with
  | zero => trivial
  | succ n ih =>
    have harm : (engineArm c d).Leaves (OwnRepeat c) := by
      unfold engineArm
      split
      · exact armWaitPreamble_ownRepeat h
      · exact armDecode_ownRepeat h
      · exact armProcessRepeat_ownRepeat h
    refine harm.bind fun r d' h' => ?_
    cases r with
    | again => exact ih h'
    | done m => exact h'

/-! ### The decoder's invariant -/

theorem pbLen_le_of_engineFrame (hf : EngineFrame d d') : d'.pbLen ≤ d.pbLen := hf.2.length_le

/-- A run of the engine on a configured decoder returns and keeps both parts of its invariant (10_state R40, 43_decode_engine
R147). -/
theorem eRun_keeps (hwf : c.wf = true) (hd : DecoderInv c d) (hl : LevelsInv d) :
    ∃ m d', eRun c d = .ret m d' ∧ DecoderInv c d' ∧ LevelsInv d' := by
  obtain ⟨hlen, hacc, hown⟩ := hd
  obtain ⟨m, d', hrun, hacc'⟩ := eRun_completes hwf hacc
  have hframe : (eRun c d).Leaves (EngineFrame d) := eRun_leaves c d
  have hown' : (eRun c d).Leaves (OwnRepeat c) := engineLoop_ownRepeat _ hown
  rw [hrun] at hframe hown'
  exact ⟨m, d', hrun, ⟨(pbLen_le_of_engineFrame hframe).trans hlen, hacc', hown'⟩, levelsInv_of_engineFrame hl hframe⟩

theorem decoderInv_dRst (h : DecoderInv c d) : DecoderInv c (dRst d) := by
  obtain ⟨-, hacc, -⟩ := h
  exact ⟨Nat.zero_le _, accumulatorInv_aClr (d := d) hacc, ownRepeat_of_engState_ne nofun⟩

theorem levelsInv_of_pb_nil (h : d.pb = []) : LevelsInv d := by
  rw [LevelsInv, newestAgrees, h]
  exact ⟨rfl, rfl⟩

theorem decoderInv_observe (level : Level) (h : DecoderInv c d) : DecoderInv c (observe level d) := by
  obtain ⟨hlen, hacc, hown⟩ := h
  by_cases hsame : level = d.lastLevel
  · rw [observe_same hsame]
    exact ⟨Nat.zero_le _, accumulatorInv_aClr (d := d) hacc, ownRepeat_of_engState_ne nofun⟩
  · rw [observe_other hsame]
    exact ⟨hlen, hacc, hown⟩

/-- `EDGE` on a configured decoder raises `PB_OVF` at its push, where only the levels may stop agreeing, or returns with the
whole invariant kept (10_state R40, 43_decode_engine R140). -/
theorem edge_keeps (hwf : c.wf = true) (hd : DecoderInv c d) (hl : LevelsInv d) (level : Level) (duration : Dur) :
    (∃ d', edge c level duration d = .raised .pbOvf d' ∧ DecoderInv c d')
      ∨ ∃ m d', edge c level duration d = .ret m d' ∧ DecoderInv c d' ∧ LevelsInv d' := by
  have hobs := decoderInv_observe level hd
  rw [edge_eq]
  rcases pbPush_cases c level duration (observe level d) with ⟨-, hpush⟩ | ⟨hroom, hpush⟩ <;> rw [hpush]
  · exact .inl ⟨_, rfl, hobs⟩
  · obtain ⟨-, hacc, hown⟩ := hobs
    refine .inr (eRun_keeps hwf ⟨?_, hacc, hown⟩ (levelsInv_push_observe level duration hl))
    simpa [DecoderState.pbLen] using hroom

end Sys2Proof.Machine
end

section
/-! PROOFS. What `CEDGE` keeps of the custom machine, and how it counts header pairs (46_custom_fsm R200 to R205, R210). -/

namespace Sys2Proof.Machine

variable {q : CustomDescriptor} {m : CustomState}

/-! ### The invariant of the custom machine, arm by arm -/

/-- What an arm that leaves the shift register and the header counter alone must check (46_custom_fsm R210 (c)). -/
theorem CustomInv.of_registers {m' : CustomState} (h : CustomInv q m) (hbits : m'.cBits = m.cBits) (hcode : m'.cCode = m.cCode)
    (hhdr : m'.cState = .bitMark ∨ m'.cState = .bitSpace → hdrMin < m'.cHdr.toNat) : CustomInv q m' := by
  obtain ⟨hmax, hwidth, -⟩ := h
  rw [CustomInv, hbits, hcode]
  exact ⟨hmax, hwidth, hhdr⟩

theorem customInv_toIdle (h : CustomInv q m) : CustomInv q (toIdle m) := h.of_registers rfl rfl (by simp)

/-- An empty shift register is within every bound (46_custom_fsm R202, R204). -/
theorem customInv_of_empty (hbits : m.cBits = 0) (hcode : m.cCode = 0)
    (hhdr : m.cState = .bitMark ∨ m.cState = .bitSpace → hdrMin < m.cHdr.toNat) : CustomInv q m := by
  rw [CustomInv, hbits, hcode]
  exact ⟨Nat.zero_le _, Nat.one_pos, hhdr⟩

theorem customInv_arm0 (level : Level) (d : Dur) (h : CustomInv q m) : CustomInv q (arm0 q level d m) := by
  unfold arm0
  split
  · exact h.of_registers rfl rfl (by simp)
  · exact h

theorem customInv_startBit (h : CustomInv q m) : CustomInv q (startBit m) := by
  unfold startBit
  split
  · rename_i hcount
    exact customInv_of_empty rfl rfl fun _ => hcount
  · exact customInv_toIdle h

theorem customInv_arm1 (level : Level) (d : Dur) (h : CustomInv q m) (hs : m.cState = .header) :
    CustomInv q (arm1 q level d m) := by
  unfold arm1 arm1Mark arm1Space
  split
  · split
    · exact h.of_registers rfl rfl (by simp [hs])
    · exact customInv_toIdle h
  · split
    · split
      · exact h.of_registers rfl rfl (by simp [hs])
      · split
        · exact customInv_startBit h
        · exact customInv_toIdle h
    · exact customInv_toIdle h

theorem customInv_arm2 (level : Level) (d : Dur) (h : CustomInv q m) (hs : m.cState = .bitMark) :
    CustomInv q (arm2 level d m) := by
  have ⟨_, _, hhdr⟩ := h
  unfold arm2
  split
  · exact h.of_registers rfl rfl fun _ => hhdr (.inl hs)
  · exact customInv_toIdle h

/-- One more bit fits one more place of the shift register (46_custom_fsm R205). -/
theorem cBit_cCode_lt (b : Bool) {n : Nat} (h : m.cCode.toNat < 2 ^ n) : (cBit b m).cCode.toNat < 2 ^ (n + 1) := by
  rw [cBit_cCode, BitVec.toNat_or, BitVec.toNat_shiftLeft]
  refine Nat.or_lt_two_pow ?_ ?_
  · calc m.cCode.toNat <<< 1 % 2 ^ 64 ≤ m.cCode.toNat <<< 1 := Nat.mod_le _ _
      _ = 2 * m.cCode.toNat := by rw [Nat.shiftLeft_eq]; omega
      _ < 2 ^ (n + 1) := by omega
  · have hbit : ((BitVec.ofBool b).setWidth 64).toNat ≤ 1 := by cases b <;> decide
    have hpow : 0 < 2 ^ n := Nat.two_pow_pos n
    omega

/-- A bit is taken only below the greatest count (46_custom_fsm R204, R205). -/
theorem customInv_bitPair (d : Dur) (h : CustomInv q m) (hs : m.cState = .bitSpace) : CustomInv q (bitPair q d m) := by
  have ⟨_, hwidth, hhdr⟩ := h
  unfold bitPair
  split
  · exact customInv_toIdle h
  · rename_i b _
    split
    · exact customInv_toIdle h
    · rename_i hroom
      have hcount : (cBit b m).cBits.toNat = m.cBits.toNat + 1 := by
        refine bumpBits_toNat fun hfull => ?_
        rw [hfull] at hroom
        exact hroom (Nat.le_of_lt_succ q.maxBits.isLt)
      have hmax : (cBit b m).cBits.toNat ≤ q.maxBits.toNat := by omega
      have hcode : (cBit b m).cCode.toNat < 2 ^ (cBit b m).cBits.toNat := hcount ▸ cBit_cCode_lt b hwidth
      exact ⟨hmax, hcode, fun _ => hhdr (.inr hs)⟩

theorem customInv_arm3 (level : Level) (d : Dur) (h : CustomInv q m) (hs : m.cState = .bitSpace) :
    CustomInv q (arm3 q level d m).1 := by
  unfold arm3
  split
  · exact customInv_toIdle h
  · split
    · unfold stopFrame
      split <;> exact customInv_of_empty rfl rfl (by simp)
    · exact customInv_bitPair d h hs

/-- `CEDGE` keeps the custom machine's invariant (10_state R40 (e), 46_custom_fsm R200, R210 (c)). -/
theorem customInv_cEdge (level : Level) (d : Dur) (h : CustomInv q m) : CustomInv q (cEdge q level d m).1 := by
  unfold cEdge
  split
  · exact customInv_arm0 level d h
  · exact customInv_arm1 level d h ‹_›
  · exact customInv_arm2 level d h ‹_›
  · exact customInv_arm3 level d h ‹_›

/-! ### Header pairs -/

/-- The custom machine after `n` header pairs of the given Mark (46_custom_fsm R202). -/
def afterPairs (mark : Dur) (n : Nat) (m : CustomState) : CustomState :=
  { m with cState := .header, cLast := mark, cHdr := BitVec.ofNat 16 (min n 65535) }

theorem bumpHdr_ofNat (n : Nat) : bumpHdr (BitVec.ofNat 16 (min n 65535)) = BitVec.ofNat 16 (min (n + 1) 65535) := by
  rw [bumpHdr, hdrMax, BitVec.toNat_ofNat]
  congr 1
  omega

variable {mark space : Dur}

theorem cEdge_idle_short_mark (hmark : CustomTiming.isShort q mark = true) (hs : m.cState = .idle) :
    cEdge q .mark mark m = (afterPairs mark 0 m, none) := by
  simp [cEdge, hs, arm0, hmark, afterPairs]

theorem cEdge_header_short_mark (hmark : CustomTiming.isShort q mark = true) (n : Nat) :
    cEdge q .mark mark (afterPairs mark n m) = (afterPairs mark n m, none) := by
  simp [cEdge, afterPairs, arm1, arm1Mark, hmark]

theorem cEdge_header_short_space (hmark : CustomTiming.isShort q mark = true) (hspace : CustomTiming.isShort q space = true)
    (n : Nat) : cEdge q .space space (afterPairs mark n m) = (afterPairs mark (n + 1) m, none) := by
  simp [cEdge, afterPairs, arm1, arm1Space, hmark, hspace, bumpHdr_ofNat]

/-- A `CEDGE` that completes no frame is answered `OK_NONE` (46_custom_fsm R200). -/
theorem exec_cedge_of_none {s : State} {level : Level} {d : Dur} {m' : CustomState} (hf : s.fault = 0)
    (h : cEdge s.cfg.q level d s.cus = (m', none)) :
    exec (.cedge level d) s = .next (respond .okNone { s with cus := m' }) := by
  change command s _ = _
  rw [command_running hf, h]
  rfl

/-! ### Transcripts -/

theorem issueAll_cons {i : Instr} {s s' : State} (h : exec i s = .next s') (rest : List Instr) :
    issueAll (i :: rest) s = Transcript.after (lastWord s') (issueAll rest s') := by
  rw [issueAll, h]

theorem timesCommands_succ (n : Nat) (body : List Instr) : timesCommands (n + 1) body = body ++ timesCommands n body := by
  rw [timesCommands, List.replicate_succ, List.flatten_cons, timesCommands]

/-- A run of commands from `s` ends with the custom machine at `m`, every answer being `OK_NONE`. -/
def CustomRun (is : List Instr) (s : State) (m : CustomState) : Prop :=
  ∃ t ws, issueAll is s = .next (t, ws) ∧ (∀ w ∈ ws, w = responseWord .okNone) ∧ t.cus = m

theorem CustomRun.cons {s s' : State} {i : Instr} {is : List Instr} (hi : exec i s = .next (respond .okNone s'))
    (h : CustomRun is (respond .okNone s') m) : CustomRun (i :: is) s m := by
  obtain ⟨t, ws, hrun, hws, ht⟩ := h
  refine ⟨t, responseWord .okNone :: ws, ?_, List.forall_mem_cons.mpr ⟨rfl, hws⟩, ht⟩
  rw [issueAll_cons hi, hrun]
  rfl

/-- Header pairs after the first `k`, in a machine that counts headers (46_custom_fsm R202). -/
theorem customRun_headerPairs (n k : Nat) {s : State} (hf : s.fault = 0) (hs : s.cus = afterPairs mark k m)
    (hmark : CustomTiming.isShort s.cfg.q mark = true) (hspace : CustomTiming.isShort s.cfg.q space = true) :
    CustomRun (timesCommands n [cmarkCommand mark, cspaceCommand space]) s (afterPairs mark (k + n) m) := by
  induction n generalizing k s with
  | zero => exact ⟨s, [], rfl, by simp, hs⟩
  | succ n ih =>
    rw [timesCommands_succ, show k + (n + 1) = k + 1 + n by omega]
    refine .cons (exec_cedge_of_none hf (by rw [hs]; exact cEdge_header_short_mark hmark k)) ?_
    refine .cons (exec_cedge_of_none hf (cEdge_header_short_space hmark hspace k)) ?_
    exact ih (k + 1) hf rfl hmark hspace

/-- Settles O52: the first Mark enters the counting state with count 0, and every Space after it counts one pair. -/
theorem headerPairsAreCounted : Obligations.HeaderPairsAreCounted := by
  intro s h mark space hf hs hpos hmark hspace
  obtain ⟨n, rfl⟩ := Nat.exists_eq_add_of_le' hpos
  change CustomRun _ s (afterPairs mark (n + 1) s.cus)
  rw [timesCommands_succ, Nat.add_comm n 1]
  refine .cons (exec_cedge_of_none hf (cEdge_idle_short_mark hmark hs)) ?_
  refine .cons (exec_cedge_of_none hf (cEdge_header_short_space hmark hspace 0)) ?_
  exact customRun_headerPairs n 1 hf rfl hmark hspace

end Sys2Proof.Machine
end

section
/-! PROOFS. The invariant of the block: it holds right after reset and every step keeps it (10_state R40). -/

namespace Sys2Proof.Machine

variable {s t : State}

/-! ### The encoder -/

theorem encoderInv_eRst {c : Config} {e : EncoderState} (h : EncoderInv c e) : EncoderInv c (eRst e) := by
  obtain ⟨-, -, hwf, hin, -⟩ := h
  exact ⟨le_rfl, Nat.zero_le _, hwf, hin, fun i hi => absurd hi (Nat.not_lt_zero i)⟩

/-- A waveform that fits is written from index 0 and leaves no gap (47_waveform_encoder R222). -/
theorem encoderInv_eFill {c : Config} {e : EncoderState} {code : BitVec 64} {n : Nat} (h : EncoderInv c e)
    (hfits : CustomTiming.waveformLength c.q n ≤ c.encCap) : EncoderInv c (eFill c.q code n e) := by
  obtain ⟨-, -, hwf, hin, -⟩ := h
  rw [← waveform_length c.q code n] at hfits
  exact ⟨Nat.zero_le _, hfits, Memory.wf_writeRun _ _ hwf, Memory.within_writeRun _ (by omega) hin, Memory.filled_writeRun _ _⟩

theorem encoderInv_encodeWave {c : Config} {e : EncoderState} (code : BitVec 64) (n : BitVec 8) (h : EncoderInv c e) :
    EncoderInv c (encodeWave c code n e).1 := by
  unfold encodeWave
  split
  · exact encoderInv_eRst h
  · split
    · exact encoderInv_eRst h
    · exact encoderInv_eFill (encoderInv_eRst h) (by omega)

/-- All that a pull can do (47_waveform_encoder R224). -/
theorem pullSample_next (h : pullSample s = .next t) :
    (s.enc.encRd < s.enc.encWr ∧ ∃ e, t = respond (.okSample e) { s with enc := { s.enc with encRd := s.enc.encRd + 1 } })
      ∨ t = respond .done s := by
  unfold pullSample at h
  split at h
  · split at h
    · cases h
    · cases h
      exact .inl ⟨‹_›, _, rfl⟩
  · cases h
    exact .inr rfl

/-! ### The units right after reset (10_state R44) -/

@[simp] theorem viewBytes_zero : viewBytes 0 = 0 := rfl

theorem decoderInv_initial (c : Config) : DecoderInv c DecoderState.initial :=
  ⟨Nat.zero_le _, ⟨Nat.zero_le _, rfl, nofun, by simp [Memory.filled, DecoderState.initial], fun hne => absurd rfl hne⟩, nofun⟩

theorem encoderInv_initial (c : Config) : EncoderInv c EncoderState.initial :=
  ⟨le_rfl, Nat.zero_le _, rfl, nofun, fun i hi => absurd hi (Nat.not_lt_zero i)⟩

theorem customInv_initial (q : CustomDescriptor) : CustomInv q CustomState.initial := customInv_of_empty rfl rfl nofun

/-! ### The commands -/

/-- A command keeps the invariant if its body does: on a halted block only the response port changes. -/
theorem command_keeps_inv {body : Out} (hs : s.Inv) (hbody : s.fault = 0 → body = .next t → t.Inv)
    (h : command s body = .next t) : t.Inv := by
  rcases command_next h with ⟨hf, hb⟩ | ⟨-, rfl⟩
  · exact hbody hf hb
  · exact hs

/-- On a running block `EDGE` keeps the invariant: an overflow, the one fault it can raise, sets `PB_OVF` and so ends the claim
on the levels (60_exceptions R244, R252). -/
theorem finishEdge_keeps_inv (hwf : s.cfg.wf = true) (hs : s.Inv) (hf : s.fault = 0) {level : Level} {duration : Dur}
    (h : finishEdge s (edge s.cfg level duration s.dec) = .next t) : t.Inv := by
  obtain ⟨hdec, hlev, hcus, henc, hfault, hhost⟩ := hs
  rcases edge_keeps hwf hdec (hlev hf) level duration with ⟨d', hedge, hdec'⟩ | ⟨m, d', hedge, hdec', hlev'⟩ <;>
    rw [hedge] at h <;> cases h
  · have hset : s.fault ||| causeBit .pbOvf = causeBit .pbOvf := by rw [hf]; rfl
    exact ⟨hdec', fun h0 => absurd (hset.symm.trans h0) (by decide), hcus, henc, .inr hset, hhost⟩
  · exact ⟨hdec', fun _ => hlev', hcus, henc, hfault, hhost⟩

theorem pullSample_keeps_inv (hs : s.Inv) (h : pullSample s = .next t) : t.Inv := by
  rcases pullSample_next h with ⟨hlt, e, rfl⟩ | rfl
  · obtain ⟨hdec, hlev, hcus, ⟨-, hcap, hmem, hin, hfill⟩, hfault, hhost⟩ := hs
    exact ⟨hdec, hlev, hcus, ⟨hlt, hcap, hmem, hin, hfill⟩, hfault, hhost⟩
  · exact hs

/-- Every command keeps the invariant, on a running and on a halted block. -/
theorem exec_command_keeps_inv (hwf : s.cfg.wf = true) (hs : s.Inv) {i : Instr} (hi : i.isCommand = true)
    (h : exec i s = .next t) : t.Inv := by
  have ⟨hdec, hlev, hcus, henc, hfault, hhost⟩ := hs
  cases i with
  | drst =>
    refine command_keeps_inv hs (fun _ hb => ?_) h
    cases hb
    exact ⟨decoderInv_dRst hdec, fun _ => levelsInv_of_pb_nil rfl, hcus, henc, hfault, hhost⟩
  | edge level duration => exact command_keeps_inv hs (fun hf hb => finishEdge_keeps_inv hwf hs hf hb) h
  | crst =>
    refine command_keeps_inv hs (fun _ hb => ?_) h
    cases hb
    exact ⟨hdec, hlev, customInv_initial s.cfg.q, henc, hfault, hhost⟩
  | cedge level duration =>
    refine command_keeps_inv hs (fun _ hb => ?_) h
    cases hb
    exact ⟨hdec, hlev, customInv_cEdge level duration hcus, henc, hfault, hhost⟩
  | erst =>
    refine command_keeps_inv hs (fun _ hb => ?_) h
    cases hb
    exact ⟨hdec, hlev, hcus, encoderInv_eRst henc, hfault, hhost⟩
  | enc code bitCount =>
    refine command_keeps_inv hs (fun _ hb => ?_) h
    cases hb
    exact ⟨hdec, hlev, hcus, encoderInv_encodeWave code bitCount henc, hfault, hhost⟩
  | next => exact command_keeps_inv hs (fun _ hb => pullSample_keeps_inv hs hb) h
  | _ => cases hi

/-! ### Reset and the step -/

theorem resetWith_inv (c : Config) : (State.resetWith c).Inv :=
  ⟨decoderInv_initial c, fun _ => levelsInv_of_pb_nil rfl, customInv_initial c.q, encoderInv_initial c, .inl rfl, rfl⟩

/-- Hardware reset keeps only the configuration and what is presented next (70_reset R260). -/
theorem hardReset_inv (h : HostOnly s) : (hardReset s).Inv := by
  obtain ⟨hdec, hlev, hcus, henc, hfault, -⟩ := resetWith_inv s.cfg
  exact ⟨hdec, hlev, hcus, henc, hfault, h⟩

theorem answerIllegal_inv (h : s.Inv) : (answerIllegal s).Inv := by
  unfold answerIllegal
  split <;> exact h

/-- Taking an event out of the inbox keeps the invariant. -/
theorem inv_of_inbox_cons {e : Event} {rest : List Event} (h : s.Inv) (hinbox : s.inbox = e :: rest) :
    ({ s with inbox := rest } : State).Inv := by
  obtain ⟨hdec, hlev, hcus, henc, hfault, hhost⟩ := h
  rw [HostOnly, hinbox, List.all_cons, Bool.and_eq_true] at hhost
  exact ⟨hdec, hlev, hcus, henc, hfault, hhost.2⟩

/-- Settles O18, field by field of the state after reset. -/
theorem invariantHoldsAtReset : Obligations.InvariantHoldsAtReset :=
  ⟨resetWith_inv, resetWith_inv refConfig, rfl⟩

/-- Settles O17, by the cases of a step: each unit's invariant is kept by the commands of that unit, and the host presents no
lone call. -/
theorem invariantIsKept : Obligations.InvariantIsKept := by
  intro s t hs hstep
  obtain ⟨hwf, hcases⟩ := step_next hstep
  rcases hcases with ⟨-, rfl⟩ | ⟨rest, hinbox, rfl⟩ | ⟨w, rest, i, hinbox, hdec, hexec⟩ | ⟨w, rest, e, hinbox, -, rfl⟩
    | ⟨call, rest, i, hinbox, -, -⟩
  · exact hs
  · obtain ⟨-, -, -, -, -, hhost⟩ := inv_of_inbox_cons hs hinbox
    exact hardReset_inv hhost
  · exact exec_command_keeps_inv (s := { s with inbox := rest }) hwf (inv_of_inbox_cons hs hinbox)
      (isCommand_of_decodeWord hdec) hexec
  · exact answerIllegal_inv (inv_of_inbox_cons hs hinbox)
  · obtain ⟨-, -, -, -, -, hhost⟩ := hs
    rw [HostOnly, hinbox] at hhost
    cases hhost

end Sys2Proof.Machine
end

section
/-! PROOFS. `FAULT`, the resets, and two lone calls: `PBLVL` and `DMRPT` (60_exceptions R243, R250, 70_reset R260, R261,
41_pulse_buffer R123, 44_demodulators R172). -/

namespace Sys2Proof.Machine

variable {s t : State}

/-! ### The halted block -/

/-- A halted block answers every command `FAULTED` and changes nothing (60_exceptions R243). -/
theorem exec_command_halted {i : Instr} (hi : i.isCommand = true) (hf : s.fault ≠ 0) : exec i s = .next (answerFaulted s) := by
  cases i with
  | drst | edge | crst | cedge | erst | enc | next => exact command_halted hf _
  | _ => cases hi

/-- On a halted block a lone call does nothing (60_exceptions R250). -/
theorem exec_call_halted {i : Instr} (hi : i.isCommand = false) (hf : s.fault ≠ 0) : exec i s = .next s := by
  cases i with
  | drst | edge | crst | cedge | erst | enc | next => cases hi
  | _ => exact microCall_halted hf _

theorem exec_halted_keeps_fault {i : Instr} (hf : s.fault ≠ 0) (h : exec i s = .next t) : t.fault = s.fault := by
  cases hi : i.isCommand with
  | true =>
    rw [exec_command_halted hi hf] at h
    cases h
    rfl
  | false =>
    rw [exec_call_halted hi hf] at h
    cases h
    rfl

theorem answerIllegal_fault (s : State) : (answerIllegal s).fault = s.fault := by
  unfold answerIllegal
  split <;> rfl

/-- No step of a halted block but a hardware reset changes `FAULT` (60_exceptions R250). -/
theorem step_halted_keeps_fault (hreset : s.inbox.head? ≠ some .reset) (hf : s.fault ≠ 0) (h : step s = .next t) :
    t.fault = s.fault := by
  obtain ⟨-, hcases⟩ := step_next h
  rcases hcases with ⟨-, rfl⟩ | ⟨rest, hinbox, -⟩ | ⟨w, rest, i, -, -, hexec⟩ | ⟨w, rest, e, -, -, rfl⟩
    | ⟨call, rest, i, -, -, hexec⟩
  · rfl
  · exact absurd (by rw [hinbox]; rfl) hreset
  · exact exec_halted_keeps_fault (s := { s with inbox := rest }) hf hexec
  · exact answerIllegal_fault { s with inbox := rest }
  · exact exec_halted_keeps_fault (s := { s with inbox := rest }) hf hexec

/-- Settles O12: a running block has no bit to clear, and a halted one keeps `FAULT`. -/
theorem faultIsSticky : Obligations.FaultIsSticky := by
  refine ⟨fun s t hreset hstep => ?_, fun i s hi hf => exec_call_halted hi hf⟩
  by_cases hf : s.fault = 0
  · rw [hf]
    exact BitVec.zero_and
  · rw [step_halted_keeps_fault hreset hf hstep, BitVec.and_self]

/-! ### The resets -/

/-- Settles O11: the step takes the event, and every register is read off the state after reset. -/
theorem hardwareResetRestoresEveryRegister : Obligations.HardwareResetRestoresEveryRegister := by
  intro s rest hwf hinbox
  refine ⟨hardReset { s with inbox := rest }, step_of_inbox_cons hwf hinbox, ?_⟩
  simp [DecoderState.initial, CustomState.initial, EncoderState.initial, DecoderState.pbLen]

/-- The effect of the reset command of one unit on a running block; other instructions are no reset. -/
def resetUnit (s : State) : Instr → State
  | .drst => respond .okNone { s with dec := dRst s.dec }
  | .crst => respond .okNone { s with cus := CustomState.initial }
  | .erst => respond .okNone { s with enc := eRst s.enc }
  | _ => s

/-- The reset commands, one per unit (70_reset R261). -/
def resetCommands : List Instr := [.drst, .crst, .erst]

theorem mem_resetCommands {i : Instr} : i ∈ resetCommands ↔ i = .drst ∨ i = .crst ∨ i = .erst := by
  simp [resetCommands]

theorem exec_reset {i : Instr} (hi : i ∈ resetCommands) (hf : s.fault = 0) : exec i s = .next (resetUnit s i) := by
  rcases mem_resetCommands.mp hi with rfl | rfl | rfl <;> exact command_running hf _

theorem resetUnit_fault (s : State) (i : Instr) : (resetUnit s i).fault = s.fault := by
  unfold resetUnit
  split <;> rfl

theorem lastWord_resetUnit {i : Instr} (hi : i ∈ resetCommands) (s : State) :
    lastWord (resetUnit s i) = responseWord .okNone := by
  rcases mem_resetCommands.mp hi with rfl | rfl | rfl <;> rfl

/-- Reset commands of different units commute, since each touches its own unit (70_reset R270). -/
theorem resetUnit_comm : ∀ i ∈ resetCommands, ∀ j ∈ resetCommands, ∀ s : State,
    resetUnit (resetUnit s i) j = resetUnit (resetUnit s j) i := by
  intro i hi j hj s
  rcases mem_resetCommands.mp hi with rfl | rfl | rfl <;> rcases mem_resetCommands.mp hj with rfl | rfl | rfl <;> rfl

/-- A run of reset commands resets unit after unit, each command answering `OK_NONE`. -/
theorem issueAll_resets {order : List Instr} (horder : ∀ i ∈ order, i ∈ resetCommands) (hf : s.fault = 0) :
    issueAll order s = .next (order.foldl resetUnit s, List.replicate order.length (responseWord .okNone)) := by
  induction order generalizing s with
  | nil => rfl
  | cons i rest ih =>
    obtain ⟨hi, hrest⟩ := List.forall_mem_cons.mp horder
    rw [issueAll_cons (exec_reset hi hf), ih hrest (by rw [resetUnit_fault, hf]), lastWord_resetUnit hi]
    rfl

theorem Memory.visible_zero {α : Type} (m : Memory α) : Memory.visible 0 m = [] := by
  simp [Memory.visible]

/-- Settles O22: the three resets commute, and in one order they give the registers of hardware reset with no entry readable. -/
theorem threeResetsEqualHardwareReset : Obligations.ThreeResetsEqualHardwareReset := by
  intro order s hperm hf
  have hsame : order.foldl resetUnit s = resetCommands.foldl resetUnit s :=
    (hperm.symm.foldl_eq' resetUnit_comm s).symm
  refine ⟨resetCommands.foldl resetUnit s, ?_, ?_⟩
  · rw [issueAll_resets (fun i hi => hperm.mem_iff.mp hi) hf, hsame, hperm.length_eq]
    rfl
  · simp [resetCommands, resetUnit, State.visible, Memory.visible_zero, hf, respond, hardReset, State.resetWith, dRst, eRst,
      DecoderState.initial, EncoderState.initial]

/-! ### `PBLVL` and `DMRPT` called alone -/

/-- `PBLVL` hands back its level and writes no register of the block (41_pulse_buffer R123). -/
theorem exec_pblvl (hf : s.fault = 0) : exec .pblvl s = .next { s with ret := .level (pbLvl s.dec) } := microCall_running hf _

theorem pbLvl_of_pos {d : DecoderState} (h : 1 ≤ d.pbLen) : pbLvl d = frontLevel d := if_pos h

/-- Settles O28: on a buffer that is not empty the answer is the inferred level, which alternation makes the front entry's. -/
theorem inferredLevelIsTheFrontLevel : Obligations.InferredLevelIsTheFrontLevel := by
  intro s hf
  rw [exec_pblvl hf]
  refine ⟨fun hlen => by rw [pbLvl_of_pos hlen]; rfl, fun e rest hpb hlev => ?_, fun _ => ⟨_, rfl⟩⟩
  have hlen : 1 ≤ s.dec.pbLen := by simp [DecoderState.pbLen, hpb]
  rw [pbLvl_of_pos hlen, frontLevel_of_levelsInv hpb hlev]

theorem exec_dmrpt (hf : s.fault = 0) : exec .dmrpt s = finishCall s .status (dmRpt s.cfg.p s.dec) := microCall_running hf _

theorem demodRepeat_absent {p : GenericDescriptor} (h : p.demodRepeat = .absent) (entries : List Sample) :
    demodRepeat p entries = none := by
  rw [demodRepeat, h]

/-- Settles O36: the hook keeps its contract, so what it asks for is consumed; an absent one leaves only the refusal. -/
theorem repeatHookConsumesWhatItAsks : Obligations.RepeatHookConsumesWhatItAsks := by
  intro s hf
  rw [exec_dmrpt hf]
  refine ⟨fun st k hhook => ⟨repeatContract _ _ _ _ hhook, ?_⟩, fun habsent => ?_⟩
  · rcases dmRpt_cases s.cfg.p s.dec with ⟨habsent, -⟩ | ⟨st', k', hhook', -, hrun⟩
    · rw [demodRepeat_absent habsent] at hhook
      cases hhook
    · rw [hhook] at hhook'
      cases hhook'
      rw [hrun]
      rfl
  · rw [dmRpt, demodRepeat_absent habsent]
    rfl

end Sys2Proof.Machine
end

section
/-! PROOFS. What every step keeps, and the samples that `DRAIN` pulls after an `ENC` (20_memory R67, R71, 30_encoding R94,
47_waveform_encoder R224, 70_reset R263, R268). -/

namespace Sys2Proof.Machine

variable {s t : State}

/-! ### No instruction writes the configuration or the inbox -/

/-- Where an outcome of `s` is a next state, it has the configuration of `s` and what `s` is still presented. -/
def KeepsInput (s : State) : Out → Prop
  | .next t => t.cfg = s.cfg ∧ t.inbox = s.inbox
  | .fault _ => True
  | .refused _ => True

theorem command_keepsInput {body : Out} (h : KeepsInput s body) : KeepsInput s (command s body) := by
  unfold command
  split
  · exact h
  · exact ⟨rfl, rfl⟩

theorem microCall_keepsInput {body : Out} (h : KeepsInput s body) : KeepsInput s (microCall s body) := by
  unfold microCall
  split
  · exact h
  · exact ⟨rfl, rfl⟩

theorem finishEdge_keepsInput (s : State) (x : UnitFlow (Option Message)) : KeepsInput s (finishEdge s x) := by
  cases x with
  | ret | raised => exact ⟨rfl, rfl⟩
  | fault | refused => trivial

theorem finishCall_keepsInput {α : Type} (s : State) (value : α → ReturnValue) (x : UnitFlow α) :
    KeepsInput s (finishCall s value x) := by
  cases x with
  | ret | raised => exact ⟨rfl, rfl⟩
  | fault | refused => trivial

theorem pullSample_keepsInput (s : State) : KeepsInput s (pullSample s) := by
  cases h : pullSample s with
  | next t => rcases pullSample_next h with ⟨-, e, rfl⟩ | rfl <;> exact ⟨rfl, rfl⟩
  | fault | refused => trivial

theorem exec_keepsInput (i : Instr) (s : State) : KeepsInput s (exec i s) := by
  cases i with
  | drst | crst | cedge | erst | enc => exact command_keepsInput ⟨rfl, rfl⟩
  | edge => exact command_keepsInput (finishEdge_keepsInput s _)
  | next => exact command_keepsInput (pullSample_keepsInput s)
  | matchOp | cbit => exact microCall_keepsInput ⟨rfl, rfl⟩
  | efill =>
    refine microCall_keepsInput ?_
    split
    · trivial
    · exact ⟨rfl, rfl⟩
  | _ => exact microCall_keepsInput (finishCall_keepsInput s _ _)

theorem exec_cfg_inbox {i : Instr} (h : exec i s = .next t) : t.cfg = s.cfg ∧ t.inbox = s.inbox := by
  have hkeeps := exec_keepsInput i s
  rwa [h] at hkeeps

theorem answerIllegal_cfg_inbox (s : State) : (answerIllegal s).cfg = s.cfg ∧ (answerIllegal s).inbox = s.inbox := by
  unfold answerIllegal
  split <;> exact ⟨rfl, rfl⟩

/-- Settles O13, by the cases of a step: the event taken is gone from the inbox, and what it runs keeps the rest. -/
theorem configurationNeverChanges : Obligations.ConfigurationNeverChanges := by
  intro s t hstep
  obtain ⟨-, hcases⟩ := step_next hstep
  rcases hcases with ⟨hinbox, rfl⟩ | ⟨rest, hinbox, rfl⟩ | ⟨w, rest, i, hinbox, -, hexec⟩ | ⟨w, rest, e, hinbox, -, rfl⟩
    | ⟨call, rest, i, hinbox, -, hexec⟩ <;> rw [hinbox]
  · exact ⟨rfl, rfl⟩
  · exact ⟨rfl, rfl⟩
  · exact exec_cfg_inbox hexec
  · exact answerIllegal_cfg_inbox _
  · exact exec_cfg_inbox hexec

/-! ### `ENC` and `NEXT` on a running block -/

/-- An `ENC` is answered `OK_NONE` only when it filled the upload buffer (47_waveform_encoder R220). -/
theorem encodeWave_accepted {c : Config} {code : BitVec 64} {n : BitVec 8} {e : EncoderState}
    (h : responseWord (encodeWave c code n e).2 = responseWord .okNone) :
    (encodeWave c code n e).1 = eFill c.q code n.toNat (eRst e) := by
  have hstatus := congrArg statusField h
  rw [statusField_responseWord, statusField_responseWord] at hstatus
  unfold encodeWave at hstatus ⊢
  split_ifs at hstatus ⊢
  · cases hstatus
  · cases hstatus
  · rfl

/-- The state after an `ENC` that was accepted (47_waveform_encoder R220, R222). -/
theorem exec_enc_accepted {code : BitVec 64} {n : BitVec 8} (hf : s.fault = 0) (h : exec (.enc code n) s = .next t)
    (hrsp : t.rsp = some (responseWord .okNone)) :
    t = respond .okNone { s with enc := eFill s.cfg.q code n.toNat (eRst s.enc) } := by
  change command s _ = _ at h
  rw [command_running hf] at h
  cases h
  have hword : responseWord (encodeWave s.cfg code n s.enc).2 = responseWord .okNone := Option.some.inj hrsp
  rw [respond, respond, hword, encodeWave_accepted hword]

theorem exec_next_sample {e : Sample} (hf : s.fault = 0) (hlt : s.enc.encRd < s.enc.encWr)
    (hread : Memory.read s.enc.encRd s.enc.ub = some e) :
    exec .next s = .next (respond (.okSample e) { s with enc := { s.enc with encRd := s.enc.encRd + 1 } }) := by
  change command s (pullSample s) = _
  rw [command_running hf, pullSample, if_pos hlt, hread]

theorem exec_next_done (hf : s.fault = 0) (hle : s.enc.encWr ≤ s.enc.encRd) : exec .next s = .next (respond .done s) := by
  change command s (pullSample s) = _
  rw [command_running hf, pullSample, if_neg (Nat.not_lt.mpr hle)]

/-! ### `DRAIN` (30_encoding R94) -/

@[simp] theorem lastWord_respond (r : Response) (s : State) : lastWord (respond r s) = responseWord r := rfl

theorem drain_sample {e : Sample} (h : exec .next s = .next (respond (.okSample e) t)) (n : Nat) :
    drain (n + 1) s = Transcript.after (responseWord (.okSample e)) (drain n (respond (.okSample e) t)) := by
  simp [drain, h, statusCode]

theorem drain_done (h : exec .next s = .next (respond .done t)) (n : Nat) :
    drain (n + 1) s = .next (respond .done t, [responseWord .done]) := by
  simp [drain, h, statusCode]

/-- With the samples `vs` left between the cursors, `DRAIN` answers each in order and then `DONE`, and moves the read cursor to
the end. -/
theorem drain_samples (vs : List Sample) (hf : s.fault = 0) (hwr : s.enc.encWr = s.enc.encRd + vs.length)
    (hread : ∀ k < vs.length, Memory.read (s.enc.encRd + k) s.enc.ub = vs[k]?) :
    drain (vs.length + 1) s
      = .next (respond .done { s with enc := { s.enc with encRd := s.enc.encWr } },
          vs.map (fun e => responseWord (.okSample e)) ++ [responseWord .done]) := by
  induction vs generalizing s with
  | nil =>
    rw [drain_done (exec_next_done hf (by simp [hwr])), hwr]
    rfl
  | cons e rest ih =>
    rw [List.length_cons] at hwr hread
    have hfirst : Memory.read s.enc.encRd s.enc.ub = some e := hread 0 (by omega)
    have hrest : ∀ k < rest.length, Memory.read (s.enc.encRd + 1 + k) s.enc.ub = rest[k]? := fun k hk => by
      rw [Nat.add_assoc, Nat.add_comm 1 k]
      exact hread (k + 1) (by omega)
    rw [List.length_cons, drain_sample (exec_next_sample hf (by omega) hfirst),
      ih (s := respond (.okSample e) { s with enc := { s.enc with encRd := s.enc.encRd + 1 } }) hf
        (hwr.trans (by simp only [respond_enc]; omega)) hrest]
    rfl

/-- Settles O58: an accepted `ENC` leaves the waveform in the upload buffer from index 0, with the cursors at its two ends. -/
theorem drainReturnsTheWaveform : Obligations.DrainReturnsTheWaveform := by
  intro s s1 code n hf hexec hrsp
  obtain rfl := exec_enc_accepted hf hexec hrsp
  refine ⟨_, drain_samples (waveform s.cfg.q code n.toNat) hf (Nat.zero_add _).symm fun k hk => ?_, rfl, rfl, rfl⟩
  exact Memory.read_writeRun_at (i := 0) _ _ hk

end Sys2Proof.Machine
end

section
/-! PROOFS. The command word: what the decoder reads from it, the encoder's word of each command, and the opcode map
(30_encoding R80 to R83, R86, R90, R91). -/

namespace Sys2Proof

variable {w : CommandWord} {i : Instr} {op : BitVec 8}

/-! ### What the decoder reads (30_encoding R86) -/

/-- The word holds the command: its opcode, zeros where its format requires them, and its operands in their fields. No word
holds a micro-operation (30_encoding R81 to R83, R86, R91). -/
def Holds (w : CommandWord) : Instr → Prop
  | .drst => opField w = 0x01#8 ∧ operandField w = 0
  | .edge level duration =>
    opField w = 0x02#8 ∧ sampleZeroField w = 0 ∧ levelField w = level ∧ durationField w = duration
  | .crst => opField w = 0x03#8 ∧ operandField w = 0
  | .cedge level duration =>
    opField w = 0x04#8 ∧ sampleZeroField w = 0 ∧ levelField w = level ∧ durationField w = duration
  | .erst => opField w = 0x05#8 ∧ operandField w = 0
  | .enc code bitCount => opField w = 0x06#8 ∧ codeField w = code ∧ bitCountField w = bitCount
  | .next => opField w = 0x07#8 ∧ operandField w = 0
  | _ => False

theorem decodeFormatZ_eq_ok {j : Instr} : decodeFormatZ w i = .ok j ↔ operandField w = 0 ∧ i = j := by
  rw [decodeFormatZ]
  split_ifs with hz
  · simp only [hz, true_and, Except.ok.injEq]
  · simp only [hz, false_and]

theorem decodeFormatS_eq_ok {f : Level → Dur → Instr} :
    decodeFormatS w f = .ok i ↔ sampleZeroField w = 0 ∧ f (levelField w) (durationField w) = i := by
  rw [decodeFormatS]
  split_ifs with hz
  · simp only [hz, true_and, Except.ok.injEq]
  · simp only [hz, false_and]

theorem decodeFormatK_eq_ok {f : BitVec 64 → BitVec 8 → Instr} :
    decodeFormatK w f = .ok i ↔ f (codeField w) (bitCountField w) = i := by
  simp [decodeFormatK]

theorem holds_of_decodeWord (h : decodeWord w = .ok i) : Holds w i := by
  unfold decodeWord at h
  split_ifs at h with h1 h2 h3 h4 h5 h6 h7
  · obtain ⟨hz, rfl⟩ := decodeFormatZ_eq_ok.mp h
    exact ⟨h1, hz⟩
  · obtain ⟨hz, rfl⟩ := decodeFormatS_eq_ok.mp h
    exact ⟨h2, hz, rfl, rfl⟩
  · obtain ⟨hz, rfl⟩ := decodeFormatZ_eq_ok.mp h
    exact ⟨h3, hz⟩
  · obtain ⟨hz, rfl⟩ := decodeFormatS_eq_ok.mp h
    exact ⟨h4, hz, rfl, rfl⟩
  · obtain ⟨hz, rfl⟩ := decodeFormatZ_eq_ok.mp h
    exact ⟨h5, hz⟩
  · obtain rfl := decodeFormatK_eq_ok.mp h
    exact ⟨h6, rfl, rfl⟩
  · obtain ⟨hz, rfl⟩ := decodeFormatZ_eq_ok.mp h
    exact ⟨h7, hz⟩

theorem decodeWord_of_holds (h : Holds w i) : decodeWord w = .ok i := by
  cases i with
  | drst | crst | erst | next =>
    obtain ⟨hop, hz⟩ := h
    simp [decodeWord, hop, decodeFormatZ, hz]
  | edge level duration | cedge level duration =>
    obtain ⟨hop, hz, rfl, rfl⟩ := h
    simp [decodeWord, hop, decodeFormatS, hz]
  | enc code bitCount =>
    obtain ⟨hop, rfl, rfl⟩ := h
    simp [decodeWord, hop, decodeFormatK]
  | _ => exact h.elim

/-- A word decodes to the command that it holds, and to no other. -/
theorem decodeWord_eq_ok_iff : decodeWord w = .ok i ↔ Holds w i := ⟨holds_of_decodeWord, decodeWord_of_holds⟩

/-! ### Decoding what the encoder writes -/

/-- The encoder's word of a command holds it (30_encoding R80 to R83, R86). -/
theorem holds_of_encode (h : encode i = .command w) : Holds w i := by
  cases i with
  | drst | crst | erst | next =>
    cases h
    exact ⟨opField_encodeFormatZ _, operandField_encodeFormatZ _⟩
  | edge level duration | cedge level duration =>
    cases h
    exact ⟨opField_encodeFormatS _ _ _, sampleZeroField_encodeFormatS _ _ _, levelField_encodeFormatS _ _ _,
      durationField_encodeFormatS _ _ _⟩
  | enc code bitCount =>
    cases h
    exact ⟨opField_encodeFormatK _ _ _, codeField_encodeFormatK _ _ _, bitCountField_encodeFormatK _ _ _⟩
  | _ => cases h

/-- A bit passed as the value 0 or 1 is read back (30_encoding R91). -/
theorem decodeCallBit_toNat (id : BitVec 8) (b : Bool) (f : Bool → Instr) :
    decodeCallBit ⟨id, b.toNat, 0, 0⟩ f = .ok (f b) := by
  cases b <;> rfl

/-- The call that the encoder makes of a well-formed micro-operation is decoded to it: each operand is in the range that the
decoder checks (30_encoding R91). -/
theorem decodeCall_of_encode {c : MicroCall} (hwf : i.wf = true) (h : encode i = .call c) : decodeCall c = .ok i := by
  cases i with
  | drst | edge | crst | cedge | erst | enc | next => cases h
  | matchOp measured expected tolerance =>
    cases h
    have hexpected : expected < 2 ^ 36 := of_decide_eq_true hwf
    have hrange : measured.toNat < 2 ^ 32 ∧ expected < 2 ^ 36 ∧ tolerance.toNat < 2 ^ 32 :=
      ⟨measured.isLt, hexpected, tolerance.isLt⟩
    simp only [decodeCall, if_true, if_pos hrange, BitVec.ofNat_toNat, BitVec.setWidth_eq]
  | pbpush level duration =>
    cases h
    have hduration : duration.toNat < 4294967296 := duration.isLt
    simp [decodeCall, level.toNat_lt, hduration]
  | efill code bitCount =>
    cases h
    have hcode : code.toNat < 18446744073709551616 := code.isLt
    have hcount : bitCount.toNat < 256 := bitCount.isLt
    simp [decodeCall, hcode, hcount]
  | apush bit | cbit bit =>
    cases h
    exact decodeCallBit_toNat _ bit _
  | _ =>
    cases h
    rfl

/-- Settles O2: a command is held by its word, and the operands of a micro-operation's call are in range. -/
theorem decodeUndoesEncode : Obligations.DecodeUndoesEncode := by
  intro i hwf
  cases he : encode i with
  | command w => exact decodeWord_of_holds (holds_of_encode he)
  | call c => exact decodeCall_of_encode hwf he
  | reset => cases i <;> cases he

/-! ### Encoding what the decoder reads -/

theorem opField_append_operandField (w : CommandWord) : opField w ++ operandField w = w :=
  BitVec.extractLsb'_append_extractLsb' (w := 8) (len := 72)

/-- The upper part of a word of format S: the opcode and the zero field (30_encoding R82). -/
theorem opField_append_sampleZeroField (w : CommandWord) : opField w ++ sampleZeroField w = w.extractLsb' 33 47 :=
  BitVec.extractLsb'_append_extractLsb'_eq_extractLsb' rfl

theorem ofBool_levelField (w : CommandWord) : BitVec.ofBool (levelField w) = w.extractLsb' 32 1 :=
  (field_eq fun i hi => by simp [levelField, show i = 0 by omega]).symm

theorem encodeFormatZ_fields (hz : operandField w = 0) : encodeFormatZ (opField w) = w := by
  have hword := opField_append_operandField w
  rwa [hz] at hword

theorem encodeFormatS_fields (hz : sampleZeroField w = 0) :
    encodeFormatS (opField w) (levelField w) (durationField w) = w := by
  have hupper := opField_append_sampleZeroField w
  rw [hz] at hupper
  have hlevel : w.extractLsb' 33 47 ++ w.extractLsb' 32 1 = w.extractLsb' 32 48 :=
    BitVec.extractLsb'_append_extractLsb'_eq_extractLsb' rfl
  calc encodeFormatS (opField w) (levelField w) (durationField w)
      = w.extractLsb' 33 47 ++ w.extractLsb' 32 1 ++ durationField w := by rw [← hupper, ← ofBool_levelField]; rfl
    _ = w.extractLsb' 32 48 ++ w.extractLsb' 0 32 := by rw [hlevel]; rfl
    _ = w := BitVec.extractLsb'_append_extractLsb' (w := 48) (len := 32)

theorem encodeFormatK_fields (w : CommandWord) : encodeFormatK (opField w) (codeField w) (bitCountField w) = w := by
  have hupper : opField w ++ codeField w = w.extractLsb' 8 72 :=
    BitVec.extractLsb'_append_extractLsb'_eq_extractLsb' rfl
  rw [encodeFormatK, hupper]
  exact BitVec.extractLsb'_append_extractLsb' (w := 72) (len := 8)

theorem encode_of_holds (h : Holds w i) : encode i = .command w := by
  cases i with
  | drst | crst | erst | next =>
    obtain ⟨hop, hz⟩ := h
    rw [encode, ← hop, encodeFormatZ_fields hz]
  | edge level duration | cedge level duration =>
    obtain ⟨hop, hz, rfl, rfl⟩ := h
    rw [encode, ← hop, encodeFormatS_fields hz]
  | enc code bitCount =>
    obtain ⟨hop, rfl, rfl⟩ := h
    rw [encode, ← hop, encodeFormatK_fields]
  | _ => exact h.elim

/-- Settles O3: the fields that the decoder reads, put together again, are the whole word. -/
theorem encodeUndoesDecode : Obligations.EncodeUndoesDecode :=
  fun _ _ h => ⟨encode_of_holds (holds_of_decodeWord h), Machine.isCommand_of_decodeWord h⟩

/-! ### The opcode map by mask and match value (30_encoding R86) -/

/-- Under the mask of its upper `m` bits a word equals a match value exactly when its upper field does. -/
theorem and_upperMask_eq_iff {m n : Nat} (x : BitVec (m + n)) (v : BitVec m) :
    x &&& (BitVec.allOnes m ++ 0#n) = v ++ 0#n ↔ x.extractLsb' n m = v := by
  have hmask : x &&& (BitVec.allOnes m ++ 0#n) = x.extractLsb' n m ++ 0#n := by
    conv_lhs => rw [← BitVec.extractLsb'_append_extractLsb' (x := x)]
    rw [BitVec.and_append, BitVec.and_allOnes, BitVec.and_zero]
  rw [hmask, BitVec.append_left_inj]

/-- Two words of the same two fields have them equal, part by part. -/
theorem append_eq_append_iff {m n : Nat} {x x' : BitVec m} {y y' : BitVec n} : x ++ y = x' ++ y' ↔ x = x' ∧ y = y' := by
  refine ⟨fun h => ⟨?_, ?_⟩, fun ⟨hx, hy⟩ => by rw [hx, hy]⟩
  · rw [← BitVec.extractLsb'_append_eq_left (a := x) (b := y), h, BitVec.extractLsb'_append_eq_left]
  · rw [← BitVec.extractLsb'_append_eq_right (a := x) (b := y), h, BitVec.extractLsb'_append_eq_right]

theorem formatZ_iff_mask {v : CommandWord} (w : CommandWord) (hv : v = op ++ 0#72) :
    opField w = op ∧ operandField w = 0 ↔ w &&& 0xFFFFFFFFFFFFFFFFFFFF = v := by
  have hmask : (0xFFFFFFFFFFFFFFFFFFFF : CommandWord) = BitVec.allOnes 80 := by decide
  rw [hmask, hv, BitVec.and_allOnes]
  conv_rhs => rw [← opField_append_operandField w]
  exact append_eq_append_iff.symm

theorem formatS_iff_mask {v : CommandWord} (w : CommandWord) (hv : v = op ++ 0#39 ++ 0#33) :
    opField w = op ∧ sampleZeroField w = 0 ↔ w &&& 0xFFFFFFFFFFFE00000000 = v := by
  have hmask : (0xFFFFFFFFFFFE00000000 : CommandWord) = BitVec.allOnes 47 ++ 0#33 := by decide
  rw [hmask, hv, and_upperMask_eq_iff (m := 47) (n := 33) w (op ++ 0#39), ← opField_append_sampleZeroField]
  exact append_eq_append_iff.symm

theorem formatK_iff_mask {v : CommandWord} (w : CommandWord) (hv : v = op ++ 0#72) :
    opField w = op ↔ w &&& 0xFF000000000000000000 = v := by
  have hmask : (0xFF000000000000000000 : CommandWord) = BitVec.allOnes 8 ++ 0#72 := by decide
  rw [hmask, hv]
  exact (and_upperMask_eq_iff (m := 8) (n := 72) w op).symm

/-- Some operands of a format S command are held as soon as its opcode and zero bits are right (30_encoding R82). -/
theorem exists_decodeWord_formatS {f : Level → Dur → Instr}
    (hf : ∀ l d, Holds w (f l d) ↔ opField w = op ∧ sampleZeroField w = 0 ∧ levelField w = l ∧ durationField w = d) :
    (∃ l d, decodeWord w = .ok (f l d)) ↔ opField w = op ∧ sampleZeroField w = 0 := by
  constructor
  · rintro ⟨l, d, h⟩
    obtain ⟨hop, hz, -⟩ := (hf l d).mp (holds_of_decodeWord h)
    exact ⟨hop, hz⟩
  · rintro ⟨hop, hz⟩
    exact ⟨_, _, decodeWord_of_holds ((hf _ _).mpr ⟨hop, hz, rfl, rfl⟩)⟩

theorem exists_decodeWord_enc : (∃ c n, decodeWord w = .ok (.enc c n)) ↔ opField w = 0x06#8 := by
  constructor
  · rintro ⟨c, n, h⟩
    obtain ⟨hop, -⟩ := holds_of_decodeWord h
    exact hop
  · intro hop
    exact ⟨_, _, decodeWord_of_holds ⟨hop, rfl, rfl⟩⟩

/-- Settles O4: a command is held by the words whose opcode and zero bits are right, which the mask selects; the operands are
free. -/
theorem opcodeMapByMaskAndMatch : Obligations.OpcodeMapByMaskAndMatch := by
  intro w
  refine ⟨?drst, ?edge, ?crst, ?cedge, ?erst, ?enc, ?next⟩
  case drst | crst | erst | next => exact decodeWord_eq_ok_iff.trans (formatZ_iff_mask w (by decide))
  case edge | cedge => exact (exists_decodeWord_formatS fun _ _ => Iff.rfl).trans (formatS_iff_mask w (by decide))
  case enc => exact exists_decodeWord_enc.trans (formatK_iff_mask w (by decide))

/-- Settles O1: each word holds the command that the spec writes beside it. -/
theorem specWordsDecode : Obligations.SpecWordsDecode :=
  ⟨decodeUndoesEncode (.edge .mark 9000) rfl, decodeUndoesEncode (.edge .space 4500) rfl, decodeUndoesEncode (.enc 5 3) rfl,
    decodeUndoesEncode .next rfl, decodeUndoesEncode (.cedge .space 2160) rfl, decodeUndoesEncode (.pbcons 2) rfl,
    decodeUndoesEncode .dmman rfl⟩


end Sys2Proof
end

section
/-! PROOFS. Answers: the layout of the response word, the statuses that each command gives, and the illegal word (30_encoding R85,
R87 to R90). -/

namespace Sys2Proof.Machine

variable {s t : State} {r : Response} {i : Instr} {w : CommandWord}

/-! ### The layout of the response word (30_encoding R85, R88, R89) -/

theorem zeroField_responseWord (r : Response) : zeroField (responseWord r) = 0 :=
  field_eq fun i _ => (bit_high (statusCode r ++ 0#3) (payload r) (by omega)).trans <|
    (bit_low (statusCode r) 0#3 (by omega)).trans (congrArg (0#3).getLsbD (by omega))

/-- A field that lies in `RW[80:0]` is a field of the payload. -/
theorem payloadField_responseWord (r : Response) {start len : Nat} (h : start + len ≤ 81) :
    (responseWord r).extractLsb' start len = (payload r).extractLsb' start len :=
  BitVec.extractLsb'_append_eq_of_add_le h

theorem payloadBit_responseWord (r : Response) {k : Nat} (h : k < 81) :
    (responseWord r).getLsbD k = (payload r).getLsbD k := bit_low _ _ h

theorem messagePayload_repeatBit (m : Message) : (messagePayload m).getLsbD 80 = m.isRepeat :=
  (bit_high _ m.bitCount (by omega)).trans <| (bit_high _ m.code (by omega)).trans <|
    (bit_high _ m.protocolId (by omega)).trans (by simp)

theorem messagePayload_protocolId (m : Message) : (messagePayload m).extractLsb' 72 8 = m.protocolId :=
  (BitVec.extractLsb'_append_eq_of_le (by omega)).trans <|
    (BitVec.extractLsb'_append_eq_of_le (by omega)).trans BitVec.extractLsb'_append_eq_right

theorem messagePayload_code (m : Message) : (messagePayload m).extractLsb' 8 64 = m.code :=
  (BitVec.extractLsb'_append_eq_of_le (by omega)).trans BitVec.extractLsb'_append_eq_right

theorem samplePayload_zeros (e : Sample) : (samplePayload e).extractLsb' 33 48 = 0 :=
  (BitVec.extractLsb'_append_eq_of_le (by omega)).trans BitVec.extractLsb'_append_eq_left

theorem samplePayload_level (e : Sample) : (samplePayload e).getLsbD 32 = e.level :=
  (bit_high _ e.duration (by omega)).trans <| (bit_low _ _ (by omega)).trans (by simp)

/-- Settles O6: the payload is the lower part of the word, and each of its fields is one part of its concatenation. -/
theorem responseWordLayout : Obligations.ResponseWordLayout := by
  intro r
  refine ⟨statusField_responseWord r, zeroField_responseWord r, ?_⟩
  cases r with
  | okMsg m =>
    refine ⟨?_, ?_, ?_, ?_⟩
    · exact (payloadBit_responseWord _ (by omega)).trans (messagePayload_repeatBit m)
    · exact (payloadField_responseWord _ (by omega)).trans (messagePayload_protocolId m)
    · exact (payloadField_responseWord _ (by omega)).trans (messagePayload_code m)
    · exact (payloadField_responseWord _ (by omega)).trans BitVec.extractLsb'_append_eq_right
  | okSample e =>
    refine ⟨?_, ?_, ?_⟩
    · exact (payloadField_responseWord _ (by omega)).trans (samplePayload_zeros e)
    · exact (payloadBit_responseWord _ (by omega)).trans (samplePayload_level e)
    · exact (payloadField_responseWord _ (by omega)).trans BitVec.extractLsb'_append_eq_right
  | faulted f =>
    exact ⟨(payloadField_responseWord _ (by omega)).trans BitVec.extractLsb'_append_eq_left,
      (payloadField_responseWord _ (by omega)).trans BitVec.extractLsb'_append_eq_right⟩
  | okNone | done | tooLarge | illegal | badOperand => exact payloadField_responseWord _ (by omega)

/-! ### The statuses of each command (30_encoding R87) -/

/-- `r` is on the response port of `t`, the status table gives it to the instruction, and it is `FAULTED`, with the `FAULT`
register, exactly when the block is halted (30_encoding R87, R89, 60_exceptions R243). -/
def Answers (i : Instr) (r : Response) (t : State) : Prop :=
  t.rsp = some (responseWord r) ∧ mayAnswer i r = true ∧ (∀ f, r = .faulted f → f = t.fault ∧ t.fault ≠ 0)
    ∧ (t.fault ≠ 0 → r = .faulted t.fault)

/-- A running block's response is an answer when the table gives it to the instruction and it is not `FAULTED`. -/
theorem answers_respond (hf : s.fault = 0) (hr : ∀ f, r ≠ .faulted f) (hi : mayAnswer i r = true) :
    Answers i r (respond r s) :=
  ⟨rfl, hi, fun f h => absurd h (hr f), fun h => absurd hf h⟩

theorem mayAnswer_faulted (i : Instr) (f : BitVec 8) : mayAnswer i (.faulted f) = true := by
  cases i <;> rfl

/-- Every command may answer `FAULTED`, and does so on a halted block. -/
theorem answers_answerFaulted (i : Instr) (hf : s.fault ≠ 0) : Answers i (.faulted s.fault) (answerFaulted s) :=
  ⟨rfl, mayAnswer_faulted i s.fault, fun f h => ⟨by cases h; rfl, hf⟩, fun _ => rfl⟩

/-- A block that raises a fault is halted (60_exceptions R243, R244). -/
theorem raiseFault_fault_ne_zero (c : Cause) (hf : s.fault = 0) : (raiseFault c s).fault ≠ 0 := by
  rw [raiseFault_fault, hf]
  cases c <;> decide

theorem edgeResponse_ne_faulted (m : Option Message) (f : BitVec 8) : edgeResponse m ≠ .faulted f := by
  cases m <;> nofun

/-- An `ENC` answers `BAD_OPERAND`, `TOO_LARGE` or `OK_NONE` (47_waveform_encoder R220). -/
theorem encodeWave_response (c : Config) (code : BitVec 64) (n : BitVec 8) (e : EncoderState) :
    (∀ f, (encodeWave c code n e).2 ≠ .faulted f) ∧ mayAnswer (.enc code n) (encodeWave c code n e).2 = true := by
  unfold encodeWave
  split_ifs <;> exact ⟨nofun, rfl⟩

/-- What a command answers on a running block, by its meaning (30_encoding R87). -/
theorem exec_command_answers (hf : s.fault = 0) (hi : i.isCommand = true) (h : exec i s = .next t) :
    ∃ r, Answers i r t := by
  cases i with
  | drst | crst | erst =>
    cases (command_running hf _).symm.trans h
    exact ⟨.okNone, answers_respond hf nofun rfl⟩
  | edge level duration =>
    rcases finishEdge_next ((command_running hf _).symm.trans h) with ⟨m, d, -, rfl⟩ | ⟨c, d, -, rfl⟩
    · exact ⟨edgeResponse m, answers_respond hf (edgeResponse_ne_faulted m) (by cases m <;> rfl)⟩
    · exact ⟨_, answers_answerFaulted _ (raiseFault_fault_ne_zero c hf)⟩
  | cedge level duration =>
    cases (command_running hf _).symm.trans h
    exact ⟨_, answers_respond hf (edgeResponse_ne_faulted _) (by cases (cEdge _ _ _ _).2 <;> rfl)⟩
  | enc code bitCount =>
    cases (command_running hf _).symm.trans h
    obtain ⟨hrunning, hallowed⟩ := encodeWave_response s.cfg code bitCount s.enc
    exact ⟨_, answers_respond hf hrunning hallowed⟩
  | next =>
    rcases pullSample_next ((command_running hf _).symm.trans h) with ⟨-, e, rfl⟩ | rfl
    · exact ⟨.okSample e, answers_respond hf nofun rfl⟩
    · exact ⟨.done, answers_respond hf nofun rfl⟩
  | _ => cases hi

/-- Settles O7: a halted block answers `FAULTED`, and a running one by the command's meaning. -/
theorem answersAreThoseOfTheTable : Obligations.AnswersAreThoseOfTheTable := by
  intro i s t hi hexec
  by_cases hf : s.fault = 0
  · exact exec_command_answers hf hi hexec
  · cases (exec_command_halted hi hf).symm.trans hexec
    exact ⟨_, answers_answerFaulted i hf⟩

/-! ### The illegal word (30_encoding R90) -/

/-- A word is illegal: its opcode is no command's, or a bit that the format of its opcode requires to be zero is 1. -/
def IllegalWord (w : CommandWord) : Prop :=
  ¬ (1 ≤ (opField w).toNat ∧ (opField w).toNat ≤ 7)
    ∨ (((opField w).toNat = 1 ∨ (opField w).toNat = 3 ∨ (opField w).toNat = 5 ∨ (opField w).toNat = 7)
        ∧ ∃ k < 72, w.getLsbD k = true)
    ∨ (((opField w).toNat = 2 ∨ (opField w).toNat = 4) ∧ ∃ k, 33 ≤ k ∧ k < 72 ∧ w.getLsbD k = true)

/-- A field that is zero has no bit that is 1. -/
theorem bit_of_field_eq_zero {n start len k : Nat} {x : BitVec n} (h : x.extractLsb' start len = 0) (hlow : start ≤ k)
    (hhigh : k < start + len) : x.getLsbD k = false := by
  have hbit := congrArg (fun v : BitVec len => v.getLsbD (k - start)) h
  simpa [show k - start < len by omega, show start + (k - start) = k by omega] using hbit

theorem not_illegalWord_of_holds (h : Holds w i) : ¬ IllegalWord w := by
  cases i with
  | drst | crst | erst | next =>
    obtain ⟨hop, hz⟩ := h
    rintro (hill | ⟨-, k, hk, hbit⟩ | ⟨hill, -⟩)
    · simp [hop] at hill
    · simp [bit_of_field_eq_zero hz k.zero_le (by omega)] at hbit
    · simp [hop] at hill
  | edge level duration | cedge level duration =>
    obtain ⟨hop, hz, -⟩ := h
    rintro (hill | ⟨hill, -⟩ | ⟨-, k, hlow, hk, hbit⟩)
    · simp [hop] at hill
    · simp [hop] at hill
    · simp [bit_of_field_eq_zero hz hlow (by omega)] at hbit
  | enc code bitCount =>
    obtain ⟨hop, -⟩ := h
    rintro (hill | ⟨hill, -⟩ | ⟨hill, -⟩) <;> simp [hop] at hill
  | _ => exact h.elim

theorem decodeWord_illegal (h : IllegalWord w) : ∃ e, decodeWord w = .error e := by
  cases hdec : decodeWord w with
  | error e => exact ⟨e, rfl⟩
  | ok i => exact absurd h (not_illegalWord_of_holds (holds_of_decodeWord hdec))

/-- An illegal word is answered and not executed. -/
theorem step_illegalWord {rest : List Event} (hwf : s.cfg.wf = true) (hinbox : s.inbox = .command w :: rest)
    (h : IllegalWord w) : step s = .next (answerIllegal { s with inbox := rest }) := by
  obtain ⟨e, he⟩ := decodeWord_illegal h
  rw [step_of_inbox_cons hwf hinbox, runEvent, runCommandWord, he]

/-- Settles O5: no command is held by an illegal word, so it is answered and not executed. -/
theorem illegalWordIsNotExecuted : Obligations.IllegalWordIsNotExecuted := by
  intro s w rest hwf hinbox hillegal
  rw [step_illegalWord hwf hinbox hillegal]
  exact ⟨fun hf => congrArg _ (if_pos hf), fun hf => congrArg _ (if_neg hf)⟩

end Sys2Proof.Machine
end

section
/-! PROOFS. The textual form of commands: numbers, words and operands read back as they were written (30_encoding R93). -/

namespace Sys2Proof.Machine

variable {text word a b m : List Char} {base bound n : Nat}

/-! ### Numbers -/

theorem digitsOnto_append (base acc : Nat) (xs ys : List Char) :
    digitsOnto base acc (xs ++ ys) = (digitsOnto base acc xs).bind (fun v => digitsOnto base v ys) := by
  induction xs generalizing acc with
  | nil => rfl
  | cons ch rest ih =>
    simp only [List.cons_append, digitsOnto]
    cases digitValue ch with
    | none => rfl
    | some v =>
      simp only
      split
      · exact ih _
      · rfl

/-- Every digit of the base, written in the letter case that `f` gives it, has its own value. -/
def ReadsDigits (base : Nat) (f : Char → Char) : Prop := ∀ d < base, digitValue (f d.digitChar) = some d

/-- Decimal digits are written as they are. -/
theorem readsDigits_decimal : ReadsDigits 10 id := by
  unfold ReadsDigits
  decide

/-- Hexadecimal digits are written in capitals (log entry 20). -/
theorem readsDigits_hex : ReadsDigits 16 Char.toUpper := by
  unfold ReadsDigits
  decide

theorem digitsOnto_digit {f : Char → Char} {d : Nat} (hf : ReadsDigits base f) (hd : d < base) (acc : Nat) :
    digitsOnto base acc [f d.digitChar] = some (acc * base + d) := by
  simp [digitsOnto, hf d hd, hd]

/-- The digits of a number are read back as the number. -/
theorem digitsOnto_toDigits {f : Char → Char} (hb : 1 < base) (hf : ReadsDigits base f) (n : Nat) :
    digitsOnto base 0 ((Nat.toDigits base n).map f) = some n := by
  induction n using Nat.strong_induction_on with
  | h n ih =>
    rcases Nat.lt_or_ge n base with hlt | hge
    · rw [Nat.toDigits_of_lt_base hlt, List.map_singleton, digitsOnto_digit hf hlt, Nat.zero_mul, Nat.zero_add]
    · have hquot : n / base < n := Nat.div_lt_self (by omega) hb
      have hrem : n % base < base := Nat.mod_lt n (by omega)
      rw [Nat.toDigits_of_base_le hb hge, List.map_append, digitsOnto_append, ih _ hquot, Option.bind_some,
        List.map_singleton, digitsOnto_digit hf hrem, Nat.div_add_mod']

theorem parseNumber_of_digitsOnto (hread : digitsOnto base 0 text = some n) (hne : text ≠ []) (hn : n < bound) :
    parseNumber base bound text = some n := by
  simp [parseNumber, hne, hread, hn]

theorem digitsOnto_decimalText (n : Nat) : digitsOnto 10 0 (decimalText n) = some n := by
  have hread := digitsOnto_toDigits (by decide) readsDigits_decimal n
  rwa [List.map_id] at hread

theorem parseNumber_decimalText (hn : n < bound) : parseNumber 10 bound (decimalText n) = some n :=
  parseNumber_of_digitsOnto (digitsOnto_decimalText n) Nat.toDigits_ne_nil hn

theorem parseHex_hexText (hn : n < bound) : parseHex bound (hexText n) = some n :=
  parseNumber_of_digitsOnto (digitsOnto_toDigits (by decide) readsDigits_hex n) (by simp [Nat.toDigits_ne_nil]) hn

theorem parseLevel_bitText (l : Level) : parseLevel (bitText l) = some l := by
  cases l <;> rfl

/-! ### Words: no blank and no comma -/

/-- The text is not empty and holds neither a blank nor a comma, so that it ends where the next of them stands. -/
abbrev IsWord (text : List Char) : Prop := text ≠ [] ∧ ∀ ch ∈ text, ch ≠ ' ' ∧ ch ≠ ','

theorem IsWord.cons {ch : Char} (h : IsWord word) (hblank : ch ≠ ' ') (hcomma : ch ≠ ',') : IsWord (ch :: word) :=
  ⟨nofun, List.forall_mem_cons.mpr ⟨⟨hblank, hcomma⟩, h.2⟩⟩

/-- Whatever is read as a number holds digits only. -/
theorem digitValue_of_digitsOnto {acc : Nat} (h : digitsOnto base acc text = some n) :
    ∀ ch ∈ text, digitValue ch ≠ none := by
  induction text generalizing acc with
  | nil => nofun
  | cons ch rest ih =>
    simp only [digitsOnto] at h
    split at h
    · cases h
    · rename_i v hv
      split at h
      · exact List.forall_mem_cons.mpr ⟨by rw [hv]; nofun, ih h⟩
      · cases h

theorem isWord_of_digitsOnto {acc : Nat} (h : digitsOnto base acc text = some n) (hne : text ≠ []) : IsWord text := by
  refine ⟨hne, fun ch hch => ⟨?_, ?_⟩⟩ <;> rintro rfl <;> exact digitValue_of_digitsOnto h _ hch (by decide)

theorem isWord_decimalText (n : Nat) : IsWord (decimalText n) :=
  isWord_of_digitsOnto (digitsOnto_decimalText n) Nat.toDigits_ne_nil

theorem isWord_hexText (n : Nat) : IsWord (hexText n) :=
  ((isWord_of_digitsOnto (digitsOnto_toDigits (by decide) readsDigits_hex n) (by simp [Nat.toDigits_ne_nil])).cons
    (by decide) (by decide)).cons (by decide) (by decide)

theorem isWord_bitText (l : Level) : IsWord (bitText l) := by
  cases l <;> simp [IsWord, bitText]

/-! ### Blanks and commas -/

theorem trim_eq_self (hhead : text.head? ≠ some ' ') (hlast : text.getLast? ≠ some ' ') : trim text = text := by
  rw [trim, List.dropWhile_beq_eq_self_of_head?_ne hhead,
    List.dropWhile_beq_eq_self_of_head?_ne (by rwa [List.head?_reverse]), List.reverse_reverse]

theorem IsWord.head?_ne (h : IsWord word) : word.head? ≠ some ' ' :=
  fun hhead => (h.2 _ (List.mem_of_head? hhead)).1 rfl

theorem IsWord.getLast?_ne (h : IsWord word) : word.getLast? ≠ some ' ' :=
  fun hlast => (h.2 _ (List.mem_of_getLast? hlast)).1 rfl

/-- An operand is a word after one blank, which is skipped (log entry 20). -/
theorem trim_blank_word (h : IsWord word) : trim (' ' :: word) = word :=
  trim_eq_self h.head?_ne h.getLast?_ne

theorem splitOperands_comma {first : List Char} {more : List (List Char)} (h : splitOperands text = first :: more) :
    splitOperands (',' :: text) = [] :: first :: more := by
  simp [splitOperands, h]

/-- Characters that are no commas go into the first operand. -/
theorem splitOperands_append {first : List Char} {more : List (List Char)} (hword : ∀ ch ∈ word, ch ≠ ',')
    (h : splitOperands text = first :: more) : splitOperands (word ++ text) = (word ++ first) :: more := by
  induction word with
  | nil => exact h
  | cons ch rest ih =>
    obtain ⟨hch, hrest⟩ := List.forall_mem_cons.mp hword
    simp [splitOperands, ih hrest, hch]

theorem splitOperands_blank_word (h : IsWord word) : splitOperands (' ' :: word) = [' ' :: word] := by
  have hsplit := splitOperands_append (word := ' ' :: word) (text := []) (first := []) (more := [])
    (List.forall_mem_cons.mpr ⟨by decide, fun ch hch => (h.2 ch hch).2⟩) rfl
  rwa [List.append_nil] at hsplit

/-! ### A line of a command with two operands -/

/-- A mnemonic and two operands (30_encoding R93). -/
def commandLine (mnemonic a b : List Char) : List Char := mnemonic ++ ' ' :: (a ++ ',' :: ' ' :: b)

theorem splitOperands_two (ha : IsWord a) (hb : IsWord b) :
    splitOperands (' ' :: (a ++ ',' :: ' ' :: b)) = [' ' :: a, ' ' :: b] := by
  have hsplit := splitOperands_append (word := ' ' :: a)
    (List.forall_mem_cons.mpr ⟨by decide, fun ch hch => (ha.2 ch hch).2⟩)
    (splitOperands_comma (splitOperands_blank_word hb))
  rwa [List.append_nil] at hsplit

theorem getLast?_commandLine (hb : b ≠ []) : (commandLine m a b).getLast? = b.getLast? := by
  obtain ⟨ch, rest, rfl⟩ := List.exists_cons_of_ne_nil hb
  simp [commandLine, List.getLast?_append, List.getLast?_cons]

theorem trim_commandLine (hm : IsWord m) (hb : IsWord b) : trim (commandLine m a b) = commandLine m a b := by
  apply trim_eq_self
  · rw [commandLine, List.head?_append_of_ne_nil _ hm.1]
    exact hm.head?_ne
  · rw [getLast?_commandLine hb.1]
    exact hb.getLast?_ne

theorem takeWhile_commandLine (hm : IsWord m) : (commandLine m a b).takeWhile (· != ' ') = m := by
  rw [commandLine, List.takeWhile_append_of_pos (fun ch hch => by simpa using (hm.2 ch hch).1)]
  simp

theorem dropWhile_commandLine (hm : IsWord m) :
    (commandLine m a b).dropWhile (· != ' ') = ' ' :: (a ++ ',' :: ' ' :: b) := by
  rw [commandLine, List.dropWhile_append_of_pos (fun ch hch => by simpa using (hm.2 ch hch).1)]
  simp

/-- The parse of a line is chosen by its mnemonic, and applies to its two operands. -/
theorem parseCommand_commandLine (hm : IsWord m) (ha : IsWord a) (hb : IsWord b) :
    parseCommand (commandLine m a b)
      = if m = "DRST".toList then parseNoOperands .drst (' ' :: (a ++ ',' :: ' ' :: b))
        else if m = "EDGE".toList then parseSampleOperands .edge [' ' :: a, ' ' :: b]
        else if m = "CRST".toList then parseNoOperands .crst (' ' :: (a ++ ',' :: ' ' :: b))
        else if m = "CEDGE".toList then parseSampleOperands .cedge [' ' :: a, ' ' :: b]
        else if m = "ERST".toList then parseNoOperands .erst (' ' :: (a ++ ',' :: ' ' :: b))
        else if m = "ENC".toList then parseKeyOperands [' ' :: a, ' ' :: b]
        else if m = "NEXT".toList then parseNoOperands .next (' ' :: (a ++ ',' :: ' ' :: b))
        else none := by
  simp only [parseCommand, trim_commandLine hm hb, takeWhile_commandLine hm, dropWhile_commandLine hm,
    splitOperands_two ha hb]

/-! ### The operands of a line -/

theorem parseSampleOperands_written (f : Level → Dur → Instr) (l : Level) (d : Dur) :
    parseSampleOperands f [' ' :: bitText l, ' ' :: decimalText d.toNat] = some (f l d) := by
  simp [parseSampleOperands, trim_blank_word (isWord_bitText l), trim_blank_word (isWord_decimalText d.toNat),
    parseLevel_bitText, parseNumber_decimalText d.isLt]

theorem parseKeyOperands_written (code : BitVec 64) (bitCount : BitVec 8) :
    parseKeyOperands [' ' :: hexText code.toNat, ' ' :: decimalText bitCount.toNat] = some (.enc code bitCount) := by
  simp [parseKeyOperands, trim_blank_word (isWord_hexText code.toNat), trim_blank_word (isWord_decimalText bitCount.toNat),
    parseHex_hexText code.isLt, parseNumber_decimalText bitCount.isLt]

/-! ### The textual form of each command -/

theorem commandText_edge (l : Level) (d : Dur) :
    commandText (.edge l d) = some (commandLine "EDGE".toList (bitText l) (decimalText d.toNat)) := by
  simp [commandText, commandLine]

theorem commandText_cedge (l : Level) (d : Dur) :
    commandText (.cedge l d) = some (commandLine "CEDGE".toList (bitText l) (decimalText d.toNat)) := by
  simp [commandText, commandLine]

theorem commandText_enc (code : BitVec 64) (bitCount : BitVec 8) :
    commandText (.enc code bitCount)
      = some (commandLine "ENC".toList (hexText code.toNat) (decimalText bitCount.toNat)) := by
  simp [commandText, commandLine]

/-- Settles O8: a mnemonic alone is read by evaluation; a line with operands is cut at its blanks and its comma, which no number
holds, and each operand reads back. -/
theorem commandTextReadsBack : Obligations.CommandTextReadsBack := by
  intro i text htext
  cases i with
  | drst | crst | erst | next =>
    cases htext
    decide
  | edge level duration =>
    obtain rfl := Option.some.inj ((commandText_edge level duration).symm.trans htext)
    exact (parseCommand_commandLine (by simp [IsWord]) (isWord_bitText _) (isWord_decimalText _)).trans
      (parseSampleOperands_written _ _ _)
  | cedge level duration =>
    obtain rfl := Option.some.inj ((commandText_cedge level duration).symm.trans htext)
    exact (parseCommand_commandLine (by simp [IsWord]) (isWord_bitText _) (isWord_decimalText _)).trans
      (parseSampleOperands_written _ _ _)
  | enc code bitCount =>
    obtain rfl := Option.some.inj ((commandText_enc code bitCount).symm.trans htext)
    exact (parseCommand_commandLine (by simp [IsWord]) (isWord_hexText _) (isWord_decimalText _)).trans
      (parseKeyOperands_written _ _)
  | _ => cases htext

end Sys2Proof.Machine
end

section
/-! PROOFS. The tolerance matcher: the call alone, and the ends and the size of its window (40_tolerance_matcher R110, R111). -/

namespace Sys2Proof.Machine

variable {s : State} {m e t : Nat}

/-! ### The ends of the window (40_tolerance_matcher R111) -/

theorem windowMatch_eq_false_iff : windowMatch m e t = false ↔ e + t ≤ m ∨ m + t ≤ e := by
  rw [← Bool.not_eq_true, windowMatch_bounds]
  omega

/-- Both ends of the window are outside it. -/
theorem windowMatch_add_self (e t : Nat) : windowMatch (e + t) e t = false :=
  windowMatch_eq_false_iff.mpr (.inl le_rfl)

theorem windowMatch_sub_self (h : t ≤ e) : windowMatch (e - t) e t = false :=
  windowMatch_eq_false_iff.mpr (.inr (Nat.sub_add_cancel h).le)

/-- The values next to the ends are inside. -/
theorem windowMatch_add_sub_one (h : 1 ≤ t) : windowMatch (e + t - 1) e t = true :=
  (windowMatch_bounds _ _ _).mpr ⟨by omega, by omega⟩

theorem windowMatch_sub_add_one (h : 1 ≤ t) (hle : t ≤ e) : windowMatch (e - t + 1) e t = true :=
  (windowMatch_bounds _ _ _).mpr ⟨by omega, by omega⟩

/-! ### Tolerances 0 and 1, and a tolerance above the expected value -/

theorem windowMatch_zero_tolerance (m e : Nat) : windowMatch m e 0 = false :=
  windowMatch_eq_false_iff.mpr (Nat.le_total e m)

theorem windowMatch_one_tolerance (m e : Nat) : windowMatch m e 1 = true ↔ m = e := by
  rw [windowMatch_bounds]
  omega

/-- A tolerance above the expected value leaves the upper end only. -/
theorem windowMatch_of_expected_lt (h : e < t) : windowMatch m e t = true ↔ m < e + t := by
  rw [windowMatch_bounds]
  exact and_iff_left (Nat.lt_add_left m h)

/-! ### The size of the window -/

/-- Below the upper end only the lower one is left to test. -/
theorem windowMatch_of_lt (h : m < e + t) : windowMatch m e t = decide (e + 1 - t ≤ m) := by
  rw [Bool.eq_iff_iff, windowMatch_bounds, decide_eq_true_iff]
  omega

/-- The values that match are one interval. -/
theorem filter_windowMatch_range (e t : Nat) :
    (List.range (e + t)).filter (fun m => windowMatch m e t) = List.Ico (e + 1 - t) (e + t) := by
  have hlower : ∀ m ∈ List.range (e + t), windowMatch m e t = decide (e + 1 - t ≤ m) :=
    fun m hm => windowMatch_of_lt (List.mem_range.mp hm)
  rw [List.filter_congr hlower, ← List.Ico.zero_bot, List.Ico.filter_le, Nat.zero_max]

theorem length_filter_windowMatch (h : t ≤ e) :
    ((List.range (e + t)).filter (fun m => windowMatch m e t)).length = 2 * t - 1 := by
  rw [filter_windowMatch_range, List.Ico.length]
  omega

/-- Settles O24: the window is the interval between `e - t` and `e + t`, both ends outside, cut at 0. -/
theorem matchCornerCases : Obligations.MatchCornerCases :=
  ⟨windowMatch_eq_false_iff.mpr (.inr (by decide)), windowMatch_zero_tolerance, windowMatch_one_tolerance,
    fun e t h => ⟨windowMatch_add_self e t, windowMatch_add_sub_one h⟩,
    fun _ _ h hle => ⟨windowMatch_sub_self hle, windowMatch_sub_add_one h hle⟩,
    fun _ _ _ h => windowMatch_of_expected_lt h,
    fun _ _ hle => ⟨fun _ hm => ((windowMatch_bounds _ _ _).mp hm).1, length_filter_windowMatch hle⟩⟩

/-! ### `MATCH` called alone (40_tolerance_matcher R110) -/

/-- The comparator's bit is the test of the window in integers. -/
theorem durMatch_eq_decide (measured : Dur) (e : Nat) (tolerance : Dur) :
    durMatch measured e tolerance = decide (|(measured.toNat : Int) - (e : Int)| < (tolerance.toNat : Int)) := by
  rw [Bool.eq_iff_iff, decide_eq_true_iff]
  exact windowMatch_iff _ _ _

/-- `MATCH` hands back the comparator's bit and writes no register of the block. -/
theorem exec_matchOp (hf : s.fault = 0) (measured : Dur) (e : Nat) (tolerance : Dur) :
    exec (.matchOp measured e tolerance) s = .next { s with ret := .bool (durMatch measured e tolerance) } :=
  microCall_running hf _

/-- Settles O23, by the comparator's window in integers. -/
theorem matchIsTheStrictWindow : Obligations.MatchIsTheStrictWindow := by
  intro s measured e tolerance hf
  rw [exec_matchOp hf, durMatch_eq_decide]

end Sys2Proof.Machine
end

section
/-! PROOFS. The pulse buffer: pushing, consuming, the internal resets, and the `EDGE` that finds the buffer full (41_pulse_buffer
R120 to R122, 43_decode_engine R140 to R142, 45_bit_accumulator R190, 60_exceptions R248). -/

namespace Sys2Proof.Machine

variable {s : State} {c : Config} {d : DecoderState} {level : Level} {k : Nat}

/-! ### How a call and an `EDGE` end on a running block (60_exceptions R243, R244) -/

/-- A running block has no other bit in `FAULT`, so the cause's is the only one; the decoder group
is what the operation left. -/
theorem raiseFault_running (hf : s.fault = 0) (cause : Cause) (d : DecoderState) :
    raiseFault cause { s with dec := d } = { s with dec := d, fault := causeBit cause } := by
  simp [raiseFault, hf]

/-- A lone call that returns no value writes the decoder group and the return port. -/
theorem finishCall_noValue (s : State) (d : DecoderState) :
    finishCall s noValue (.ret () d) = .next { s with dec := d, ret := .nothing } := rfl

theorem finishCall_raised {α : Type} (hf : s.fault = 0) (value : α → ReturnValue) (cause : Cause) (d : DecoderState) :
    finishCall s value (.raised cause d) = .next { s with dec := d, fault := causeBit cause, ret := .raised } := by
  rw [finishCall, raiseFault_running hf]

theorem finishEdge_raised (hf : s.fault = 0) (cause : Cause) (d : DecoderState) :
    finishEdge s (.raised cause d)
      = .next { s with dec := d, fault := causeBit cause, rsp := some (responseWord (.faulted (causeBit cause))) } := by
  rw [finishEdge, raiseFault_running hf]
  rfl

/-! ### `PBPUSH` (41_pulse_buffer R120) -/

theorem pbPush_full (level : Level) (duration : Dur) (h : c.pbCap ≤ d.pbLen) :
    pbPush c level duration d = .raised .pbOvf d := if_pos h

theorem pbPush_room (level : Level) (duration : Dur) (h : d.pbLen < c.pbCap) :
    pbPush c level duration d = .ret () { d with pb := d.pb ++ [⟨level, duration⟩] } := if_neg (Nat.not_le.mpr h)

theorem exec_pbpush (hf : s.fault = 0) (level : Level) (duration : Dur) :
    exec (.pbpush level duration) s = finishCall s noValue (pbPush s.cfg level duration s.dec) := microCall_running hf _

/-- Settles O25, by the two cases of the push. -/
theorem pushAppendsOrOverflows : Obligations.PushAppendsOrOverflows := by
  intro s level duration hf
  rw [exec_pbpush hf]
  constructor
  · intro hroom
    rw [pbPush_room level duration hroom, finishCall_noValue]
  · intro hfull
    rw [pbPush_full level duration hfull.ge, finishCall_raised hf]
    rfl

/-! ### `PBCONS` (41_pulse_buffer R121) -/

theorem pbCons_of_le (h : k ≤ d.pbLen) : pbCons k d = .ret () (consume k d) := if_pos h

theorem pbCons_of_lt (h : d.pbLen < k) : pbCons k d = .refused (.consumeBeyondLength k d.pbLen) := if_neg (Nat.not_le.mpr h)

theorem exec_pbcons (hf : s.fault = 0) (k : Nat) : exec (.pbcons k) s = finishCall s noValue (pbCons k s.dec) :=
  microCall_running hf _

/-- Settles O26: what is left is the buffer without its `k` oldest entries. -/
theorem consumeKeepsTheRest : Obligations.ConsumeKeepsTheRest := by
  intro s k hf
  rw [exec_pbcons hf]
  constructor
  · intro hle
    rw [pbCons_of_le hle, finishCall_noValue]
    exact ⟨s.dec.pb.drop k, rfl, List.length_drop, fun i => by rw [List.getElem?_drop, Nat.add_comm]⟩
  · intro hlt
    rw [pbCons_of_lt hlt]
    rfl

/-! ### The internal resets called alone (41_pulse_buffer R122, 43_decode_engine R141, R142, 45_bit_accumulator R190) -/

theorem exec_pbclr (hf : s.fault = 0) : exec .pbclr s = .next { s with dec := pbClr s.dec, ret := .nothing } :=
  microCall_running hf _

theorem exec_aclr (hf : s.fault = 0) : exec .aclr s = .next { s with dec := aClr s.dec, ret := .nothing } :=
  microCall_running hf _

theorem exec_srst (hf : s.fault = 0) : exec .srst s = .next { s with dec := sRst s.dec, ret := .nothing } :=
  microCall_running hf _

theorem exec_frst (hf : s.fault = 0) : exec .frst s = .next { s with dec := fRst s.dec, ret := .nothing } :=
  microCall_running hf _

/-- Settles O27: each call runs its update of the decoder group, whose registers are those of the rule. -/
theorem internalResetsWriteTheirRegisters : Obligations.InternalResetsWriteTheirRegisters :=
  fun _ hf => ⟨exec_pbclr hf, exec_aclr hf, exec_srst hf, exec_frst hf⟩

/-! ### `EDGE` on a full buffer (43_decode_engine R140, 60_exceptions R248) -/

theorem exec_edge (hf : s.fault = 0) (level : Level) (duration : Dur) :
    exec (.edge level duration) s = finishEdge s (edge s.cfg level duration s.dec) := command_running hf _

/-- A sample of a new level that finds no room: its level is taken over, and neither the push nor the engine writes. -/
theorem edge_full (duration : Dur) (hlevel : level ≠ d.lastLevel) (hfull : c.pbCap ≤ d.pbLen) :
    edge c level duration d = .raised .pbOvf { d with lastLevel := level } := by
  have hpush : pbPush c level duration (observe level d) = .raised .pbOvf { d with lastLevel := level } := by
    rw [observe_other hlevel]
    exact pbPush_full level duration hfull
  rw [edge_eq, hpush, UnitFlow.bind_raised]

theorem responseWord_faulted_pbOvf : responseWord (.faulted (causeBit .pbOvf)) = 0xF000000000000000000001 := by decide

/-- Settles O15: the push raises `PB_OVF` before the engine, and the `EDGE` ends in the fault's answer. -/
theorem overflowingEdgeEntersTheFault : Obligations.OverflowingEdgeEntersTheFault := by
  intro s level duration hf hlevel hfull
  rw [exec_edge hf, edge_full duration hlevel hfull.ge, finishEdge_raised hf, responseWord_faulted_pbOvf]
  rfl

end Sys2Proof.Machine
end

section
/-! PROOFS. The preamble detector: the scan for the first pair that matches, and the Mark it leaves in front (42_preamble_detector
R130, R132). -/

namespace Sys2Proof.Machine

variable {s : State} {p : GenericDescriptor} {d : DecoderState} {n : Nat}

/-! ### The pairs of a run of samples -/

/-- Dropping a pair from the front moves every later pair one place down. -/
theorem preamblePair_succ (p : GenericDescriptor) (entries : List Sample) (i : Nat) :
    preamblePair p entries (i + 1) = preamblePair p (entries.drop 2) i := by
  have heven : 2 + 2 * i = 2 * (i + 1) := by omega
  have hodd : 2 + (2 * i + 1) = 2 * (i + 1) + 1 := by omega
  rw [preamblePair, preamblePair, List.getElem?_drop, List.getElem?_drop, heven, hodd]

/-- A pair that lies past the end does not match. -/
theorem preamblePair_of_length_le {entries : List Sample} {i : Nat} (h : entries.length ≤ 2 * i + 1) :
    preamblePair p entries i = false := by
  rw [preamblePair, List.getElem?_eq_none h]
  cases entries[2 * i]? <;> rfl

/-! ### The scan (42_preamble_detector R130) -/

theorem consume_consume (j k : Nat) (d : DecoderState) : consume j (consume k d) = consume (k + j) d := by
  rw [consume, consume, consume, List.drop_drop]

/-- One round: the front pair is consumed whether it matches or not. -/
theorem scanPairs_pair (h : 2 ≤ d.pbLen) :
    scanPairs p (n + 1) d = if preamblePair p d.pb 0 then (true, consume 2 d) else scanPairs p n (consume 2 d) := by
  rw [DecoderState.pbLen] at h
  match hpb : d.pb, h with
  | e0 :: e1 :: rest, _ =>
    simp only [scanPairs, hpb]
    rfl

/-- On fewer than two entries no pair is left to examine, and nothing is consumed. -/
theorem scanPairs_short (h : d.pbLen < 2) :
    (∀ i, preamblePair p d.pb i = false) ∧ scanPairs p n d = (false, consume (2 * (d.pbLen / 2)) d) := by
  rw [Nat.div_eq_of_lt h]
  rw [DecoderState.pbLen] at h
  refine ⟨fun i => preamblePair_of_length_le (by omega), ?_⟩
  cases n with
  | zero => rfl
  | succ n =>
    match hpb : d.pb, h with
    | [], _ | [_], _ =>
      simp only [scanPairs, hpb]
      rfl

/-- All that the pair loop can do, given rounds enough: stop behind the first pair that matches, or consume every pair. -/
theorem scanPairs_cases (h : d.pbLen ≤ n) :
    (∃ j, 2 * j + 1 < d.pbLen ∧ preamblePair p d.pb j = true ∧ (∀ i < j, preamblePair p d.pb i = false)
        ∧ scanPairs p n d = (true, consume (2 * j + 2) d))
      ∨ ((∀ i, preamblePair p d.pb i = false) ∧ scanPairs p n d = (false, consume (2 * (d.pbLen / 2)) d)) := by
  induction n generalizing d with
  | zero => exact .inr (scanPairs_short (by omega))
  | succ n ih =>
    by_cases hshort : d.pbLen < 2
    · exact .inr (scanPairs_short hshort)
    · rw [scanPairs_pair (by omega)]
      cases hfront : preamblePair p d.pb 0 with
      | true => exact .inl ⟨0, by omega, hfront, nofun, rfl⟩
      | false =>
        have hlater : ∀ i, preamblePair p d.pb (i + 1) = preamblePair p (consume 2 d).pb i := preamblePair_succ p d.pb
        have hlen : (consume 2 d).pbLen = d.pbLen - 2 := pbLen_consume 2 d
        rw [if_neg Bool.false_ne_true]
        rcases ih (d := consume 2 d) (by omega) with ⟨j, hj, hmatch, hbefore, hrun⟩ | ⟨hnone, hrun⟩
        · refine .inl ⟨j + 1, by omega, (hlater j).trans hmatch, ?_, ?_⟩
          · rintro (_ | i) hi
            · exact hfront
            · exact (hlater i).trans (hbefore i (by omega))
          · rw [hrun, consume_consume, Nat.add_comm]
            rfl
        · refine .inr ⟨?_, ?_⟩
          · rintro (_ | i)
            · exact hfront
            · exact (hlater i).trans (hnone i)
          · have hpairs : 2 + 2 * ((d.pbLen - 2) / 2) = 2 * (d.pbLen / 2) := by omega
            rw [hrun, consume_consume, hlen, hpairs]

/-! ### `PRDET` called alone (42_preamble_detector R130, R131) -/

theorem realign_pb (d : DecoderState) : (realign d).pb = if frontLevel d = .mark then d.pb else d.pb.drop 1 := by
  unfold realign
  split <;> rfl

theorem realign_eq (d : DecoderState) : realign d = { d with pb := (realign d).pb } := by
  unfold realign
  split <;> rfl

theorem pbLen_realign_le (d : DecoderState) : (realign d).pbLen ≤ d.pbLen := by
  unfold realign
  split
  · exact le_rfl
  · rw [pbLen_consume]
    exact Nat.sub_le _ _

theorem prDet_noPreamble (h : p.preambleMark = 0) (d : DecoderState) : prDet p d = (true, d) := if_pos h

/-- With a preamble required an empty buffer needs no case of its own: it is realigned to itself and holds no pair. -/
theorem prDet_preamble (h : p.preambleMark ≠ 0) (d : DecoderState) : prDet p d = scanPairs p d.pbLen (realign d) := by
  rw [prDet, if_neg h]
  split
  case isTrue hempty =>
    have hpb : d.pb = [] := List.eq_nil_of_length_eq_zero hempty
    have hsame : realign d = d := by
      rw [realign_eq, realign_pb, hpb, List.drop_nil, ite_self, ← hpb]
    rw [hsame, hempty]
    rfl
  case isFalse => rfl

/-- All that `PRDET` can do when a preamble is required (42_preamble_detector R130). -/
theorem prDet_cases (h : p.preambleMark ≠ 0) (d : DecoderState) :
    (∃ j, 2 * j + 1 < (realign d).pbLen ∧ preamblePair p (realign d).pb j = true
        ∧ (∀ i < j, preamblePair p (realign d).pb i = false)
        ∧ prDet p d = (true, consume (2 * j + 2) (realign d)))
      ∨ ((∀ i, preamblePair p (realign d).pb i = false)
        ∧ prDet p d = (false, consume (2 * ((realign d).pbLen / 2)) (realign d))) := by
  rw [prDet_preamble h]
  exact scanPairs_cases (pbLen_realign_le d)

/-- `PRDET` called alone writes the decoder group and hands its answer back. -/
theorem exec_prdet (hf : s.fault = 0) :
    exec .prdet s = .next { s with dec := (prDet s.cfg.p s.dec).2, ret := .bool (prDet s.cfg.p s.dec).1 } :=
  microCall_running hf _

/-- Settles O29: the buffer that the scan starts from is the realigned one, and the scan's two ends are the two cases. -/
theorem preambleDetectorScansPairs : Obligations.PreambleDetectorScansPairs := by
  intro s hf
  rw [exec_prdet hf]
  refine ⟨fun hp => by rw [prDet_noPreamble hp], ?_⟩
  rintro hp aligned haligned
  obtain rfl : (realign s.dec).pb = aligned := (realign_pb s.dec).trans haligned.symm
  rcases prDet_cases hp s.dec with ⟨j, hj, hmatch, hbefore, hrun⟩ | ⟨hnone, hrun⟩
  · refine .inl ⟨j, hj, hmatch, hbefore, ?_⟩
    rw [hrun, consume, realign_eq]
  · refine .inr ⟨hnone, ?_⟩
    rw [hrun, consume, realign_eq]
    rfl

/-! ### The Mark in front (42_preamble_detector R132) -/

/-- Consuming an even number of entries keeps the inferred level, as long as one entry is left (41_pulse_buffer R123). -/
theorem frontLevel_consume_pairs {k : Nat} (h : 2 * k < d.pbLen) : frontLevel (consume (2 * k) d) = frontLevel d := by
  have hparity : (d.pbLen - 2 * k - 1) % 2 = (d.pbLen - 1) % 2 := by omega
  rw [frontLevel, frontLevel, inferredFrontLevel, inferredFrontLevel, pbLen_consume, hparity, consume_lastLevel]

/-- Consuming one entry flips the inferred level, as long as one is left (41_pulse_buffer R123). -/
theorem frontLevel_consume_one (h : 1 < d.pbLen) : frontLevel (consume 1 d) = !frontLevel d := by
  have hparity : decide ((d.pbLen - 1 - 1) % 2 = 1) = !decide ((d.pbLen - 1) % 2 = 1) := by
    rw [← decide_not, decide_eq_decide]
    omega
  rw [frontLevel, frontLevel, inferredFrontLevel, inferredFrontLevel, pbLen_consume, hparity, consume_lastLevel,
    Bool.xor_not]

/-- What the realignment is for: the entry in front is then inferred to be a Mark (42_preamble_detector R130). -/
theorem frontLevel_realign (h : 0 < (realign d).pbLen) : frontLevel (realign d) = .mark := by
  by_cases hmark : frontLevel d = .mark
  · rw [realign, if_pos hmark, hmark]
  · rw [realign, if_neg hmark] at h ⊢
    rw [pbLen_consume] at h
    rw [frontLevel_consume_one (by omega), Bool.eq_false_iff.mpr hmark]
    rfl

/-- With a preamble required, what `PRDET` consumes behind the realignment is whole pairs (42_preamble_detector R132). -/
theorem prDet_consumes_pairs (h : p.preambleMark ≠ 0) (d : DecoderState) :
    ∃ k, (prDet p d).2 = consume (2 * k) (realign d) := by
  rcases prDet_cases h d with ⟨j, -, -, -, hrun⟩ | ⟨-, hrun⟩
  · exact ⟨j + 1, by rw [hrun]; rfl⟩
  · exact ⟨_, by rw [hrun]⟩

/-- 42_preamble_detector R132 (b). -/
theorem prDet_not_found_pbLen (h : p.preambleMark ≠ 0) (hfalse : (prDet p d).1 = false) : (prDet p d).2.pbLen ≤ 1 := by
  rcases prDet_cases h d with ⟨j, -, -, -, hrun⟩ | ⟨-, hrun⟩
  · rw [hrun] at hfalse
    cases hfalse
  · rw [hrun, pbLen_consume]
    omega

theorem prDet_levelsInv (hl : LevelsInv d) : LevelsInv (prDet p d).2 := by
  obtain ⟨hframe, hsuffix⟩ := prDet_frame p d
  exact levelsInv_of_engineFrame hl ⟨by rw [hframe], hsuffix⟩

/-- 42_preamble_detector R132 (a): the front is a Mark after the realignment, and consuming pairs keeps the parity. -/
theorem prDet_front_mark (h : p.preambleMark ≠ 0) (hl : LevelsInv d) {e : Sample} (he : (prDet p d).2.pb.head? = some e) :
    e.level = .mark := by
  obtain ⟨rest, hpb⟩ := List.head?_eq_some_iff.mp he
  have hlevel : frontLevel (prDet p d).2 = e.level := frontLevel_of_levelsInv hpb (prDet_levelsInv hl)
  have hlen : 0 < (prDet p d).2.pbLen := by rw [DecoderState.pbLen, hpb]; exact Nat.succ_pos _
  obtain ⟨k, hk⟩ := prDet_consumes_pairs h d
  rw [hk, pbLen_consume] at hlen
  calc e.level = frontLevel (consume (2 * k) (realign d)) := by rw [← hlevel, hk]
    _ = frontLevel (realign d) := frontLevel_consume_pairs (by omega)
    _ = .mark := frontLevel_realign (by omega)

/-- Settles O30: the three clauses are facts about the decoder that the scan leaves. -/
theorem preambleDetectorLeavesAMark : Obligations.PreambleDetectorLeavesAMark := by
  intro s t hf hp hl hrun
  rw [exec_prdet hf] at hrun
  cases hrun
  exact ⟨fun e he => prDet_front_mark hp hl he, fun hret => prDet_not_found_pbLen hp (ReturnValue.bool.inj hret),
    prDet_levelsInv hl⟩

end Sys2Proof.Machine
end

section
/-! PROOFS. The engine arm by arm: how long its loop runs, and what each arm leaves (43_decode_engine R143 to R147). -/

namespace Sys2Proof.Machine

variable {s : State} {c : Config} {d d' : DecoderState} {cause : Cause} {m : Option Message}

/-! ### The loop (43_decode_engine R143, R147) -/

theorem engineLoop_again (h : engineArm c d = .ret .again d') (n : Nat) : engineLoop c (n + 1) d = engineLoop c n d' := by
  rw [engineLoop, h, UnitFlow.bind_ret]

theorem engineLoop_done (h : engineArm c d = .ret (.done m) d') (n : Nat) : engineLoop c (n + 1) d = .ret m d' := by
  rw [engineLoop, h, UnitFlow.bind_ret]

theorem engineLoop_raised (h : engineArm c d = .raised cause d') (n : Nat) : engineLoop c (n + 1) d = .raised cause d' := by
  rw [engineLoop, h, UnitFlow.bind_raised]

/-- The loop gives the same for every bound that the measure allows. -/
theorem engineLoop_bound_irrelevant {n k : Nat} (hn : engineMeasure d ≤ n) (hk : engineMeasure d ≤ k) :
    engineLoop c n d = engineLoop c k d := by
  have hpos := engineMeasure_pos d
  induction n generalizing d k with
  | zero => omega
  | succ n ih =>
    obtain _ | k := k
    · omega
    · cases harm : engineArm c d with
      | ret r d1 =>
        cases r with
        | again =>
          have hlt := engineArm_again harm
          rw [engineLoop_again harm, engineLoop_again harm]
          exact ih (by omega) (by omega) (engineMeasure_pos d1)
        | done m => rw [engineLoop_done harm, engineLoop_done harm]
      | raised cause d1 => rw [engineLoop_raised harm, engineLoop_raised harm]
      | fault f | refused r => rw [engineLoop, engineLoop, harm]; rfl

/-- Settles O39: the measure is within the bound, and every bound above the measure gives the same run, which is never
refused. -/
theorem engineSettlesWithinTheBound : Obligations.EngineSettlesWithinTheBound := by
  intro c d n hn
  have hsame : engineLoop c n d = eRun c d :=
    engineLoop_bound_irrelevant ((engineMeasure_le_armBound d).trans hn) (engineMeasure_le_armBound d)
  exact ⟨hsame, hsame ▸ eRun_ne_refused c d _⟩

/-! ### One arm of a run -/

/-- After an arm that goes on, the run is the run from what it left. -/
theorem eRun_again (h : engineArm c d = .ret .again d') : eRun c d = eRun c d' := by
  have hlt := engineArm_again h
  have hbound := engineMeasure_le_armBound d
  rw [armBound] at hbound
  exact (engineLoop_again h (2 * d.pbLen + 2)).trans
    (engineLoop_bound_irrelevant (by omega) (engineMeasure_le_armBound d'))

theorem eRun_done (h : engineArm c d = .ret (.done m) d') : eRun c d = .ret m d' := engineLoop_done h _

theorem eRun_raised (h : engineArm c d = .raised cause d') : eRun c d = .raised cause d' := engineLoop_raised h _

/-! ### `ERUN` called alone -/

theorem exec_erun (hf : s.fault = 0) : exec .erun s = finishCall s .message (eRun s.cfg s.dec) := microCall_running hf _

/-- The end of a lone call overwrites the decoder group. -/
theorem finishCall_dec {α : Type} (s : State) (d : DecoderState) (value : α → ReturnValue) (x : UnitFlow α) :
    finishCall { s with dec := d } value x = finishCall s value x := by
  cases x <;> rfl

theorem exec_erun_again (hf : s.fault = 0) (h : engineArm s.cfg s.dec = .ret .again d') :
    exec .erun s = exec .erun { s with dec := d' } := by
  rw [exec_erun hf, eRun_again h, exec_erun (s := { s with dec := d' }) hf]
  exact (finishCall_dec s d' _ _).symm

theorem exec_erun_done (hf : s.fault = 0) (h : engineArm s.cfg s.dec = .ret (.done m) d') :
    exec .erun s = .next { s with dec := d', ret := .message m } := by
  rw [exec_erun hf, eRun_done h]
  rfl

theorem exec_erun_raised (hf : s.fault = 0) (h : engineArm s.cfg s.dec = .raised cause d') :
    exec .erun s = .next { s with dec := d', fault := causeBit cause, ret := .raised } := by
  rw [exec_erun hf, eRun_raised h, finishCall_raised hf]

/-! ### The arm `WaitPreamble` (43_decode_engine R144) -/

theorem engineArm_waitPreamble (h : d.engState = .waitPreamble) : engineArm c d = armWaitPreamble c d := by
  rw [engineArm, h]

theorem armWaitPreamble_found (h : (prDet c.p d).1 = true) :
    armWaitPreamble c d = .ret .again { aClr (prDet c.p d).2 with sd := false, engState := .decode } := if_pos h

theorem armWaitPreamble_notFound (h : (prDet c.p d).1 = false) :
    armWaitPreamble c d = .ret (.done none) (prDet c.p d).2 := if_neg (Bool.eq_false_iff.mp h)

/-- Settles O40: the arm goes on or returns by what the preamble detector answers. -/
theorem waitPreambleArm : Obligations.WaitPreambleArm := by
  intro s hf hstate
  refine ⟨fun hfound => exec_erun_again hf ?_, fun hnot => exec_erun_done hf ?_⟩
  · exact (engineArm_waitPreamble hstate).trans (armWaitPreamble_found hfound)
  · exact (engineArm_waitPreamble hstate).trans (armWaitPreamble_notFound hnot)

/-! ### The arm `Decode` (43_decode_engine R145) -/

theorem engineArm_decode (h : d.engState = .decode) : engineArm c d = armDecode c d := by
  rw [engineArm, h]

theorem armDecode_ok (h : demodulate c d = .ret .ok d') : armDecode c d = .ret (.done none) d' := by
  rw [armDecode, h, UnitFlow.bind_ret]

theorem armDecode_ready (h : demodulate c d = .ret .ready d') : armDecode c d = decodeReady c d' := by
  rw [armDecode, h, UnitFlow.bind_ret]

theorem armDecode_error (h : demodulate c d = .ret .error d') : armDecode c d = .ret .again (decodeError d') := by
  rw [armDecode, h, UnitFlow.bind_ret]

theorem armDecode_raised (h : demodulate c d = .raised cause d') : armDecode c d = .raised cause d' := by
  rw [armDecode, h, UnitFlow.bind_raised]

theorem decodeReady_accept {view : List Byte} {code : BitVec 64} {bits : BitVec 8} (hview : accView d = .ok view)
    (h : interpret c.p view d.accCount = .accept code bits) : decodeReady c d = emitFresh c code bits d := by
  simp only [decodeReady, hview, h]

theorem decodeReady_reject {view : List Byte} (hview : accView d = .ok view)
    (h : interpret c.p view d.accCount = .reject) : decodeReady c d = .ret (.done none) (sRst d) := by
  simp only [decodeReady, hview, h]

/-- Settles O41, by what the selected demodulator answers and, on `Ready`, by the verdict on the view. -/
theorem decodeArm : Obligations.DecodeArm := by
  intro s d' hf hstate demod hdemod
  obtain rfl : demodulate s.cfg s.dec = demod := hdemod.symm
  have harm : engineArm s.cfg s.dec = armDecode s.cfg s.dec := engineArm_decode hstate
  refine ⟨fun hok => ?_, fun hready view hview => ⟨fun code bits haccept => ?_, fun hreject => ?_⟩, fun herror => ?_,
    fun cause hraised => ?_⟩
  · exact exec_erun_done hf (harm.trans (armDecode_ok hok))
  · exact exec_erun_done hf (harm.trans ((armDecode_ready hready).trans (decodeReady_accept hview haccept)))
  · exact exec_erun_done hf (harm.trans ((armDecode_ready hready).trans (decodeReady_reject hview hreject)))
  · exact exec_erun_again hf (harm.trans (armDecode_error herror))
  · exact exec_erun_raised hf (harm.trans (armDecode_raised hraised))

/-! ### The arm `ProcessRepeat` (43_decode_engine R146) -/

theorem engineArm_processRepeat (h : d.engState = .processRepeat) : engineArm c d = armProcessRepeat c d := by
  rw [engineArm, h]

theorem armProcessRepeat_absent (h : c.p.demodRepeat = .absent) :
    armProcessRepeat c d = .ret .again { d with engState := .waitPreamble } := if_pos h

/-- What the arm does with the hook's status: wait, emit the last message as a repeat, or reset and go on. -/
def processRepeatEnd (st : DemodStatus) (d : DecoderState) : UnitFlow ArmEnd :=
  match st with
  | .ok => .ret (.done none) d
  | .ready => .ret (.done (some (repeatOf d.lastMsg))) { d with lastMsg := repeatOf d.lastMsg }
  | .error => .ret .again (sRst d)

theorem demodRepeat_present {p : GenericDescriptor} {entries : List Sample} {r : DemodStatus × Nat}
    (h : demodRepeat p entries = some r) : p.demodRepeat ≠ .absent := fun habsent => by
  rw [demodRepeat_absent habsent] at h
  cases h

/-- A hook that is present keeps its contract, so the arm goes by its status with what it asked for consumed. -/
theorem armProcessRepeat_present {st : DemodStatus} {k : Nat} (h : demodRepeat c.p d.pb = some (st, k)) :
    armProcessRepeat c d = processRepeatEnd st (consume k d) := by
  rw [armProcessRepeat, if_neg (demodRepeat_present h)]
  rcases dmRpt_cases c.p d with ⟨habsent, -⟩ | ⟨st', k', h', -, hrun⟩
  · exact absurd habsent (demodRepeat_present h)
  · cases h.symm.trans h'
    rw [hrun, UnitFlow.bind_ret]
    rfl

/-- Settles O42, by the status that the hook answers. -/
theorem processRepeatArm : Obligations.ProcessRepeatArm := by
  intro s hf hstate
  have harm : engineArm s.cfg s.dec = armProcessRepeat s.cfg s.dec := engineArm_processRepeat hstate
  refine ⟨fun habsent => exec_erun_again hf (harm.trans (armProcessRepeat_absent habsent)), fun st k hhook => ?_⟩
  have hend := harm.trans (armProcessRepeat_present hhook)
  refine ⟨?_, ?_, ?_⟩
  · rintro rfl
    exact exec_erun_done hf hend
  · rintro rfl
    exact exec_erun_done hf hend
  · rintro rfl
    exact exec_erun_again hf hend

end Sys2Proof.Machine
end

section
/-! PROOFS. The messages of a run of the engine, the `EDGE` that runs it, and the reset commands (43_decode_engine R140, R143 to
R151, 46_custom_fsm R207, 47_waveform_encoder R225). -/

namespace Sys2Proof.Machine

variable {s t : State} {c : Config} {d d' : DecoderState} {level : Level} {m : Option Message}

/-! ### How an arm ends -/

/-- All that an arm can end in, as far as messages and the engine's state go: it goes on, outside `ProcessRepeat`; it waits,
in `Decode` unless there is a preamble, an `interpret` that may reject or a repeat hook; it emits a fresh message
(43_decode_engine R145); or, from `ProcessRepeat` only, it emits the last message as a repeat (R146). -/
inductive ArmOutcome (c : Config) (d d' : DecoderState) : ArmEnd → Prop
  | again (hstate : d'.engState ≠ .processRepeat) (hmsg : d'.lastMsg = d.lastMsg) : ArmOutcome c d d' .again
  | waits (hmsg : d'.lastMsg = d.lastMsg)
      (hstate : c.p.preambleMark = 0 → c.p.interpret = .reference → c.p.demodRepeat = .absent → d'.engState = .decode) :
      ArmOutcome c d d' (.done none)
  | fresh (code : BitVec 64) (bits : BitVec 8) (hstate : d'.engState = .processRepeat)
      (hmsg : d'.lastMsg = ⟨c.p.protocolId, code, bits, false⟩) :
      ArmOutcome c d d' (.done (some ⟨c.p.protocolId, code, bits, false⟩))
  | repeated (hpresent : c.p.demodRepeat ≠ .absent) (hbefore : d.engState = .processRepeat)
      (hstate : d'.engState = .processRepeat) (hmsg : d'.lastMsg = repeatOf d.lastMsg) :
      ArmOutcome c d d' (.done (some (repeatOf d.lastMsg)))

variable {r : ArmEnd}

/-- An outcome depends on the start of the arm by its engine state and last message only. -/
theorem ArmOutcome.congr {d0 : DecoderState} (h : ArmOutcome c d d' r) (hstate : d.engState = d0.engState)
    (hmsg : d.lastMsg = d0.lastMsg) : ArmOutcome c d0 d' r := by
  cases h with
  | again hs hm => exact .again hs (hm.trans hmsg)
  | waits hm hs => exact .waits (hm.trans hmsg) hs
  | fresh code bits hs hm => exact .fresh code bits hs hm
  | repeated hpresent hbefore hs hm =>
    rw [hmsg] at hm ⊢
    exact .repeated hpresent (hstate ▸ hbefore) hs hm

theorem DemodFrame.engState (h : DemodFrame d d') : d'.engState = d.engState := by rw [h.1]

theorem DemodFrame.lastMsg (h : DemodFrame d d') : d'.lastMsg = d.lastMsg := by rw [h.1]

theorem prDet_lastMsg (p : GenericDescriptor) (d : DecoderState) : (prDet p d).2.lastMsg = d.lastMsg := by
  rw [(prDet_frame p d).1]

/-- Without a preamble the detector always answers, so an arm that waits has one. -/
theorem armWaitPreamble_outcome (h : armWaitPreamble c d = .ret r d') : ArmOutcome c d d' r := by
  cases hfound : (prDet c.p d).1 with
  | true =>
    cases (armWaitPreamble_found hfound).symm.trans h
    exact .again nofun (prDet_lastMsg c.p d)
  | false =>
    cases (armWaitPreamble_notFound hfound).symm.trans h
    refine .waits (prDet_lastMsg c.p d) fun hnone _ _ => ?_
    rw [prDet_noPreamble hnone] at hfound
    cases hfound

/-- `RefInterpret` accepts every frame (10_state R38). -/
theorem interpret_reference_ne_reject {p : GenericDescriptor} (h : p.interpret = .reference) (view : List Byte) (n : Nat) :
    interpret p view n ≠ .reject := by
  rw [interpret, h]
  exact nofun

theorem decodeReady_outcome (h : decodeReady c d = .ret r d') : ArmOutcome c d d' r := by
  cases hview : accView d with
  | error i =>
    rw [decodeReady, hview] at h
    cases h
  | ok view =>
    cases hverdict : interpret c.p view d.accCount with
    | accept code bits =>
      cases (decodeReady_accept hview hverdict).symm.trans h
      exact .fresh code bits rfl rfl
    | reject =>
      cases (decodeReady_reject hview hverdict).symm.trans h
      exact .waits rfl fun _ href _ => absurd hverdict (interpret_reference_ne_reject href view _)

theorem armDecode_outcome (hs : d.engState = .decode) (h : armDecode c d = .ret r d') : ArmOutcome c d d' r := by
  obtain ⟨st, d1, hdem, -⟩ := UnitFlow.bind_eq_ret.mp h
  have hframe := demodulate_leaves c d
  rw [hdem] at hframe
  have hstate : d1.engState = d.engState := DemodFrame.engState hframe
  have hmsg : d1.lastMsg = d.lastMsg := DemodFrame.lastMsg hframe
  cases st with
  | ok =>
    cases (armDecode_ok hdem).symm.trans h
    exact .waits hmsg fun _ _ _ => hstate.trans hs
  | ready => exact (decodeReady_outcome ((armDecode_ready hdem).symm.trans h)).congr hstate hmsg
  | error =>
    cases (armDecode_error hdem).symm.trans h
    exact .again nofun hmsg

theorem armProcessRepeat_outcome (hs : d.engState = .processRepeat) (h : armProcessRepeat c d = .ret r d') :
    ArmOutcome c d d' r := by
  cases hhook : demodRepeat c.p d.pb with
  | none =>
    cases (armProcessRepeat_absent (demodRepeat_eq_none hhook)).symm.trans h
    exact .again nofun rfl
  | some hook =>
    have hpresent := demodRepeat_present hhook
    obtain ⟨st, k⟩ := hook
    have hend := (armProcessRepeat_present hhook).symm.trans h
    cases st with
    | ok =>
      cases hend
      exact .waits rfl fun _ _ habsent => absurd habsent hpresent
    | ready =>
      cases hend
      exact .repeated hpresent hs hs rfl
    | error =>
      cases hend
      exact .again nofun rfl

theorem engineArm_outcome (h : engineArm c d = .ret r d') : ArmOutcome c d d' r := by
  cases hs : d.engState with
  | waitPreamble => exact armWaitPreamble_outcome ((engineArm_waitPreamble hs).symm.trans h)
  | decode => exact armDecode_outcome hs ((engineArm_decode hs).symm.trans h)
  | processRepeat => exact armProcessRepeat_outcome hs ((engineArm_processRepeat hs).symm.trans h)

/-! ### How a run ends -/

/-- What can follow an arm that goes on could have followed without it: it leaves `ProcessRepeat` and keeps the last
message. -/
theorem ArmOutcome.after_again {d1 : DecoderState} (hfirst : ArmOutcome c d d1 .again) (h : ArmOutcome c d1 d' (.done m)) :
    ArmOutcome c d d' (.done m) := by
  obtain ⟨hleft, hkept⟩ := hfirst
  cases h with
  | waits hmsg hstate => exact .waits (hmsg.trans hkept) hstate
  | fresh code bits hstate hmsg => exact .fresh code bits hstate hmsg
  | repeated _ hbefore => exact absurd hbefore hleft

/-- A run ends as one of its arms could have ended it at once. -/
theorem engineLoop_outcome {n : Nat} (h : engineLoop c n d = .ret m d') : ArmOutcome c d d' (.done m) := by
  induction n generalizing d with
  | zero => cases h
  | succ n ih =>
    obtain ⟨r, d1, harm, -⟩ := UnitFlow.bind_eq_ret.mp h
    have hfirst := engineArm_outcome harm
    cases r with
    | again => exact hfirst.after_again (ih ((engineLoop_again harm n).symm.trans h))
    | done m1 =>
      cases (engineLoop_done harm n).symm.trans h
      exact hfirst

theorem eRun_outcome (h : eRun c d = .ret m d') : ArmOutcome c d d' (.done m) := engineLoop_outcome h

/-- The last message is the emitted one, and without one it stays (43_decode_engine R149 (c)). -/
theorem ArmOutcome.lastMsg (h : ArmOutcome c d d' (.done m)) : d'.lastMsg = m.getD d.lastMsg := by
  cases h with
  | waits hmsg _ => exact hmsg
  | fresh code bits _ hmsg => exact hmsg
  | repeated _ _ _ hmsg => exact hmsg

theorem eRun_frame (h : eRun c d = .ret m d') : EngineFrame d d' := by
  have hframe := eRun_leaves c d
  rwa [h] at hframe

/-- Settles O43: the run returns with the accumulator's invariant kept, and its frame and its outcome give the rest. -/
theorem engineRunCompletes : Obligations.EngineRunCompletes := by
  intro s hwf hf hacc
  obtain ⟨m, d', hrun, hacc'⟩ := eRun_completes hwf hacc
  obtain ⟨hlevel, hsuffix⟩ := eRun_frame hrun
  have hmsg : d'.lastMsg = m.getD s.dec.lastMsg := (eRun_outcome hrun).lastMsg
  refine ⟨{ s with dec := d', ret := .message m }, m, ?_, rfl, hlevel, hsuffix, hacc', ?_, ?_⟩
  · rw [exec_erun hf, hrun]
    rfl
  · rintro rfl
    exact hmsg
  · rintro x rfl
    exact hmsg

/-! ### `EDGE` on the decoder group (43_decode_engine R140) -/

theorem edge_overflow (duration : Dur) (h : c.pbCap ≤ (observe level d).pbLen) :
    edge c level duration d = .raised .pbOvf (observe level d) := by
  rw [edge_eq, pbPush_full level duration h, UnitFlow.bind_raised]

theorem edge_room (duration : Dur) (h : (observe level d).pbLen < c.pbCap) :
    edge c level duration d
      = eRun c { observe level d with pb := (observe level d).pb ++ [⟨level, duration⟩] } := by
  rw [edge_eq, pbPush_room level duration h, UnitFlow.bind_ret]

/-- An `EDGE` that returns found room and ran the engine. -/
theorem edge_returns {duration : Dur} (h : edge c level duration d = .ret m d') :
    (observe level d).pbLen < c.pbCap
      ∧ eRun c { observe level d with pb := (observe level d).pb ++ [⟨level, duration⟩] } = .ret m d' := by
  by_cases hroom : (observe level d).pbLen < c.pbCap
  · exact ⟨hroom, (edge_room duration hroom).symm.trans h⟩
  · cases (edge_overflow duration (Nat.le_of_not_lt hroom)).symm.trans h

/-- The push changes neither the engine's state nor the last message. -/
theorem edge_outcome {duration : Dur} (h : edge c level duration d = .ret m d') :
    ArmOutcome c (observe level d) d' (.done m) :=
  (eRun_outcome (edge_returns h).2).congr rfl rfl

theorem edge_lastLevel {duration : Dur} (h : edge c level duration d = .ret m d') : d'.lastLevel = level :=
  (eRun_frame (edge_returns h).2).1

theorem finishEdge_ret (s : State) (m : Option Message) (d : DecoderState) :
    finishEdge s (.ret m d) = .next { s with dec := d, rsp := some (responseWord (edgeResponse m)) } := rfl

/-- Settles O44: the decoder that the sample is pushed into is the one observed, and the engine's run ends the command. -/
theorem edgeAppendsAndRuns : Obligations.EdgeAppendsAndRuns := by
  intro s level duration base hbase
  obtain rfl : sameLevelReset level s.dec = base := hbase.symm
  refine ⟨exec_command_halted rfl, fun hf hfull => ?_, ?_⟩
  · have hedge := edge_overflow (c := s.cfg) (d := s.dec) (level := level) duration hfull.ge
    rw [exec_edge hf, hedge, finishEdge_raised hf]
    rfl
  · rintro hf hroom run rfl
    have hedge := edge_room (c := s.cfg) (d := s.dec) (level := level) duration hroom
    rw [exec_edge hf, hedge]
    refine ⟨fun d' hrun => ?_, fun m d' hrun => ?_, fun cause d' hrun => ?_⟩
    · exact (congrArg (finishEdge s) hrun).trans (finishEdge_ret s none d')
    · exact (congrArg (finishEdge s) hrun).trans (finishEdge_ret s (some m) d')
    · exact (congrArg (finishEdge s) hrun).trans (finishEdge_raised hf cause d')

/-! ### `EDGE` on a configured block (43_decode_engine R149) -/

theorem two_le_pbCap_of_wf (h : c.wf = true) : 2 ≤ c.pbCap := by
  simp only [Config.wf, wfConfig, Bool.and_eq_true, decide_eq_true_eq] at h
  omega

/-- A force-reset empties the buffer, and an empty buffer has room (00_scope R6). -/
theorem observe_room (hwf : c.wf = true) (h : level = d.lastLevel ∨ d.pbLen < c.pbCap) :
    (observe level d).pbLen < c.pbCap := by
  by_cases hsame : level = d.lastLevel
  · have hcap := two_le_pbCap_of_wf hwf
    rw [observe_same hsame]
    exact Nat.lt_of_lt_of_le Nat.zero_lt_two hcap
  · rw [observe_other hsame]
    exact h.resolve_left hsame

/-- Settles O45: the push finds room, so the engine runs and returns; its outcome is the response. -/
theorem edgeCompletes : Obligations.EdgeCompletes := by
  rintro s level duration hwf ⟨⟨-, hacc, -⟩, -⟩ hf hfits
  obtain ⟨m, d', hrun, -⟩ := eRun_completes
    (d := { observe level s.dec with pb := (observe level s.dec).pb ++ [⟨level, duration⟩] }) hwf
    (accumulatorInv_sameLevelReset level hacc)
  have hedge : edge s.cfg level duration s.dec = .ret m d' := (edge_room duration (observe_room hwf hfits)).trans hrun
  have hmsg := (edge_outcome hedge).lastMsg
  refine ⟨_, (exec_edge hf level duration).trans ((congrArg (finishEdge s) hedge).trans (finishEdge_ret s m d')), rfl,
    edge_lastLevel hedge, ?_⟩
  cases m with
  | none => exact .inl rfl
  | some m => exact .inr ⟨m, rfl, hmsg⟩

/-! ### Reading an `EDGE` from its response -/

theorem messageOfWord_responseWord (m : Message) : messageOfWord (responseWord (.okMsg m)) = m := by
  obtain ⟨-, -, hrepeat, hid, hcode, hbits⟩ := responseWordLayout (.okMsg m)
  simp only [messageOfWord, hrepeat, hid, hcode, hbits]

/-- Responses of different status have different words (30_encoding R85, R87). -/
theorem responseWord_ne {a b : Response} (h : statusCode a ≠ statusCode b) : responseWord a ≠ responseWord b := fun heq =>
  h (by rw [← statusField_responseWord, heq, statusField_responseWord])

theorem responseWord_edgeResponse_injective {m m' : Option Message}
    (h : responseWord (edgeResponse m) = responseWord (edgeResponse m')) : m = m' := by
  cases m with
  | none =>
    cases m' with
    | none => rfl
    | some y => exact absurd h (responseWord_ne (a := .okNone) (b := .okMsg y) (show (0 : BitVec 4) ≠ 1 by decide))
  | some x =>
    cases m' with
    | none => exact absurd h (responseWord_ne (a := .okMsg x) (b := .okNone) (show (1 : BitVec 4) ≠ 0 by decide))
    | some y =>
      rw [← messageOfWord_responseWord x, ← messageOfWord_responseWord y]
      exact congrArg (fun w => some (messageOfWord w)) h

theorem responseWord_faulted_ne_edgeResponse (f : BitVec 8) (m : Option Message) :
    responseWord (.faulted f) ≠ responseWord (edgeResponse m) := by
  cases m with
  | none => exact responseWord_ne (b := .okNone) (show (15 : BitVec 4) ≠ 0 by decide)
  | some x => exact responseWord_ne (b := .okMsg x) (show (15 : BitVec 4) ≠ 1 by decide)

/-- On a running block the response of an `EDGE` tells what its engine returned (30_encoding R87, R88). -/
theorem edge_of_response {duration : Dur} (hf : s.fault = 0) (hexec : exec (.edge level duration) s = .next t)
    (hrsp : t.rsp = some (responseWord (edgeResponse m))) : edge s.cfg level duration s.dec = .ret m t.dec := by
  rw [exec_edge hf] at hexec
  rcases finishEdge_next hexec with ⟨m', d, hedge, rfl⟩ | ⟨cause, d, -, rfl⟩
  · obtain rfl := responseWord_edgeResponse_injective (Option.some.inj hrsp)
    exact hedge
  · exact absurd (Option.some.inj hrsp) (responseWord_faulted_ne_edgeResponse _ m)

/-- Settles O46: a repeat needs `ProcessRepeat` before the engine runs, which a sample of the same level would have reset. -/
theorem repeatMessagesCarryTheLastMessage : Obligations.RepeatMessagesCarryTheLastMessage := by
  intro s t level duration m hf hexec hrsp
  have houtcome := edge_outcome (edge_of_response (m := some m) hf hexec hrsp)
  cases houtcome with
  | fresh code bits hstate hmsg => exact ⟨hstate, hmsg, fun _ => rfl, nofun⟩
  | repeated hpresent hbefore hstate hmsg =>
    refine ⟨hstate, hmsg, nofun, fun _ => ?_⟩
    by_cases hsame : level = s.dec.lastLevel
    · rw [observe_same hsame] at hbefore
      cases hbefore
    · rw [observe_other hsame] at hbefore ⊢
      exact ⟨hbefore, hsame, hpresent, rfl⟩

/-- Settles O47: of the ways to wait, only the one in `Decode` is left. -/
theorem noPreambleEndsInDecode : Obligations.NoPreambleEndsInDecode := by
  intro s t level duration hf hpreamble hinterpret habsent hexec hrsp
  have houtcome := edge_outcome (edge_of_response (m := none) hf hexec hrsp)
  cases houtcome with
  | waits _ hstate => exact hstate hpreamble hinterpret habsent

/-! ### The reset commands (43_decode_engine R148, 46_custom_fsm R207, 47_waveform_encoder R225) -/

/-- Settles O21: a running block resets the command's unit, and a halted one answers `FAULTED`. -/
theorem resetCommandsRestoreTheirUnit : Obligations.ResetCommandsRestoreTheirUnit := fun _ =>
  ⟨fun hf => ⟨exec_reset (mem_resetCommands.mpr (.inl rfl)) hf, exec_reset (mem_resetCommands.mpr (.inr (.inl rfl))) hf,
      exec_reset (mem_resetCommands.mpr (.inr (.inr rfl))) hf⟩,
    fun hf => ⟨exec_command_halted rfl hf, exec_command_halted rfl hf, exec_command_halted rfl hf⟩⟩

end Sys2Proof.Machine
end

section
/-! PROOFS. The demodulators round by round: pulse distance, pulse width and Manchester (44_demodulators R163 to R170). -/

namespace Sys2Proof.Machine

variable {s : State} {c : Config} {d d' : DecoderState} {cause : Cause} {st : DemodStatus} {e e0 e1 : Sample}
  {rest : List Sample} {b : Bool}

/-! ### A demodulator called alone -/

/-- The demodulator of a modulation, whichever the configuration selects (44_demodulators R160). -/
def demodBy : Modulation → Config → DecoderState → UnitFlow DemodStatus
  | .pd => dmPd
  | .pw => dmPw
  | .man => dmMan

/-- The micro-operation that calls the demodulator of a modulation alone (30_encoding R91). -/
def demodCall : Modulation → Instr
  | .pd => .dmpd
  | .pw => .dmpw
  | .man => .dmman

theorem exec_demodCall (m : Modulation) (hf : s.fault = 0) :
    exec (demodCall m) s = finishCall s .status (demodBy m s.cfg s.dec) := by
  cases m with
  | pd | pw | man => exact microCall_running hf _

theorem exec_demodCall_returns {m : Modulation} (hf : s.fault = 0) (h : demodBy m s.cfg s.dec = .ret st d') :
    exec (demodCall m) s = .next { s with dec := d', ret := .status st } := by
  rw [exec_demodCall m hf, h]
  rfl

/-- A round that goes on: the call is the call on what the round left. -/
theorem exec_demodCall_again {m : Modulation} (hf : s.fault = 0) (h : demodBy m s.cfg s.dec = demodBy m s.cfg d') :
    exec (demodCall m) s = exec (demodCall m) { s with dec := d' } := by
  rw [exec_demodCall m hf, h, exec_demodCall (s := { s with dec := d' }) m hf]
  exact (finishCall_dec s d' _ _).symm

theorem exec_demodCall_raised {m : Modulation} (hf : s.fault = 0) (h : demodBy m s.cfg s.dec = .raised cause d') :
    exec (demodCall m) s = .next { s with dec := d', fault := causeBit cause, ret := .raised } := by
  rw [exec_demodCall m hf, h, finishCall_raised hf]

/-! ### The push of a round (45_bit_accumulator R191) -/

theorem aPush_full (b : Bool) (h : 8 * c.accBytes = d.accCount) : aPush c b d = .raised .accOvf d := if_pos h.le

/-- A push that returns counts one bit and writes the accumulator only. -/
theorem aPush_ret_frame (h : aPush c b d = .ret () d') : d' = { d with acc := d'.acc, accCount := d.accCount + 1 } := by
  rcases aPush_cases c b d with ⟨-, hpush⟩ | ⟨-, -, hpush⟩ | ⟨v, -, -, hpush⟩
  · cases hpush.symm.trans h
  · cases hpush.symm.trans h
  · cases hpush.symm.trans h
    rfl

theorem aPush_ret_accCount (h : aPush c b d = .ret () d') : d'.accCount = d.accCount + 1 := by
  rw [aPush_ret_frame h]

theorem aPush_ret_pb (h : aPush c b d = .ret () d') : d'.pb = d.pb := by
  rw [aPush_ret_frame h]

theorem aPush_ret_sd (h : aPush c b d = .ret () d') : d'.sd = d.sd := by
  rw [aPush_ret_frame h]

theorem pbLen_of_pb {l : List Sample} (h : d.pb = l) : d.pbLen = l.length := congrArg List.length h

theorem consume_one_of_cons (h : d.pb = e :: rest) : consume 1 d = { d with pb := rest } := by
  rw [consume, h, List.drop_one, List.tail_cons]

theorem consume_two_of_cons (h : d.pb = e0 :: e1 :: rest) : consume 2 d = { d with pb := rest } := by
  rw [consume, h]
  rfl

/-! ### Pulse distance (44_demodulators R164) -/

/-- The bit of a pair that matches a pattern: 1 exactly where the 1 pattern, which is tested first, matches. -/
theorem pdBit_some {p : GenericDescriptor} {mark space : Dur}
    (h : (GenericTiming.bit1Mark p mark && GenericTiming.bit1Space p space) = true
      ∨ (GenericTiming.bit0Mark p mark && GenericTiming.bit0Space p space) = true) :
    pdBit p mark space = some (GenericTiming.bit1Mark p mark && GenericTiming.bit1Space p space) := by
  unfold pdBit
  split
  · rename_i hone
    rw [hone]
  · rename_i hone
    rw [if_pos (h.resolve_left hone), Bool.eq_false_iff.mpr hone]

theorem pdBit_none {p : GenericDescriptor} {mark space : Dur}
    (hone : (GenericTiming.bit1Mark p mark && GenericTiming.bit1Space p space) = false)
    (hzero : (GenericTiming.bit0Mark p mark && GenericTiming.bit0Space p space) = false) : pdBit p mark space = none := by
  rw [pdBit, if_neg (Bool.eq_false_iff.mp hone), if_neg (Bool.eq_false_iff.mp hzero)]

/-- On an empty buffer the demodulator waits, at the declared count and below it. -/
theorem dmPdLoop_empty (n : Nat) (hpb : d.pb = []) : dmPdLoop c n d = .ret .ok d := by
  cases n with
  | zero => rfl
  | succ n => simp only [dmPdLoop, hpb, ite_self]

theorem dmPdLoop_atCount_cons (n : Nat) (hcount : c.p.bitLength ≤ d.accCount) (hpb : d.pb = e :: rest) :
    dmPdLoop c (n + 1) d
      = if GenericTiming.bit1Mark c.p e.duration then .ret .ready (consume 1 d) else .ret .error d := by
  simp only [dmPdLoop, if_pos hcount, hpb]

theorem dmPdLoop_short (n : Nat) (hcount : d.accCount < c.p.bitLength) (hlen : d.pbLen < 2) :
    dmPdLoop c n d = .ret .ok d := by
  cases n with
  | zero => rfl
  | succ n =>
    rw [dmPdLoop, if_neg (Nat.not_le.mpr hcount)]
    split
    · rename_i hpb
      rw [pbLen_of_pb hpb] at hlen
      simp at hlen
    · rfl

theorem dmPdLoop_neither (n : Nat) (hcount : d.accCount < c.p.bitLength) (hpb : d.pb = e0 :: e1 :: rest)
    (hbit : pdBit c.p e0.duration e1.duration = none) : dmPdLoop c (n + 1) d = .ret .error d := by
  simp only [dmPdLoop, if_neg (Nat.not_le.mpr hcount), hpb, hbit]

theorem dmPdLoop_pair (n : Nat) (hcount : d.accCount < c.p.bitLength) (hpb : d.pb = e0 :: e1 :: rest)
    (hbit : pdBit c.p e0.duration e1.duration = some b) :
    dmPdLoop c (n + 1) d = (aPush c b d).bind fun _ d1 => dmPdLoop c n (consume 2 d1) := by
  simp only [dmPdLoop, if_neg (Nat.not_le.mpr hcount), hpb, hbit]

/-- The loop gives the same for every bound that the buffer's length allows. -/
theorem dmPdLoop_bound_irrelevant {n k : Nat} (hn : d.pbLen ≤ n) (hk : d.pbLen ≤ k) : dmPdLoop c n d = dmPdLoop c k d := by
  induction n generalizing d k with
  | zero =>
    have hpb : d.pb = [] := List.length_eq_zero_iff.mp (Nat.le_zero.mp hn)
    rw [dmPdLoop_empty 0 hpb, dmPdLoop_empty k hpb]
  | succ n ih =>
    cases k with
    | zero =>
      have hpb : d.pb = [] := List.length_eq_zero_iff.mp (Nat.le_zero.mp hk)
      rw [dmPdLoop_empty 0 hpb, dmPdLoop_empty _ hpb]
    | succ k =>
      by_cases hcount : c.p.bitLength ≤ d.accCount
      · simp only [dmPdLoop, if_pos hcount]
      · rw [Nat.not_le] at hcount
        rcases hpb : d.pb with _ | ⟨e0, _ | ⟨e1, rest⟩⟩
        · rw [dmPdLoop_empty _ hpb, dmPdLoop_empty _ hpb]
        · have hlen : d.pbLen < 2 := by simp [pbLen_of_pb hpb]
          rw [dmPdLoop_short _ hcount hlen, dmPdLoop_short _ hcount hlen]
        · have hlen : 2 ≤ d.pbLen := by simp [pbLen_of_pb hpb]
          cases hbit : pdBit c.p e0.duration e1.duration with
          | none => rw [dmPdLoop_neither _ hcount hpb hbit, dmPdLoop_neither _ hcount hpb hbit]
          | some b =>
            rw [dmPdLoop_pair _ hcount hpb hbit, dmPdLoop_pair _ hcount hpb hbit]
            cases hpush : aPush c b d with
            | ret _ d1 =>
              have hlen1 : d1.pbLen = d.pbLen := congrArg List.length (aPush_ret_pb hpush)
              exact ih (by rw [pbLen_consume]; omega) (by rw [pbLen_consume]; omega)
            | raised _ _ | fault _ | refused _ => rfl

theorem dmPd_of_cons (hpb : d.pb = e :: rest) : dmPd c d = dmPdLoop c (rest.length + 1) d := by
  rw [dmPd, pbLen_of_pb hpb, List.length_cons]

/-- A pair that carries a bit is consumed after the push, and the rounds go on. -/
theorem dmPd_pair_pushed (hcount : d.accCount < c.p.bitLength) (hpb : d.pb = e0 :: e1 :: rest)
    (hbit : pdBit c.p e0.duration e1.duration = some b) (hpush : aPush c b d = .ret () d') :
    dmPd c d = dmPd c { d' with pb := rest } := by
  rw [dmPd_of_cons hpb, dmPdLoop_pair _ hcount hpb hbit, hpush, UnitFlow.bind_ret,
    consume_two_of_cons ((aPush_ret_pb hpush).trans hpb)]
  exact dmPdLoop_bound_irrelevant (Nat.le_succ _) le_rfl

theorem dmPd_pair_full (hcount : d.accCount < c.p.bitLength) (hpb : d.pb = e0 :: e1 :: rest)
    (hbit : pdBit c.p e0.duration e1.duration = some b) (hfull : 8 * c.accBytes = d.accCount) :
    dmPd c d = .raised .accOvf d := by
  rw [dmPd_of_cons hpb, dmPdLoop_pair _ hcount hpb hbit, aPush_full b hfull, UnitFlow.bind_raised]

/-- Settles O31, by the stop test, the wait for a pair and the pair's bit. -/
theorem pulseDistanceRounds : Obligations.PulseDistanceRounds := by
  intro s hf
  refine ⟨fun hcount => ⟨fun hpb => ?_, fun e rest hpb => ?_⟩, fun hcount => ⟨fun hlen => ?_, ?_⟩⟩
  · exact exec_demodCall_returns (m := .pd) hf (dmPdLoop_empty _ hpb)
  · have hstop := (dmPd_of_cons hpb).trans (dmPdLoop_atCount_cons rest.length hcount hpb)
    rw [consume_one_of_cons hpb] at hstop
    exact ⟨fun hmark => exec_demodCall_returns (m := .pd) hf (hstop.trans (if_pos hmark)),
      fun hmark => exec_demodCall_returns (m := .pd) hf (hstop.trans (if_neg (Bool.eq_false_iff.mp hmark)))⟩
  · exact exec_demodCall_returns (m := .pd) hf (dmPdLoop_short _ hcount hlen)
  · rintro e0 e1 rest hpb one zero hone hzero
    refine ⟨fun h1 h0 => ?_, fun hbit => ?_⟩
    · have hnone := pdBit_none (hone.symm.trans h1) (hzero.symm.trans h0)
      exact exec_demodCall_returns (m := .pd) hf ((dmPd_of_cons hpb).trans (dmPdLoop_neither _ hcount hpb hnone))
    · rw [hone, hzero] at hbit
      have hsome := (pdBit_some hbit).trans (congrArg some hone.symm)
      exact ⟨fun d' hpush => exec_demodCall_again (m := .pd) hf (dmPd_pair_pushed hcount hpb hsome hpush),
        fun hfull => exec_demodCall_raised (m := .pd) hf (dmPd_pair_full hcount hpb hsome hfull)⟩

/-! ### Pulse width (44_demodulators R166) -/

/-- The bit of a Mark that matches a width: 1 exactly where `bit1_mark`, which is tested first, matches. -/
theorem pwBit_some {p : GenericDescriptor} {mark : Dur}
    (h : GenericTiming.bit1Mark p mark = true ∨ GenericTiming.bit0Mark p mark = true) :
    pwBit p mark = some (GenericTiming.bit1Mark p mark) := by
  unfold pwBit
  split
  · rename_i hone
    rw [hone]
  · rename_i hone
    rw [if_pos (h.resolve_left hone), Bool.eq_false_iff.mpr hone]

theorem pwBit_none {p : GenericDescriptor} {mark : Dur} (hone : GenericTiming.bit1Mark p mark = false)
    (hzero : GenericTiming.bit0Mark p mark = false) : pwBit p mark = none := by
  rw [pwBit, if_neg (Bool.eq_false_iff.mp hone), if_neg (Bool.eq_false_iff.mp hzero)]

theorem dmPw_empty (hpb : d.pb = []) : dmPw c d = .ret .ok d := by
  rw [dmPw, pbLen_of_pb hpb]
  rfl

theorem dmPw_of_cons (hpb : d.pb = e :: rest) : dmPw c d = dmPwLoop c (rest.length + 1) d := by
  rw [dmPw, pbLen_of_pb hpb, List.length_cons]

theorem dmPwLoop_mark_atCount (n : Nat) (hpb : d.pb = e :: rest) (hmark : e.level = .mark)
    (hcount : c.p.bitLength ≤ d.accCount) : dmPwLoop c (n + 1) d = .ret .error d := by
  simp only [dmPwLoop, hpb, if_pos hmark, if_pos hcount]

theorem dmPwLoop_mark_neither (n : Nat) (hpb : d.pb = e :: rest) (hmark : e.level = .mark)
    (hcount : d.accCount < c.p.bitLength) (hbit : pwBit c.p e.duration = none) : dmPwLoop c (n + 1) d = .ret .error d := by
  simp only [dmPwLoop, hpb, if_pos hmark, if_neg (Nat.not_le.mpr hcount), hbit]

theorem dmPwLoop_mark_bit (n : Nat) (hpb : d.pb = e :: rest) (hmark : e.level = .mark)
    (hcount : d.accCount < c.p.bitLength) (hbit : pwBit c.p e.duration = some b) :
    dmPwLoop c (n + 1) d = (aPush c b d).bind fun _ d1 => dmPwConsumed c (dmPwLoop c n) d1 := by
  simp only [dmPwLoop, hpb, if_pos hmark, if_neg (Nat.not_le.mpr hcount), hbit]

theorem dmPwLoop_space (n : Nat) (hpb : d.pb = e :: rest) (hspace : e.level = .space) :
    dmPwLoop c (n + 1) d
      = if GenericTiming.bit1Space c.p e.duration then dmPwConsumed c (dmPwLoop c n) d else .ret .error d := by
  simp only [dmPwLoop, hpb, hspace, Bool.false_eq_true, if_false]

/-- The end of a round, with the entry consumed: the count test, and the rounds that go on with the rest. -/
theorem dmPwConsumed_cons (hpb : d.pb = e :: rest) :
    dmPwConsumed c (dmPwLoop c rest.length) d
      = if d.accCount = c.p.bitLength then .ret .ready { d with pb := rest } else dmPw c { d with pb := rest } := by
  rw [dmPwConsumed, consume_one_of_cons hpb]
  rfl

theorem dmPw_mark_pushed (hpb : d.pb = e :: rest) (hmark : e.level = .mark) (hcount : d.accCount < c.p.bitLength)
    (hbit : pwBit c.p e.duration = some b) (hpush : aPush c b d = .ret () d') :
    dmPw c d
      = if d'.accCount = c.p.bitLength then .ret .ready { d' with pb := rest } else dmPw c { d' with pb := rest } := by
  rw [dmPw_of_cons hpb, dmPwLoop_mark_bit _ hpb hmark hcount hbit, hpush, UnitFlow.bind_ret,
    dmPwConsumed_cons ((aPush_ret_pb hpush).trans hpb)]

theorem dmPw_mark_full (hpb : d.pb = e :: rest) (hmark : e.level = .mark) (hcount : d.accCount < c.p.bitLength)
    (hbit : pwBit c.p e.duration = some b) (hfull : 8 * c.accBytes = d.accCount) : dmPw c d = .raised .accOvf d := by
  rw [dmPw_of_cons hpb, dmPwLoop_mark_bit _ hpb hmark hcount hbit, aPush_full b hfull, UnitFlow.bind_raised]

theorem dmPw_space_valid (hpb : d.pb = e :: rest) (hspace : e.level = .space)
    (hwidth : GenericTiming.bit1Space c.p e.duration = true) :
    dmPw c d
      = if d.accCount = c.p.bitLength then .ret .ready { d with pb := rest } else dmPw c { d with pb := rest } := by
  rw [dmPw_of_cons hpb, dmPwLoop_space _ hpb hspace, if_pos hwidth, dmPwConsumed_cons hpb]

theorem dmPw_space_invalid (hpb : d.pb = e :: rest) (hspace : e.level = .space)
    (hwidth : GenericTiming.bit1Space c.p e.duration = false) : dmPw c d = .ret .error d := by
  rw [dmPw_of_cons hpb, dmPwLoop_space _ hpb hspace, if_neg (Bool.eq_false_iff.mp hwidth)]

/-- Settles O32, by the level of the front entry. -/
theorem pulseWidthRounds : Obligations.PulseWidthRounds := by
  intro s hf
  refine ⟨fun hpb => exec_demodCall_returns (m := .pw) hf (dmPw_empty hpb), fun e rest hpb =>
    ⟨fun hmark => ?_, fun hspace => ?_⟩⟩
  · refine ⟨fun hcount => ?_, fun hcount one zero hone hzero => ⟨fun h1 h0 => ?_, fun hbit => ?_⟩⟩
    · exact exec_demodCall_returns (m := .pw) hf ((dmPw_of_cons hpb).trans (dmPwLoop_mark_atCount _ hpb hmark hcount))
    · have hnone := pwBit_none (hone.symm.trans h1) (hzero.symm.trans h0)
      exact exec_demodCall_returns (m := .pw) hf
        ((dmPw_of_cons hpb).trans (dmPwLoop_mark_neither _ hpb hmark hcount hnone))
    · rw [hone, hzero] at hbit
      have hsome := (pwBit_some hbit).trans (congrArg some hone.symm)
      refine ⟨fun d' hpush => ?_, fun hfull => ?_⟩
      · have hround := dmPw_mark_pushed hpb hmark hcount hsome hpush
        exact ⟨fun hlast => exec_demodCall_returns (m := .pw) hf (hround.trans (if_pos hlast)),
          fun hmore => exec_demodCall_again (m := .pw) hf (hround.trans (if_neg hmore))⟩
      · exact exec_demodCall_raised (m := .pw) hf (dmPw_mark_full hpb hmark hcount hsome hfull)
  · refine ⟨fun hwidth => exec_demodCall_returns (m := .pw) hf (dmPw_space_invalid hpb hspace hwidth), fun hwidth => ?_⟩
    have hround := dmPw_space_valid hpb hspace hwidth
    exact ⟨fun hlast => exec_demodCall_returns (m := .pw) hf (hround.trans (if_pos hlast)),
      fun hmore => exec_demodCall_again (m := .pw) hf (hround.trans (if_neg hmore))⟩

/-! ### Manchester (44_demodulators R168) -/

theorem dmMan_empty (hpb : d.pb = []) : dmMan c d = .ret .ok d := by
  rw [dmMan, pbLen_of_pb hpb]
  rfl

theorem dmMan_of_cons (hpb : d.pb = e :: rest) : dmMan c d = dmManLoop c (rest.length + 1) d := by
  rw [dmMan, pbLen_of_pb hpb, List.length_cons]

/-- The front entry has a width of the protocol (44_demodulators R168, R170). -/
def ManchValid (c : Config) (e : Sample) : Prop :=
  GenericTiming.bit1Mark c.p e.duration = true ∨ GenericTiming.double c.p e.duration = true

theorem ManchValid.not_rejected (h : ManchValid c e) :
    ¬(!GenericTiming.bit1Mark c.p e.duration && !GenericTiming.double c.p e.duration) = true := by
  rcases h with h | h <;> simp [h]

/-- What a round does after the push of its data transition: the end of the frame, or the rounds that follow. -/
def manchPushed (c : Config) (again : DecoderState → UnitFlow DemodStatus) (level : Level) (d : DecoderState) :
    UnitFlow DemodStatus :=
  if d.accCount = c.p.bitLength then
    if level = c.p.manchEndLevel then .ret .ready d else .ret .error d
  else again d

/-- What a round does with a valid entry, after the synthesized bit if there is one. -/
def manchSample (c : Config) (again : DecoderState → UnitFlow DemodStatus) (e : Sample) (d : DecoderState) :
    UnitFlow DemodStatus :=
  if c.p.bitLength ≤ d.accCount then .ret .error d
  else
    match manchSwitch (GenericTiming.bit1Mark c.p e.duration) (GenericTiming.double c.p e.duration) d.sd with
    | none => .ret .error d
    | some false => again (consume 1 { d with sd := false })
    | some true => (aPush c e.level (consume 1 { d with sd := true })).bind fun _ d1 => manchPushed c again e.level d1

theorem dmManLoop_valid (n : Nat) (hpb : d.pb = e :: rest) (hvalid : ManchValid c e) :
    dmManLoop c (n + 1) d = (manchSynthesize c d).bind fun _ d1 => manchSample c (dmManLoop c n) e d1 := by
  unfold dmManLoop
  split
  · rename_i hempty
    cases hpb.symm.trans hempty
  · rename_i hfront
    cases hpb.symm.trans hfront
    rw [if_neg hvalid.not_rejected]
    rfl

theorem dmManLoop_invalid (n : Nat) (hpb : d.pb = e :: rest) (hvalid : ¬ManchValid c e) :
    dmManLoop c (n + 1) d = .ret .error d := by
  rw [ManchValid, not_or, Bool.not_eq_true, Bool.not_eq_true] at hvalid
  obtain ⟨hsingle, hdouble⟩ := hvalid
  simp only [dmManLoop, hpb, hsingle, hdouble, Bool.not_false, Bool.and_self, if_true]

theorem manchSynthesize_first (hstart : c.p.manchStartFromSpace = true) (hzero : d.accCount = 0) :
    manchSynthesize c d = aPush c c.p.manchFirstBit { d with sd := true } :=
  if_pos (by rw [hstart, Bool.true_and, decide_eq_true hzero])

theorem manchSynthesize_none (h : ¬(c.p.manchStartFromSpace = true ∧ d.accCount = 0)) :
    manchSynthesize c d = .ret () d :=
  if_neg (by rwa [Bool.and_eq_true, decide_eq_true_eq])

/-- The synthesized bit leaves the entry in front, which the demodulator then takes as it would any other. -/
theorem dmMan_first_pushed (hpb : d.pb = e :: rest) (hvalid : ManchValid c e) (hstart : c.p.manchStartFromSpace = true)
    (hzero : d.accCount = 0) (hpush : aPush c c.p.manchFirstBit { d with sd := true } = .ret () d') :
    dmMan c d = dmMan c d' := by
  have hpb' : d'.pb = e :: rest := (aPush_ret_pb hpush).trans hpb
  have hpos : d'.accCount ≠ 0 := ne_of_eq_of_ne (aPush_ret_accCount hpush) (Nat.succ_ne_zero _)
  have honce : manchSynthesize c d' = .ret () d' := manchSynthesize_none fun ⟨_, hzero'⟩ => hpos hzero'
  rw [dmMan_of_cons hpb, dmMan_of_cons hpb', dmManLoop_valid _ hpb hvalid, dmManLoop_valid _ hpb' hvalid,
    manchSynthesize_first hstart hzero, hpush, honce, UnitFlow.bind_ret]

theorem dmMan_first_full (hpb : d.pb = e :: rest) (hvalid : ManchValid c e) (hstart : c.p.manchStartFromSpace = true)
    (hzero : d.accCount = 0) (hfull : 8 * c.accBytes = d.accCount) :
    dmMan c d = .raised .accOvf { d with sd := true } := by
  rw [dmMan_of_cons hpb, dmManLoop_valid _ hpb hvalid, manchSynthesize_first hstart hzero,
    aPush_full (d := { d with sd := true }) _ hfull, UnitFlow.bind_raised]

/-- A round without the synthesized bit: a valid entry is in front, and the first bit is there already or not asked for. -/
structure ManchRound (c : Config) (d : DecoderState) (e : Sample) (rest : List Sample) : Prop where
  front : d.pb = e :: rest
  valid : ManchValid c e
  begun : ¬(c.p.manchStartFromSpace = true ∧ d.accCount = 0)

theorem ManchRound.dmMan_eq (h : ManchRound c d e rest) : dmMan c d = manchSample c (dmManLoop c rest.length) e d := by
  rw [dmMan_of_cons h.front, dmManLoop_valid _ h.front h.valid, manchSynthesize_none h.begun, UnitFlow.bind_ret]

theorem ManchRound.atCount (h : ManchRound c d e rest) (hcount : c.p.bitLength ≤ d.accCount) : dmMan c d = .ret .error d :=
  h.dmMan_eq.trans (if_pos hcount)

/-- A double width from a symbol boundary spans no data transition (44_demodulators R169 (b)). -/
theorem ManchRound.boundary_double (h : ManchRound c d e rest) (hcount : d.accCount < c.p.bitLength) (hsd : d.sd = false)
    (hdouble : GenericTiming.double c.p e.duration = true) : dmMan c d = .ret .error d := by
  rw [h.dmMan_eq, manchSample, if_neg (Nat.not_le.mpr hcount), hsd, hdouble]
  rfl

/-- A single width from the middle of a symbol ends at its boundary and carries no bit (44_demodulators R169 (a)). -/
theorem ManchRound.middle_single (h : ManchRound c d e rest) (hcount : d.accCount < c.p.bitLength) (hsd : d.sd = true)
    (hsingle : GenericTiming.bit1Mark c.p e.duration = true) : dmMan c d = dmMan c { d with sd := false, pb := rest } := by
  have hrest : consume 1 { d with sd := false } = { d with sd := false, pb := rest } := consume_one_of_cons h.front
  rw [h.dmMan_eq, manchSample, if_neg (Nat.not_le.mpr hcount), hsd, hsingle, hrest]
  rfl

/-- The entry ends in the middle of a symbol, where the data transition is: no double width from a boundary, and no single width
from a middle (44_demodulators R168). -/
def EndsMidSymbol (c : Config) (d : DecoderState) (e : Sample) : Prop :=
  (d.sd = false ∧ GenericTiming.double c.p e.duration = false)
    ∨ (d.sd = true ∧ GenericTiming.bit1Mark c.p e.duration = false)

theorem EndsMidSymbol.switch (h : EndsMidSymbol c d e) :
    manchSwitch (GenericTiming.bit1Mark c.p e.duration) (GenericTiming.double c.p e.duration) d.sd = some true := by
  rcases h with ⟨hsd, hdouble⟩ | ⟨hsd, hsingle⟩
  · rw [hsd, hdouble]
    rfl
  · rw [hsd, hsingle]
    rfl

theorem ManchRound.transition (h : ManchRound c d e rest) (hcount : d.accCount < c.p.bitLength)
    (hmiddle : EndsMidSymbol c d e) :
    dmMan c d
      = (aPush c e.level { d with sd := true, pb := rest }).bind
          fun _ d1 => manchPushed c (dmManLoop c rest.length) e.level d1 := by
  have hrest : consume 1 { d with sd := true } = { d with sd := true, pb := rest } := consume_one_of_cons h.front
  rw [h.dmMan_eq, manchSample, if_neg (Nat.not_le.mpr hcount), hmiddle.switch, hrest]

/-- At a data transition the entry is consumed and its level is the bit; the frame ends there or the rounds go on. -/
theorem ManchRound.transition_pushed (h : ManchRound c d e rest) (hcount : d.accCount < c.p.bitLength)
    (hmiddle : EndsMidSymbol c d e)
    (hpush : aPush c e.level { d with sd := true, pb := rest } = .ret () d') :
    dmMan c d = manchPushed c (dmMan c) e.level d' := by
  rw [h.transition hcount hmiddle, hpush, UnitFlow.bind_ret, manchPushed, manchPushed, dmMan,
    pbLen_of_pb (aPush_ret_pb hpush)]

theorem ManchRound.transition_full (h : ManchRound c d e rest) (hcount : d.accCount < c.p.bitLength)
    (hmiddle : EndsMidSymbol c d e) (hfull : 8 * c.accBytes = d.accCount) :
    dmMan c d = .raised .accOvf { d with sd := true, pb := rest } := by
  rw [h.transition hcount hmiddle, aPush_full (d := { d with sd := true, pb := rest }) _ hfull, UnitFlow.bind_raised]

/-- Settles O33, by the width of the front entry, the synthesized bit, the declared count and the flag. -/
theorem manchesterRounds : Obligations.ManchesterRounds := by
  intro s hf
  refine ⟨fun hpb => exec_demodCall_returns (m := .man) hf (dmMan_empty hpb),
    fun e rest hpb single double hsingle hdouble => ?_⟩
  obtain rfl : GenericTiming.bit1Mark s.cfg.p e.duration = single := hsingle.symm
  obtain rfl : GenericTiming.double s.cfg.p e.duration = double := hdouble.symm
  refine ⟨fun h1 h2 => ?_, fun hvalid hstart hzero => ?_, fun hvalid hbegun => ?_⟩
  · have hinvalid : ¬ManchValid s.cfg e := by simp [ManchValid, h1, h2]
    exact exec_demodCall_returns (m := .man) hf ((dmMan_of_cons hpb).trans (dmManLoop_invalid _ hpb hinvalid))
  · exact ⟨fun d' hpush => exec_demodCall_again (m := .man) hf (dmMan_first_pushed hpb hvalid hstart hzero hpush),
      fun hfull => exec_demodCall_raised (m := .man) hf (dmMan_first_full hpb hvalid hstart hzero hfull)⟩
  · have hround : ManchRound s.cfg s.dec e rest := ⟨hpb, hvalid, hbegun⟩
    refine ⟨fun hcount => exec_demodCall_returns (m := .man) hf (hround.atCount hcount), fun hcount =>
      ⟨fun hsd h2 => exec_demodCall_returns (m := .man) hf (hround.boundary_double hcount hsd h2),
        fun hsd h1 => exec_demodCall_again (m := .man) hf (hround.middle_single hcount hsd h1), fun hmiddle => ?_⟩⟩
    refine ⟨fun d' hpush => ?_, fun hfull => ?_⟩
    · have hpushed := hround.transition_pushed hcount hmiddle hpush
      exact ⟨fun hmore => exec_demodCall_again (m := .man) hf (hpushed.trans (if_neg hmore)),
        fun hlast hend => exec_demodCall_returns (m := .man) hf (hpushed.trans ((if_pos hlast).trans (if_pos hend))),
        fun hlast hend => exec_demodCall_returns (m := .man) hf (hpushed.trans ((if_pos hlast).trans (if_neg hend)))⟩
    · exact exec_demodCall_raised (m := .man) hf (hround.transition_full hcount hmiddle hfull)

end Sys2Proof.Machine
end

section
/-! PROOFS. What a demodulator leaves when it answers, and the Manchester train of single widths (44_demodulators R160 to R162,
R171). -/

namespace Sys2Proof.Machine

variable {c : Config} {d d' : DecoderState} {st : DemodStatus} {e : Sample} {rest : List Sample} {n k : Nat}

/-! ### What an answer says of the decoder -/

/-- `Ok` leaves at most `left` entries, and `Ready` comes at the declared count (44_demodulators R161). -/
def AnswerFits (c : Config) (left : Nat) (st : DemodStatus) (d : DecoderState) : Prop :=
  match st with
  | .ok => d.pbLen ≤ left
  | .ready => c.p.bitLength ≤ d.accCount
  | .error => True

theorem dmPdLoop_answer (hn : d.pbLen ≤ n) (h : dmPdLoop c n d = .ret st d') : AnswerFits c 1 st d' ∧ d'.sd = d.sd := by
  induction n generalizing d with
  | zero =>
    cases h
    exact ⟨hn.trans zero_le_one, rfl⟩
  | succ n ih =>
    rw [dmPdLoop] at h
    split at h
    · rename_i hcount
      split at h
      · rename_i hpb
        cases h
        exact ⟨(pbLen_of_pb hpb).le.trans zero_le_one, rfl⟩
      · split at h
        · cases h
          exact ⟨hcount, rfl⟩
        · cases h
          exact ⟨trivial, rfl⟩
    · split at h
      · split at h
        · cases h
          exact ⟨trivial, rfl⟩
        · obtain ⟨_, d1, hpush, hagain⟩ := UnitFlow.bind_eq_ret.mp h
          have hlen : d1.pbLen = d.pbLen := pbLen_of_pb (aPush_ret_pb hpush)
          obtain ⟨hfits, hsd⟩ := ih (by rw [pbLen_consume]; omega) hagain
          exact ⟨hfits, hsd.trans (aPush_ret_sd hpush :)⟩
      · rename_i hshort
        have hone : d.pbLen ≤ 1 := by
          rcases hpb : d.pb with _ | ⟨e0, _ | ⟨e1, rest⟩⟩
          · exact (pbLen_of_pb hpb).le.trans zero_le_one
          · exact (pbLen_of_pb hpb).le
          · exact absurd hpb (hshort e0 e1 rest)
        cases h
        exact ⟨hone, rfl⟩

/-- The end of a pulse-width round, when the rounds that go on answer as they should. -/
theorem dmPwConsumed_answer (hn : d.pbLen ≤ n + 1)
    (ih : ∀ {d : DecoderState}, d.pbLen ≤ n → dmPwLoop c n d = .ret st d' → AnswerFits c 0 st d' ∧ d'.sd = d.sd)
    (h : dmPwConsumed c (dmPwLoop c n) d = .ret st d') : AnswerFits c 0 st d' ∧ d'.sd = d.sd := by
  unfold dmPwConsumed at h
  split at h
  · rename_i hcount
    cases h
    exact ⟨hcount.ge, rfl⟩
  · exact ih (d := consume 1 d) (by rw [pbLen_consume]; omega) h

theorem dmPwLoop_answer (hn : d.pbLen ≤ n) (h : dmPwLoop c n d = .ret st d') : AnswerFits c 0 st d' ∧ d'.sd = d.sd := by
  induction n generalizing d with
  | zero =>
    cases h
    exact ⟨hn, rfl⟩
  | succ n ih =>
    rw [dmPwLoop] at h
    split at h
    · rename_i hpb
      cases h
      exact ⟨(pbLen_of_pb hpb).le, rfl⟩
    · split at h
      · split at h
        · cases h
          exact ⟨trivial, rfl⟩
        · split at h
          · cases h
            exact ⟨trivial, rfl⟩
          · obtain ⟨_, d1, hpush, hconsumed⟩ := UnitFlow.bind_eq_ret.mp h
            have hlen : d1.pbLen = d.pbLen := pbLen_of_pb (aPush_ret_pb hpush)
            obtain ⟨hfits, hsd⟩ := dmPwConsumed_answer (hlen.trans_le hn) ih hconsumed
            exact ⟨hfits, hsd.trans (aPush_ret_sd hpush :)⟩
      · split at h
        · exact dmPwConsumed_answer hn ih h
        · cases h
          exact ⟨trivial, rfl⟩

theorem manchSynthesize_ret_pb (h : manchSynthesize c d = .ret () d') : d'.pb = d.pb := by
  unfold manchSynthesize at h
  split at h
  · rw [aPush_ret_pb h]
  · cases h
    rfl

/-- What follows a valid entry of Manchester, when the rounds that go on answer as they should. -/
theorem manchSample_answer (hn : d.pbLen ≤ n + 1)
    (ih : ∀ {d : DecoderState}, d.pbLen ≤ n → dmManLoop c n d = .ret st d' → AnswerFits c 0 st d')
    (h : manchSample c (dmManLoop c n) e d = .ret st d') : AnswerFits c 0 st d' := by
  unfold manchSample at h
  split at h
  · cases h
    trivial
  · split at h
    · cases h
      trivial
    · exact ih (by rw [pbLen_consume]; exact Nat.sub_le_of_le_add hn) h
    · obtain ⟨_, d1, hpush, hpushed⟩ := UnitFlow.bind_eq_ret.mp h
      have hlen : d1.pbLen = d.pbLen - 1 := (pbLen_of_pb (aPush_ret_pb hpush)).trans (pbLen_consume 1 d)
      unfold manchPushed at hpushed
      split at hpushed
      · rename_i hcount
        split at hpushed
        · cases hpushed
          exact hcount.ge
        · cases hpushed
          trivial
      · exact ih (by omega) hpushed

theorem dmManLoop_answer (hn : d.pbLen ≤ n) (h : dmManLoop c n d = .ret st d') : AnswerFits c 0 st d' := by
  induction n generalizing d with
  | zero =>
    cases h
    exact hn
  | succ n ih =>
    rcases hpb : d.pb with _ | ⟨e, rest⟩
    · rw [dmManLoop, hpb] at h
      cases h
      exact (pbLen_of_pb hpb).le
    · by_cases hvalid : ManchValid c e
      · rw [dmManLoop_valid n hpb hvalid] at h
        obtain ⟨_, d1, hsynth, hsample⟩ := UnitFlow.bind_eq_ret.mp h
        have hlen : d1.pbLen = d.pbLen := pbLen_of_pb (manchSynthesize_ret_pb hsynth)
        exact manchSample_answer (hlen.trans_le hn) ih hsample
      · rw [dmManLoop_invalid n hpb hvalid] at h
        cases h
        trivial

/-! ### The three demodulators together -/

/-- The entries that a demodulator may leave when it waits: pulse distance waits for a pair (44_demodulators R161). -/
def leftWaiting : Modulation → Nat
  | .pd => 1
  | .pw | .man => 0

theorem demodBy_answer {m : Modulation} (h : demodBy m c d = .ret st d') :
    AnswerFits c (leftWaiting m) st d' ∧ (m ≠ .man → d'.sd = d.sd) := by
  cases m with
  | pd =>
    obtain ⟨hfits, hsd⟩ := dmPdLoop_answer le_rfl h
    exact ⟨hfits, fun _ => hsd⟩
  | pw =>
    obtain ⟨hfits, hsd⟩ := dmPwLoop_answer le_rfl h
    exact ⟨hfits, fun _ => hsd⟩
  | man => exact ⟨dmManLoop_answer le_rfl h, fun hne => absurd rfl hne⟩

/-- On a configured decoder a demodulator answers, within its frame and with the accumulator's invariant kept
(44_demodulators R160, R162). -/
theorem demodBy_completes (m : Modulation) (hwf : c.wf = true) (hd : AccumulatorInv c d) :
    ∃ st d', demodBy m c d = .ret st d' ∧ AccumulatorInv c d' ∧ DemodFrame d d' := by
  obtain ⟨hlow, hhigh⟩ := bitLength_bounds_of_wf hwf
  have hstore := storeRule_accumulatorInv hlow hhigh
  obtain ⟨hmeets, hleaves⟩ : (demodBy m c d).Meets False (AccumulatorInv c) ∧ (demodBy m c d).Leaves (DemodFrame d) := by
    cases m with
    | pd => exact ⟨dmPdLoop_meets hstore _ hd, dmPdLoop_leaves c _ (.refl d)⟩
    | pw => exact ⟨dmPwLoop_meets hstore _ hd, dmPwLoop_leaves c _ (.refl d)⟩
    | man => exact ⟨dmManLoop_meets hstore _ hd, dmManLoop_leaves c _ (.refl d)⟩
  obtain ⟨st, d', hret, hinv⟩ := hmeets.returns
  rw [hret] at hleaves
  exact ⟨st, d', hret, hinv, hleaves⟩

theorem demodCall_of_eq {i : Instr} (h : i = .dmpd ∨ i = .dmpw ∨ i = .dmman) : ∃ m, i = demodCall m := by
  rcases h with rfl | rfl | rfl
  exacts [⟨.pd, rfl⟩, ⟨.pw, rfl⟩, ⟨.man, rfl⟩]

/-- Settles O34: the demodulator answers within its frame, and the answer fits what it left. -/
theorem demodulatorsComplete : Obligations.DemodulatorsComplete := by
  intro i s hi hwf hf hd
  obtain ⟨m, rfl⟩ := demodCall_of_eq hi
  obtain ⟨st, d', hret, hinv, hframe, hsuffix⟩ := demodBy_completes m hwf hd
  obtain ⟨hfits, hsd⟩ := demodBy_answer hret
  refine ⟨{ s with dec := d', ret := .status st }, st, exec_demodCall_returns hf hret,
    congrArg (fun x => { s with dec := x, ret := .status st }) hframe, hinv, hsuffix, fun hne => hsd ?_, ?_, ?_⟩
  · rintro rfl
    exact hne rfl
  · rintro rfl
    cases m with
    | pd => exact ⟨hfits, fun hne => absurd rfl hne⟩
    | pw | man => exact ⟨Nat.le_succ_of_le hfits, fun _ => Nat.le_zero.mp hfits⟩
  · rintro rfl
    obtain ⟨hbound, -⟩ := hinv
    exact le_antisymm hbound hfits

/-! ### A train of single widths (44_demodulators R171) -/

/-- The bits counted so far are all 1. -/
def OnesStored (d : DecoderState) : Prop := ∀ k < d.accCount, accBit d k = some true

/-- The byte that the next bit goes into can be read, since the bit before it is in it. -/
theorem OnesStored.accByte_isSome (h : OnesStored d) : ∃ v, accByte d = some v := by
  unfold accByte
  split
  · exact ⟨0, rfl⟩
  · have hlast := h (d.accCount - 1) (by omega)
    rw [accBit, show (d.accCount - 1) / 8 = d.accCount / 8 by omega] at hlast
    obtain ⟨v, hv, -⟩ := Option.map_eq_some_iff.mp hlast
    exact ⟨v, hv⟩

/-- A 1 pushed onto ones returns while there is room: it leaves the bits before it in its byte, and every other byte. -/
theorem OnesStored.push (h : OnesStored d) (hroom : d.accCount < 8 * c.accBytes) :
    ∃ d', aPush c true d = .ret () d' ∧ OnesStored d' := by
  obtain ⟨v, hv⟩ := h.accByte_isSome
  rcases aPush_cases c true d with ⟨hfull, -⟩ | ⟨-, hnone, -⟩ | ⟨v', -, hv', hpush⟩
  · omega
  · rw [hv] at hnone
    cases hnone
  · obtain rfl : v = v' := Option.some.inj (hv.symm.trans hv')
    refine ⟨_, hpush, fun k hk => ?_⟩
    have hk' : k < d.accCount + 1 := hk
    rw [accBit]
    by_cases hbyte : d.accCount / 8 = k / 8
    · rw [← hbyte, Memory.read_write_same, Option.map_some, orBit_getLsbD _ _ _ _ (Nat.mod_lt k (by decide))]
      by_cases hlast : k = d.accCount
      · simp [hlast]
      · have hold := h k (by omega)
        rw [accByte, if_neg (by omega)] at hv
        rw [accBit, ← hbyte, hv, Option.map_some, Option.some_inj] at hold
        rw [hold, Bool.true_or]
    · dsimp only
      rw [Memory.read_write_other (Ne.symm hbyte)]
      exact h k (by omega)

/-- No sample has both widths under a configured Manchester decoder, since `2*bit_tol <= unit` (00_scope R7). -/
theorem double_eq_false_of_single (hwf : c.wf = true) (hman : c.p.modulation = .man) {t : Dur}
    (hsingle : GenericTiming.bit1Mark c.p t = true) : GenericTiming.double c.p t = false := by
  have htol : 2 * c.p.bitTol.toNat ≤ c.p.bit1Mark.toNat := by
    by_contra hlt
    have hbad : wfGeneric c.accBytes c.p = false :=
      (wfGeneric_eq_false_iff _ _).mpr (.inr (.inr (.inl ⟨hman, Nat.not_le.mp hlt⟩)))
    rw [(config_wf_eq_false_iff c).mpr (.inr (.inr (.inl hbad)))] at hwf
    cases hwf
  refine Bool.eq_false_iff.mpr fun hdouble => ?_
  have h1 := (windowMatch_bounds _ _ _).mp hsingle
  have h2 := (windowMatch_bounds _ _ _).mp hdouble
  omega

/-- What the configuration of R171 says. -/
structure SingleWidthConfig (c : Config) : Prop where
  wf : c.wf = true
  man : c.p.modulation = .man
  fromMark : c.p.manchStartFromSpace = false
  endLevel : c.p.manchEndLevel = .mark

/-- At a symbol boundary, `k + 1` bits short of the count, with the `2*k + 1` samples of those bits in the buffer: single
widths that alternate from a Mark on. -/
structure SingleWidthTrain (c : Config) (k : Nat) (d : DecoderState) : Prop where
  boundary : d.sd = false
  ones : OnesStored d
  count : d.accCount + k + 1 = c.p.bitLength
  len : d.pb.length = 2 * k + 1
  chain : d.pb.IsChain (fun a b => a.level ≠ b.level)
  starts : ∀ e ∈ d.pb.head?, e.level = .mark
  single : ∀ e ∈ d.pb, GenericTiming.bit1Mark c.p e.duration = true

theorem ManchRound.of_single (hc : SingleWidthConfig c) (hpb : d.pb = e :: rest)
    (hsingle : GenericTiming.bit1Mark c.p e.duration = true) : ManchRound c d e rest :=
  ⟨hpb, .inl hsingle, fun ⟨hstart, _⟩ => by rw [hc.fromMark] at hstart; cases hstart⟩

/-- The Mark in front is pushed as a 1, which leaves the decoder in the middle of a symbol. -/
theorem SingleWidthTrain.mark (hc : SingleWidthConfig c) (h : SingleWidthTrain c k d) (hpb : d.pb = e :: rest) :
    ∃ d', dmMan c d = manchPushed c (dmMan c) .mark d' ∧ OnesStored d' ∧ d'.accCount = d.accCount + 1 ∧ d'.sd = true
      ∧ d'.pb = rest := by
  have hsingle : GenericTiming.bit1Mark c.p e.duration = true := h.single e (hpb ▸ List.mem_cons_self)
  have hlevel : e.level = .mark := h.starts e (by rw [hpb]; rfl)
  have hcount := h.count
  obtain ⟨-, hhigh⟩ := bitLength_bounds_of_wf hc.wf
  have hones : OnesStored { d with sd := true, pb := rest } := h.ones
  obtain ⟨d', hpush, hones'⟩ := hones.push (c := c) (show d.accCount < 8 * c.accBytes by omega)
  have hround := ManchRound.of_single hc hpb hsingle
  refine ⟨d', ?_, hones', (aPush_ret_accCount hpush :), aPush_ret_sd hpush, aPush_ret_pb hpush⟩
  rw [← hlevel]
  exact hround.transition_pushed (by omega) (.inl ⟨h.boundary, double_eq_false_of_single hc.wf hc.man hsingle⟩)
    (hlevel ▸ hpush)

/-- The last Mark completes the frame. -/
theorem SingleWidthTrain.last (hc : SingleWidthConfig c) (h : SingleWidthTrain c 0 d) :
    ∃ d', dmMan c d = .ret .ready d' ∧ d'.accCount = c.p.bitLength ∧ d'.pb = [] ∧ OnesStored d' := by
  obtain ⟨e, hpb⟩ := List.length_eq_one_iff.mp h.len
  obtain ⟨d', hpushed, hones, hcount, -, hrest⟩ := h.mark hc hpb
  have hlast : d'.accCount = c.p.bitLength := hcount.trans h.count
  rw [manchPushed, if_pos hlast, if_pos hc.endLevel.symm] at hpushed
  exact ⟨d', hpushed, hlast, hrest, hones⟩

/-- A Mark and the Space after it bring one 1 bit and leave a shorter train. -/
theorem SingleWidthTrain.pair (hc : SingleWidthConfig c) (h : SingleWidthTrain c (k + 1) d) :
    ∃ d', dmMan c d = dmMan c d' ∧ SingleWidthTrain c k d' := by
  obtain ⟨e0, e1, rest, hpb⟩ : ∃ e0 e1 rest, d.pb = e0 :: e1 :: rest := by
    have hlen := h.len
    rcases hpb : d.pb with _ | ⟨e0, _ | ⟨e1, rest⟩⟩
    · simp [hpb] at hlen
    · simp [hpb] at hlen
    · exact ⟨e0, e1, rest, rfl⟩
  obtain ⟨d1, hpushed, hones1, hcount1, hsd1, hpb1⟩ := h.mark hc hpb
  obtain ⟨-, -, hcount, hlen, hchain, hstarts, hsingle⟩ := h
  rw [hpb] at hlen hchain hstarts hsingle
  have hsingle1 : GenericTiming.bit1Mark c.p e1.duration = true := hsingle e1 (by simp)
  rw [manchPushed, if_neg (by omega)] at hpushed
  have hround := ManchRound.of_single hc hpb1 hsingle1
  refine ⟨_, hpushed.trans (hround.middle_single (by omega) hsd1 hsingle1), rfl, hones1, ?_, ?_, ?_, ?_, ?_⟩
  · show d1.accCount + k + 1 = c.p.bitLength
    omega
  · simp only [List.length_cons] at hlen
    show rest.length = 2 * k + 1
    omega
  · exact hchain.suffix (List.suffix_append [e0, e1] rest)
  · intro e2 he2
    obtain ⟨h01, hchain1⟩ := List.isChain_cons_cons.mp hchain
    have h12 : e1.level ≠ e2.level := (List.isChain_cons.mp hchain1).1 e2 he2
    have h0 : e0.level = .mark := hstarts e0 rfl
    rw [Bool.eq_not.mpr h12.symm, Bool.eq_not.mpr h01.symm, Bool.not_not, h0]
  · exact fun e he => hsingle e (by simp [he])

theorem SingleWidthTrain.ready (hc : SingleWidthConfig c) (h : SingleWidthTrain c k d) :
    ∃ d', dmMan c d = .ret .ready d' ∧ d'.accCount = c.p.bitLength ∧ d'.pb = [] ∧ OnesStored d' := by
  induction k generalizing d with
  | zero => exact h.last hc
  | succ k ih =>
    obtain ⟨d1, hpair, hrest⟩ := h.pair hc
    rw [hpair]
    exact ih hrest

/-- Settles O35, by induction on the bits that are still missing, a Mark and a Space for each. -/
theorem singleWidthTrainGivesConstantBits : Obligations.SingleWidthTrainGivesConstantBits := by
  intro s hf hwf hman hfromMark hend hzero hsd hlen halt hstarts hsingle
  obtain ⟨hlow, -⟩ := bitLength_bounds_of_wf hwf
  rw [DecoderState.pbLen] at hlen
  have htrain : SingleWidthTrain s.cfg (s.cfg.p.bitLength - 1) s.dec :=
    { boundary := hsd
      ones := fun k hk => absurd (hzero ▸ hk) (Nat.not_lt_zero k)
      count := by omega
      len := by omega
      chain := (alternates_iff_isChain _).mp halt
      starts := hstarts
      single := hsingle }
  obtain ⟨d', hready, hcount, hempty, hones⟩ := htrain.ready ⟨hwf, hman, hfromMark, hend⟩
  exact ⟨_, exec_demodCall_returns (m := .man) hf hready, rfl, hcount, hempty, fun k hk => hones k (hcount ▸ hk)⟩

end Sys2Proof.Machine
end

section
/-! PROOFS. The bit accumulator: one push, and the bits that a run of pushes leaves (45_bit_accumulator R191, R192). -/

namespace Sys2Proof.Machine

variable {s : State} {c : Config} {d : DecoderState} {b : Bool} {v : Byte} {bits : List Bool}

/-! ### One push (45_bit_accumulator R191) -/

theorem exec_apush (hf : s.fault = 0) (b : Bool) : exec (.apush b) s = finishCall s noValue (aPush s.cfg b s.dec) :=
  microCall_running hf _

/-- The byte that the next bit goes into is zero when the bit starts it, and the one in the store otherwise. -/
theorem accByte_eq_some_iff :
    accByte d = some v
      ↔ (d.accCount % 8 = 0 → v = 0) ∧ (d.accCount % 8 ≠ 0 → Memory.read (d.accCount / 8) d.acc = some v) := by
  unfold accByte
  split_ifs with hstart
  · simp [hstart, eq_comm (b := v)]
  · simp [hstart]

theorem aPush_room (hroom : d.accCount < 8 * c.accBytes) (hv : accByte d = some v) (b : Bool) :
    aPush c b d = .ret () { d with
      acc := Memory.write (d.accCount / 8) (orBit v b (d.accCount % 8)) d.acc
      accCount := d.accCount + 1 } := by
  rw [aPush, if_neg (by omega), hv]

/-- The bit OR'd in, as the number it adds to the byte. -/
theorem orBit_eq_ofNat (v : Byte) (b : Bool) (sh : Nat) : orBit v b sh = v ||| BitVec.ofNat 8 (b.toNat * 2 ^ sh) := by
  rw [orBit]
  congr 1
  apply BitVec.eq_of_toNat_eq
  cases b
  · simp
  · simp [Nat.shiftLeft_eq]

/-- Settles O37: the push is one write to the store, or the raise at its end. -/
theorem pushWritesOneBit : Obligations.PushWritesOneBit := by
  intro s b hf
  rw [exec_apush hf]
  constructor
  · intro v hroom hstart hread
    rw [aPush_room hroom (accByte_eq_some_iff.mpr ⟨hstart, hread⟩), finishCall_noValue]
    refine ⟨_, rfl, ?_, fun j hj => Memory.read_write_other hj _ _, Memory.wf_write _ _⟩
    rw [Memory.read_write_same, orBit_eq_ofNat]
  · intro hfull
    rw [aPush_full b hfull.symm, finishCall_raised hf]
    rfl

/-! ### The bits of a run of pushes (45_bit_accumulator R192) -/

/-- A byte holds its eight bits of a sequence, and 0 in the positions beyond the sequence's end. -/
def HoldsByte (bits : List Bool) (i : Nat) (v : Byte) : Prop := ∀ k < 8, v.getLsbD k = bits[8 * i + k]?.getD false

/-- The accumulator holds exactly a sequence of bits, its last byte filled up with 0. -/
structure StoresBits (bits : List Bool) (d : DecoderState) : Prop where
  count : d.accCount = bits.length
  bytes : ∀ i < viewBytes bits.length, ∃ v, Memory.read i d.acc = some v ∧ HoldsByte bits i v

/-- A cleared accumulator holds no bit, whatever its bytes are (45_bit_accumulator R190). -/
theorem storesBits_aClr (d : DecoderState) : StoresBits [] (aClr d) := ⟨rfl, fun i hi => absurd hi (by simp [viewBytes])⟩

theorem HoldsByte.of_length_le {i : Nat} (h : bits.length ≤ 8 * i) : HoldsByte bits i 0 := by
  intro k _
  rw [List.getElem?_eq_none (by omega)]
  simp

/-- A bit appended beyond a byte leaves the byte. -/
theorem HoldsByte.append {i : Nat} (h : HoldsByte bits i v) (hfull : 8 * i + 8 ≤ bits.length) (b : Bool) :
    HoldsByte (bits ++ [b]) i v := by
  intro k hk
  rw [h k hk, List.getElem?_append_left (by omega)]

/-- A bit OR'd into the byte at the sequence's end appends it to the sequence. -/
theorem HoldsByte.push (h : HoldsByte bits (bits.length / 8) v) (b : Bool) :
    HoldsByte (bits ++ [b]) (bits.length / 8) (orBit v b (bits.length % 8)) := by
  intro k hk
  rw [orBit_getLsbD _ _ _ _ hk, h k hk]
  rcases Nat.lt_trichotomy k (bits.length % 8) with hlt | heq | hgt
  · rw [List.getElem?_append_left (by omega)]
    simp [hlt.ne]
  · rw [show 8 * (bits.length / 8) + k = bits.length by omega]
    simp [heq]
  · rw [List.getElem?_eq_none (by omega), List.getElem?_eq_none (by simp; omega)]
    simp [hgt.ne']

/-- The byte that the next bit goes into holds the bits that are already in it. -/
theorem StoresBits.nextByte (h : StoresBits bits d) : ∃ v, accByte d = some v ∧ HoldsByte bits (bits.length / 8) v := by
  obtain ⟨hcount, hbytes⟩ := h
  by_cases hstart : bits.length % 8 = 0
  · refine ⟨0, accByte_eq_some_iff.mpr ⟨fun _ => rfl, fun hne => ?_⟩, .of_length_le (by omega)⟩
    omega
  · obtain ⟨v, hread, hv⟩ := hbytes (bits.length / 8) (by rw [viewBytes]; omega)
    refine ⟨v, accByte_eq_some_iff.mpr ⟨fun hzero => ?_, fun _ => hcount ▸ hread⟩, hv⟩
    omega

/-- A push onto a sequence appends its bit while there is room. -/
theorem StoresBits.push (h : StoresBits bits d) (hroom : bits.length < 8 * c.accBytes) (b : Bool) :
    ∃ d', aPush c b d = .ret () d' ∧ StoresBits (bits ++ [b]) d' := by
  obtain ⟨v, hv, hold⟩ := h.nextByte
  obtain ⟨hcount, hbytes⟩ := h
  refine ⟨_, aPush_room (hcount ▸ hroom) hv b, by simp [hcount], fun i hi => ?_⟩
  rw [List.length_append, List.length_singleton, viewBytes] at hi
  rw [hcount]
  by_cases hlast : i = bits.length / 8
  · subst hlast
    exact ⟨_, Memory.read_write_same _ _ _, hold.push b⟩
  · obtain ⟨w, hread, hw⟩ := hbytes i (by rw [viewBytes]; omega)
    exact ⟨w, (Memory.read_write_other hlast _ _).trans hread, hw.append (by omega) b⟩

/-- A run of pushes onto a sequence appends its bits while there is room. -/
theorem StoresBits.issueAll_pushes {done : List Bool} (h : StoresBits done s.dec) (hf : s.fault = 0)
    (hroom : done.length + bits.length ≤ 8 * s.cfg.accBytes) :
    ∃ t ws, issueAll (bits.map .apush) s = .next (t, ws) ∧ t.fault = 0 ∧ StoresBits (done ++ bits) t.dec := by
  induction bits generalizing s done with
  | nil => exact ⟨s, [], rfl, hf, by rwa [List.append_nil]⟩
  | cons b rest ih =>
    rw [List.length_cons] at hroom
    obtain ⟨d', hpush, hd'⟩ := h.push (c := s.cfg) (by omega) b
    have hexec : exec (.apush b) s = .next { s with dec := d', ret := .nothing } := by
      rw [exec_apush hf, hpush, finishCall_noValue]
    have hroom' : (done ++ [b]).length + rest.length ≤ 8 * s.cfg.accBytes := by
      rw [List.length_append, List.length_singleton]
      omega
    obtain ⟨t, ws, hrun, hft, ht⟩ := ih (s := { s with dec := d', ret := .nothing }) hd' hf hroom'
    refine ⟨t, lastWord s :: ws, ?_, hft, by rwa [List.append_assoc] at ht⟩
    rw [List.map_cons, issueAll_cons hexec, hrun]
    rfl

theorem StoresBits.bit {k : Nat} (h : StoresBits bits d) (hk : bits[k]? = some b) : accBit d k = some b := by
  obtain ⟨hlt, -⟩ := List.getElem?_eq_some_iff.mp hk
  obtain ⟨v, hread, hv⟩ := h.bytes (k / 8) (by rw [viewBytes]; omega)
  rw [accBit, hread, Option.map_some, hv _ (Nat.mod_lt k (by decide)), Nat.div_add_mod, hk, Option.getD_some]

/-- The view is the bytes of the sequence. -/
theorem StoresBits.view (h : StoresBits bits d) :
    ∃ view, accView d = .ok view ∧ view.length = viewBytes bits.length
      ∧ ∀ i v, view[i]? = some v → HoldsByte bits i v := by
  obtain ⟨hcount, hbytes⟩ := h
  rw [accView, hcount]
  rcases Memory.readRun_cases d.acc 0 (viewBytes bits.length) with ⟨view, hok, hlen, hreads⟩ | ⟨i, hi, -, hnone⟩
  · refine ⟨view, hok, hlen, fun i v hi => ?_⟩
    obtain ⟨hlt, -⟩ := List.getElem?_eq_some_iff.mp hi
    obtain ⟨w, hread, hw⟩ := hbytes i (hlen ▸ hlt)
    have hread' := hreads i (hlen ▸ hlt)
    rw [Nat.zero_add, hread, hi] at hread'
    exact Option.some.inj hread' ▸ hw
  · obtain ⟨w, hread, -⟩ := hbytes i hi
    rw [Nat.zero_add, hread] at hnone
    cases hnone

/-- In the last byte of a sequence the bits above the last one are 0. -/
theorem HoldsByte.clear_above_last (h : HoldsByte bits (viewBytes bits.length - 1) v) (hne : bits ≠ []) {k : Nat} (hk : k < 8)
    (habove : (bits.length - 1) % 8 < k) : v.getLsbD k = false := by
  have hpos := List.length_pos_iff.mpr hne
  rw [h k hk, List.getElem?_eq_none (by rw [viewBytes]; omega), Option.getD_none]

/-- Settles O38, by induction on the bits pushed: after each push the store holds exactly the bits so far. -/
theorem accumulatorReproducesTheBits : Obligations.AccumulatorReproducesTheBits := by
  intro s bits hf hfits
  obtain ⟨t, ws, hrun, hft, hstored⟩ :=
    StoresBits.issueAll_pushes (s := { s with dec := aClr s.dec, ret := .nothing }) (bits := bits) (storesBits_aClr s.dec) hf
      (by simpa using hfits)
  rw [List.nil_append] at hstored
  obtain ⟨view, hview, hlen, hbytes⟩ := hstored.view
  refine ⟨t, lastWord s :: ws, view, ?_, hft, hstored.count, fun k b hk => hstored.bit hk, hview, hlen,
    fun v hv k hk habove => ?_⟩
  · rw [issueAll_cons (exec_aclr hf), hrun]
    rfl
  · have hlast : view[viewBytes bits.length - 1]? = some v := by rw [← hlen, ← List.getLast?_eq_getElem?, hv]
    refine (hbytes _ v hlast).clear_above_last ?_ hk habove
    rintro rfl
    rw [List.length_eq_zero_iff.mp hlen] at hv
    cases hv

end Sys2Proof.Machine
end

section
/-! PROOFS. The custom machine sample by sample: the arm of each state, the shift register, and the messages (46_custom_fsm R200
to R206, R210). -/

namespace Sys2Proof.Machine

variable {s : State} {q : CustomDescriptor} {m : CustomState} {level : Level} {d : Dur} {b : Bool}

/-! ### One `CEDGE` on a running block (46_custom_fsm R200) -/

theorem exec_cedge (hf : s.fault = 0) (level : Level) (d : Dur) :
    exec (.cedge level d) s
      = .next { s with
          cus := (cEdge s.cfg.q level d s.cus).1
          rsp := some (responseWord (edgeResponse (cEdge s.cfg.q level d s.cus).2)) } :=
  command_running hf _

theorem cEdge_idle (hs : m.cState = .idle) : cEdge q level d m = (arm0 q level d m, none) := by
  rw [cEdge, hs]

theorem cEdge_header (hs : m.cState = .header) : cEdge q level d m = (arm1 q level d m, none) := by
  rw [cEdge, hs]

theorem cEdge_bitMark (hs : m.cState = .bitMark) : cEdge q level d m = (arm2 level d m, none) := by
  rw [cEdge, hs]

theorem cEdge_bitSpace (hs : m.cState = .bitSpace) : cEdge q level d m = arm3 q level d m := by
  rw [cEdge, hs]

/-! ### States 0 and 2 (46_custom_fsm R201, R203) -/

theorem arm0_short_mark (h : level = .mark ∧ CustomTiming.isShort q d = true) :
    arm0 q level d m = { m with cLast := d, cHdr := 0, cState := .header } := if_pos h

theorem arm0_other (h : ¬ (level = .mark ∧ CustomTiming.isShort q d = true)) : arm0 q level d m = m := if_neg h

theorem arm2_mark : arm2 .mark d m = { m with cLast := d, cState := .bitSpace } := rfl

theorem arm2_space : arm2 .space d m = toIdle m := rfl

/-- Settles O48: the state selects the arm, and the arm's one test selects the registers that it writes. -/
theorem customIdleAndBitMarkArms : Obligations.CustomIdleAndBitMarkArms := by
  intro s level d hf
  constructor
  · intro hs
    rw [exec_cedge_of_none hf (cEdge_idle hs)]
    constructor
    · intro hstart
      rw [arm0_short_mark hstart]
      rfl
    · intro hother
      rw [arm0_other hother]
      rfl
  · intro hs
    rw [exec_cedge_of_none hf (cEdge_bitMark hs)]
    constructor
    · rintro rfl
      rw [arm2_mark]
      rfl
    · rintro rfl
      rw [arm2_space]
      rfl

/-! ### State 1 (46_custom_fsm R202) -/

theorem bumpHdr_eq_ite (h : BitVec 16) : bumpHdr h = if h = 65535 then 65535 else h + 1 := by
  apply BitVec.eq_of_toNat_eq
  rw [bumpHdr_toNat]
  split_ifs with hmax
  · rw [hmax]
    rfl
  · bv_omega

theorem arm1Mark_eq_ite :
    arm1Mark q d m
      = if CustomTiming.isShort q d = true ∨ CustomTiming.isStart q d = true then { m with cLast := d } else toIdle m := by
  simp only [arm1Mark, Bool.or_eq_true]

/-- The start bit's two tests as one: the remembered Mark is a start Mark, and enough pairs came before it. -/
theorem startBit_ite (p : Prop) [Decidable p] :
    (if p then startBit m else toIdle m)
      = if p ∧ hdrMin < m.cHdr.toNat then { m with cCode := 0, cBits := 0, cState := .bitMark } else toIdle m := by
  rw [startBit, ite_and]

theorem arm1Space_eq_ite :
    arm1Space q d m
      = if CustomTiming.isShort q d = true then
          if CustomTiming.isShort q m.cLast = true then
            { m with cHdr := if m.cHdr = 65535 then 65535 else m.cHdr + 1 }
          else if CustomTiming.isStart q m.cLast = true ∧ hdrMin < m.cHdr.toNat then
            { m with cCode := 0, cBits := 0, cState := .bitMark }
          else toIdle m
        else toIdle m := by
  rw [arm1Space, startBit_ite, bumpHdr_eq_ite]

/-- Settles O49: the arm's tests are those of the rule, the two tests of a start bit taken together. -/
theorem customHeaderArm : Obligations.CustomHeaderArm := by
  intro s level d short start hf hs hshort hstart
  obtain rfl : short = CustomTiming.isShort s.cfg.q := funext hshort
  obtain rfl : start = CustomTiming.isStart s.cfg.q := funext hstart
  rw [exec_cedge_of_none hf (cEdge_header hs), arm1, arm1Mark_eq_ite, arm1Space_eq_ite]
  rfl

/-! ### The shift register (46_custom_fsm R205) -/

/-- Shifting left and then OR-ing a bit in puts the bit below the others. -/
theorem cBit_cCode_eq_shiftConcat (b : Bool) (m : CustomState) : (cBit b m).cCode = m.cCode.shiftConcat b := by
  rw [cBit_cCode]
  ext i hi
  rcases Nat.eq_zero_or_pos i with rfl | hpos
  · simp
  · simp [BitVec.getElem_shiftConcat, hpos.ne']

theorem cBit_cCode_toNat (b : Bool) (m : CustomState) :
    (cBit b m).cCode.toNat = (2 * m.cCode.toNat + b.toNat) % 2 ^ 64 := by
  rw [cBit_cCode_eq_shiftConcat, BitVec.toNat_shiftConcat, Nat.shiftLeft_eq, Nat.pow_one, Nat.mul_comm]

/-- Settles O51: the call writes the shift register and its count, and no other register of the block. -/
theorem shiftRegisterTakesOneBit : Obligations.ShiftRegisterTakesOneBit := fun s bit hf =>
  ⟨(cBit bit s.cus).cCode, (cBit bit s.cus).cBits, microCall_running hf _, cBit_cCode_toNat bit s.cus, bumpBits_toNat⟩

/-! ### State 3 (46_custom_fsm R204) -/

theorem arm3_mark : arm3 q .mark d m = (toIdle m, none) := rfl

theorem arm3_space_stop (h : CustomTiming.stopThreshold q ≤ d.toNat) : arm3 q .space d m = stopFrame q m :=
  if_pos (decide_eq_true h)

theorem arm3_space_below (h : d.toNat < CustomTiming.stopThreshold q) : arm3 q .space d m = (bitPair q d m, none) :=
  if_neg (mt of_decide_eq_true (Nat.not_le.mpr h))

theorem stopFrame_enough (h : q.minBits.toNat ≤ m.cBits.toNat) :
    stopFrame q m
      = ({ m with cLastCode := m.cCode, cLastBits := m.cBits, cCode := 0, cBits := 0, cState := .idle },
          some (customMessage q m)) := if_pos h

theorem stopFrame_too_few (h : m.cBits.toNat < q.minBits.toNat) :
    stopFrame q m = ({ m with cCode := 0, cBits := 0, cState := .idle }, none) := if_neg (Nat.not_le.mpr h)

section Patterns

variable {mark space : Dur}

theorem customBit_zero (h : CustomTiming.isShort q mark = true ∧ CustomTiming.isLong q space = true) :
    customBit q mark space = some false := if_pos (Bool.and_eq_true_iff.mpr h)

theorem customBit_not_zero (h : ¬ (CustomTiming.isShort q mark = true ∧ CustomTiming.isLong q space = true)) :
    customBit q mark space = if CustomTiming.isLong q mark && CustomTiming.isShort q space then some true else none :=
  if_neg (mt Bool.and_eq_true_iff.mp h)

theorem customBit_one (hzero : ¬ (CustomTiming.isShort q mark = true ∧ CustomTiming.isLong q space = true))
    (h : CustomTiming.isLong q mark = true ∧ CustomTiming.isShort q space = true) : customBit q mark space = some true :=
  (customBit_not_zero hzero).trans (if_pos (Bool.and_eq_true_iff.mpr h))

theorem customBit_neither (hzero : ¬ (CustomTiming.isShort q mark = true ∧ CustomTiming.isLong q space = true))
    (hone : ¬ (CustomTiming.isLong q mark = true ∧ CustomTiming.isShort q space = true)) : customBit q mark space = none :=
  (customBit_not_zero hzero).trans (if_neg (mt Bool.and_eq_true_iff.mp hone))

end Patterns

theorem bitPair_of_none (h : customBit q m.cLast d = none) : bitPair q d m = toIdle m := by
  rw [bitPair, h]

/-- At the declared length no pair is taken, whatever its pattern. -/
theorem bitPair_full (h : q.maxBits.toNat ≤ m.cBits.toNat) : bitPair q d m = toIdle m := by
  cases hbit : customBit q m.cLast d with
  | none => exact bitPair_of_none hbit
  | some b => simp only [bitPair, hbit, if_pos h]

/-- Below the declared length a pattern's bit goes into the shift register. -/
theorem bitPair_of_some (h : customBit q m.cLast d = some b) (hroom : m.cBits.toNat < q.maxBits.toNat) :
    bitPair q d m = { cBit b m with cState := .bitMark } := by
  simp only [bitPair, h, if_neg (Nat.not_le.mpr hroom)]

/-- A count below an 8-bit length is below the counter's width. -/
theorem cBit_cBits_of_lt {n : BitVec 8} (b : Bool) (h : m.cBits.toNat < n.toNat) : (cBit b m).cBits = m.cBits + 1 := by
  have hwidth : m.cBits ≠ 255#8 := by bv_omega
  exact if_neg hwidth

/-- A pair that leaves the machine in state 2 has been counted, and only the code and the count have changed. -/
theorem bitPair_of_bitMark (hroom : m.cBits.toNat < q.maxBits.toNat) (h : (bitPair q d m).cState = .bitMark) :
    bitPair q d m = { m with cState := .bitMark, cCode := (bitPair q d m).cCode, cBits := m.cBits + 1 } := by
  cases hbit : customBit q m.cLast d with
  | none =>
    rw [bitPair_of_none hbit] at h
    cases h
  | some b =>
    rw [bitPair_of_some hbit hroom, ← cBit_cBits_of_lt b hroom]
    rfl

theorem bitPair_of_some_code (h : customBit q m.cLast d = some b) (hroom : m.cBits.toNat < q.maxBits.toNat) :
    (bitPair q d m).cState = .bitMark ∧ (bitPair q d m).cCode.toNat = (2 * m.cCode.toNat + b.toNat) % 2 ^ 64 := by
  rw [bitPair_of_some h hroom]
  exact ⟨rfl, cBit_cCode_toNat b m⟩

/-- Settles O50: a Mark, a Space that stops, and a Space below the stop threshold, in the order of the rule's tests. -/
theorem customDecisionArm : Obligations.CustomDecisionArm := by
  intro s level d short long hf hs hshort hlong
  obtain rfl : short = CustomTiming.isShort s.cfg.q := funext hshort
  obtain rfl : long = CustomTiming.isLong s.cfg.q := funext hlong
  refine ⟨_, _, exec_cedge hf level d, ?_⟩
  rw [cEdge_bitSpace hs]
  refine ⟨?mark, ?stop, ?below⟩
  case mark =>
    rintro rfl
    rw [arm3_mark]
    exact ⟨rfl, rfl⟩
  case stop =>
    rintro rfl hstop
    rw [arm3_space_stop hstop]
    constructor
    · intro henough
      rw [stopFrame_enough henough]
      exact ⟨rfl, rfl⟩
    · intro hfew
      rw [stopFrame_too_few hfew]
      exact ⟨rfl, rfl⟩
  case below =>
    rintro rfl hbelow
    rw [arm3_space_below hbelow]
    refine ⟨rfl, bitPair_full, fun hroom => ⟨?_, ?_, ?_, bitPair_of_bitMark hroom⟩⟩
    · exact fun hzero => bitPair_of_some_code (customBit_zero hzero) hroom
    · exact fun hzero hone => bitPair_of_some_code (customBit_one hzero hone) hroom
    · exact fun hzero hone => bitPair_of_none (customBit_neither hzero hone)

/-! ### Messages (46_custom_fsm R206, R210) -/

/-- What a `CEDGE` that returns a message leaves: the message is committed and the machine waits for the next frame. -/
theorem cEdge_commits {x : Message} (h : (cEdge q level d m).2 = some x) :
    (cEdge q level d m).1
      = { m with cLastCode := x.code, cLastBits := x.bitCount, cCode := 0, cBits := 0, cState := .idle } := by
  obtain ⟨hs, rfl, hstop, henough, rfl⟩ := cEdge_message h
  rw [cEdge_bitSpace hs, arm3_space_stop (of_decide_eq_true hstop), stopFrame_enough henough]
  rfl

/-- Settles O53: the message is the shift register's, whose length and code the invariant bounds. -/
theorem customMessagesAreBounded : Obligations.CustomMessagesAreBounded := by
  intro s t level d msg hinv hf hexec hrsp
  obtain ⟨-, -, ⟨hmax, hcode, -⟩, -⟩ := hinv
  cases (exec_cedge hf level d).symm.trans hexec
  have hmsg : (cEdge s.cfg.q level d s.cus).2 = some msg :=
    responseWord_edgeResponse_injective (m' := some msg) (Option.some.inj hrsp)
  have hcommit := cEdge_commits hmsg
  obtain ⟨hs, hlevel, -, hmin, rfl⟩ := cEdge_message hmsg
  refine ⟨hs, hlevel, rfl, rfl, hmin, hmax, hcode, ?_⟩
  rw [hcommit]
  exact ⟨rfl, rfl, rfl⟩

end Sys2Proof.Machine
end

section
/-! PROOFS. `FAULT` and the three units: how a fault is taken, which values `FAULT` holds, and why commands of different units
commute (60_exceptions R243, R252, 70_reset R270). -/

namespace Sys2Proof.Machine

variable {s t : State} {i : Instr}

/-! ### `FAULT` (60_exceptions R243, R252) -/

/-- All that an instruction can do to `FAULT`: nothing, or take one cause. -/
theorem exec_fault_cases (h : exec i s = .next t) : t.fault = s.fault ∨ ∃ cause, t.fault = s.fault ||| causeBit cause := by
  cases i with
  | drst | crst | cedge | erst | enc =>
    rcases command_next h with ⟨-, hbody⟩ | ⟨-, rfl⟩
    · cases hbody
      exact .inl rfl
    · exact .inl rfl
  | edge =>
    rcases command_next h with ⟨-, hbody⟩ | ⟨-, rfl⟩
    · rcases finishEdge_next hbody with ⟨m, d, -, rfl⟩ | ⟨cause, d, -, rfl⟩
      · exact .inl rfl
      · exact .inr ⟨cause, rfl⟩
    · exact .inl rfl
  | next =>
    rcases command_next h with ⟨-, hbody⟩ | ⟨-, rfl⟩
    · rcases pullSample_next hbody with ⟨-, e, rfl⟩ | rfl <;> exact .inl rfl
    · exact .inl rfl
  | matchOp | cbit =>
    rcases microCall_next h with ⟨-, hbody⟩ | ⟨-, rfl⟩
    · cases hbody
      exact .inl rfl
    · exact .inl rfl
  | efill =>
    rcases microCall_next h with ⟨-, hbody⟩ | ⟨-, rfl⟩
    · split at hbody <;> cases hbody
      exact .inl rfl
    · exact .inl rfl
  | _ =>
    rcases microCall_next h with ⟨-, hbody⟩ | ⟨-, rfl⟩
    · rcases finishCall_next hbody with ⟨a, d, -, rfl⟩ | ⟨cause, d, -, rfl⟩
      · exact .inl rfl
      · exact .inr ⟨cause, rfl⟩
    · exact .inl rfl

/-- `FAULT` is clear or holds one cause (60_exceptions R252). -/
def AtMostOneCause (f : BitVec 8) : Prop := f = 0x00 ∨ f = 0x01 ∨ f = 0x02

theorem atMostOneCause_causeBit (cause : Cause) : AtMostOneCause (causeBit cause) := by
  cases cause with
  | pbOvf => exact .inr (.inl rfl)
  | accOvf => exact .inr (.inr rfl)

/-- A running block takes its first cause, and a halted one takes no more. -/
theorem exec_atMostOneCause (hs : AtMostOneCause s.fault) (h : exec i s = .next t) : AtMostOneCause t.fault := by
  by_cases hf : s.fault = 0
  · rcases exec_fault_cases h with hsame | ⟨cause, htaken⟩
    · rwa [hsame]
    · simpa [htaken, hf] using atMostOneCause_causeBit cause
  · rwa [exec_halted_keeps_fault hf h]

/-- Settles O16, by the cases of a step: only what it executes can set a bit. -/
theorem faultHoldsAtMostOneCause : Obligations.FaultHoldsAtMostOneCause := by
  intro s t hs hstep
  obtain ⟨-, hcases⟩ := step_next hstep
  rcases hcases with ⟨-, rfl⟩ | ⟨rest, -, rfl⟩ | ⟨w, rest, i, -, -, hexec⟩ | ⟨w, rest, e, -, -, rfl⟩
    | ⟨call, rest, i, -, -, hexec⟩
  · exact hs
  · exact .inl rfl
  · exact exec_atMostOneCause (s := { s with inbox := rest }) hs hexec
  · rwa [answerIllegal_fault]
  · exact exec_atMostOneCause (s := { s with inbox := rest }) hs hexec

/-- A halted block answers `FAULTED` to every word, whether it decodes or not (60_exceptions R243, R247 (1)). -/
theorem runCommandWord_halted (w : CommandWord) (hf : s.fault ≠ 0) : runCommandWord w s = .next (answerFaulted s) := by
  unfold runCommandWord
  split
  · exact exec_command_halted (isCommand_of_decodeWord ‹_›) hf
  · rw [answerIllegal, if_neg hf]

/-- Settles O14: the end of an `EDGE` takes the fault it raised, and no word gets past a halted block's check. -/
theorem faultHaltsTheBlock : Obligations.FaultHaltsTheBlock := by
  constructor
  · intro s level d cause dec' hf hraised
    rw [exec_edge hf, hraised, finishEdge_raised hf]
  · intro s w rest hwf hf hinbox
    rw [step_of_inbox_cons hwf hinbox]
    exact runCommandWord_halted (s := { s with inbox := rest }) w hf

/-! ### A command touches its own unit only (70_reset R270) -/

/-- The registers of one unit are the same in two states. -/
def SameUnit (s t : State) : BlockUnit → Prop
  | .decoder => t.dec = s.dec
  | .custom => t.cus = s.cus
  | .encoder => t.enc = s.enc

/-- All that a command of one unit writes: that unit and the response port, and `FAULT` where the unit is the decoder. -/
def UnitFrame (s t : State) : BlockUnit → Prop
  | .decoder => t = { s with dec := t.dec, fault := t.fault, rsp := t.rsp }
  | .custom => t = { s with cus := t.cus, rsp := t.rsp }
  | .encoder => t = { s with enc := t.enc, rsp := t.rsp }

/-- Every command, on a running and on a halted block, stays within its unit. -/
theorem exec_unitFrame {u : BlockUnit} (hu : commandUnit i = some u) (h : exec i s = .next t) : UnitFrame s t u := by
  cases i with
  | drst | crst | cedge | erst | enc =>
    cases hu
    rcases command_next h with ⟨-, hbody⟩ | ⟨-, rfl⟩
    · cases hbody
      rfl
    · rfl
  | edge =>
    cases hu
    rcases command_next h with ⟨-, hbody⟩ | ⟨-, rfl⟩
    · rcases finishEdge_next hbody with ⟨m, d, -, rfl⟩ | ⟨cause, d, -, rfl⟩ <;> rfl
    · rfl
  | next =>
    cases hu
    rcases command_next h with ⟨-, hbody⟩ | ⟨-, rfl⟩
    · rcases pullSample_next hbody with ⟨-, e, rfl⟩ | rfl <;> rfl
    · rfl
  | _ => cases hu

theorem UnitFrame.cfg {u : BlockUnit} (h : UnitFrame s t u) : t.cfg = s.cfg := by
  cases u <;> exact (congrArg State.cfg h :)

theorem UnitFrame.fault {u : BlockUnit} (h : UnitFrame s t u) (hu : u ≠ .decoder) : t.fault = s.fault := by
  cases u with
  | decoder => exact absurd rfl hu
  | custom | encoder => exact (congrArg State.fault h :)

/-- A command leaves the registers of the other units as they are. -/
theorem UnitFrame.others : ∀ {u v : BlockUnit}, UnitFrame s t u → v ≠ u → SameUnit s t v
  | .decoder, .custom, h, _ | .encoder, .custom, h, _ => (congrArg State.cus h :)
  | .decoder, .encoder, h, _ | .custom, .encoder, h, _ => (congrArg State.enc h :)
  | .custom, .decoder, h, _ | .encoder, .decoder, h, _ => (congrArg State.dec h :)
  | .decoder, .decoder, _, hne | .custom, .custom, _, hne | .encoder, .encoder, _, hne => absurd rfl hne

/-- Only an `EDGE`, among the commands, can set a bit of `FAULT` (60_exceptions R244). -/
theorem exec_fault_unless_edge (h : exec i s = .next t) :
    (∃ l d, i = .edge l d) ∨ t.fault = s.fault ∨ i.isCommand = false := by
  cases i with
  | edge l d => exact .inl ⟨l, d, rfl⟩
  | drst =>
    rcases command_next h with ⟨-, hbody⟩ | ⟨-, rfl⟩
    · cases hbody
      exact .inr (.inl rfl)
    · exact .inr (.inl rfl)
  | crst | cedge => exact .inr (.inl ((exec_unitFrame (u := .custom) rfl h).fault nofun))
  | erst | enc | next => exact .inr (.inl ((exec_unitFrame (u := .encoder) rfl h).fault nofun))
  | _ => exact .inr (.inr rfl)

/-! ### Commands of different units commute (70_reset R270) -/

theorem SameUnit.symm {u : BlockUnit} (h : SameUnit s t u) : SameUnit t s u := by
  cases u <;> exact Eq.symm h

theorem SameUnit.trans {u : BlockUnit} {r : State} (h : SameUnit r s u) (h' : SameUnit s t u) : SameUnit r t u := by
  cases u <;> exact Eq.trans h' h

theorem exec_drst (hf : s.fault = 0) : exec .drst s = .next (respond .okNone { s with dec := dRst s.dec }) :=
  command_running hf _

theorem exec_crst (hf : s.fault = 0) : exec .crst s = .next (respond .okNone { s with cus := CustomState.initial }) :=
  command_running hf _

theorem exec_erst (hf : s.fault = 0) : exec .erst s = .next (respond .okNone { s with enc := eRst s.enc }) :=
  command_running hf _

theorem exec_enc (hf : s.fault = 0) (code : BitVec 64) (n : BitVec 8) :
    exec (.enc code n) s
      = .next (respond (encodeWave s.cfg code n s.enc).2 { s with enc := (encodeWave s.cfg code n s.enc).1 }) :=
  command_running hf _

/-- All that `NEXT` can do on a running block, with the entry it pulls (47_waveform_encoder R224). -/
theorem exec_next_cases (hf : s.fault = 0) (h : exec .next s = .next t) :
    (∃ e, s.enc.encRd < s.enc.encWr ∧ Memory.read s.enc.encRd s.enc.ub = some e
        ∧ t = respond (.okSample e) { s with enc := { s.enc with encRd := s.enc.encRd + 1 } })
      ∨ (s.enc.encWr ≤ s.enc.encRd ∧ t = respond .done s) := by
  change command s (pullSample s) = _ at h
  rw [command_running hf, pullSample] at h
  split at h
  · split at h
    · cases h
    · cases h
      exact .inl ⟨_, ‹_›, ‹_›, rfl⟩
  · cases h
    exact .inr ⟨by omega, rfl⟩

/-- What a command does on a running block is a function of the configuration and of its own unit. -/
theorem exec_of_sameUnit {u : BlockUnit} {s' : State} (hu : commandUnit i = some u) (hf : s.fault = 0) (hf' : s'.fault = 0)
    (hcfg : s'.cfg = s.cfg) (hunit : SameUnit s s' u) (h : exec i s = .next t) :
    ∃ t', exec i s' = .next t' ∧ t'.rsp = t.rsp ∧ t'.fault = t.fault ∧ SameUnit t t' u := by
  have hfault : s'.fault = s.fault := hf'.trans hf.symm
  cases i with
  | drst =>
    cases hu
    cases (exec_drst hf).symm.trans h
    exact ⟨_, exec_drst hf', rfl, hfault, congrArg dRst hunit⟩
  | edge level duration =>
    cases hu
    have hdec : s'.dec = s.dec := hunit
    rw [exec_edge hf] at h
    rw [exec_edge hf', hcfg, hdec]
    rcases finishEdge_next h with ⟨m, d, hrun, rfl⟩ | ⟨cause, d, hrun, rfl⟩ <;> rw [hrun]
    · exact ⟨_, rfl, rfl, hfault, rfl⟩
    · exact ⟨_, rfl, by simp [hfault], by simp [hfault], rfl⟩
  | crst =>
    cases hu
    cases (exec_crst hf).symm.trans h
    exact ⟨_, exec_crst hf', rfl, hfault, rfl⟩
  | cedge level duration =>
    cases hu
    have hcus : s'.cus = s.cus := hunit
    cases (exec_cedge hf level duration).symm.trans h
    rw [exec_cedge hf', hcfg, hcus]
    exact ⟨_, rfl, rfl, hfault, rfl⟩
  | erst =>
    cases hu
    cases (exec_erst hf).symm.trans h
    exact ⟨_, exec_erst hf', rfl, hfault, congrArg eRst hunit⟩
  | enc code n =>
    cases hu
    have henc : s'.enc = s.enc := hunit
    cases (exec_enc hf code n).symm.trans h
    rw [exec_enc hf', hcfg, henc]
    exact ⟨_, rfl, rfl, hfault, rfl⟩
  | next =>
    cases hu
    have henc : s'.enc = s.enc := hunit
    rcases exec_next_cases hf h with ⟨e, hlt, hread, rfl⟩ | ⟨hle, rfl⟩
    · rw [← henc] at hlt hread
      exact ⟨_, exec_next_sample hf' hlt hread, rfl, hfault, by simp [SameUnit, henc]⟩
    · rw [← henc] at hle
      exact ⟨_, exec_next_done hf' hle, rfl, hfault, hunit⟩
  | _ => cases hu

/-- Settles O20: the frames give the first part; for the second, each command finds its own unit as it was before the other ran,
and so leaves in it, and answers, the same in both orders. -/
theorem unitsAreIndependent : Obligations.UnitsAreIndependent := by
  refine ⟨fun i s t h => ?_, ?_⟩
  · exact ⟨(exec_unitFrame · h), (exec_unitFrame · h), (exec_unitFrame · h), exec_fault_unless_edge h⟩
  intro i j s si sj sij hf hi hj hij hsi hsj hfi hfj hsij
  obtain ⟨u, hu⟩ := Option.ne_none_iff_exists'.mp hi
  obtain ⟨v, hv⟩ := Option.ne_none_iff_exists'.mp hj
  have huv : u ≠ v := fun h => hij (by rw [hu, hv, h])
  have frame_i := exec_unitFrame hu hsi
  have frame_j := exec_unitFrame hv hsj
  obtain ⟨sji, hsji, hrsp_i, hfault_i, hunit_i⟩ := exec_of_sameUnit hu hf hfj frame_j.cfg (frame_j.others huv) hsi
  obtain ⟨sij', hsij', hrsp_j, hfault_j, hunit_j⟩ := exec_of_sameUnit hv hf hfi frame_i.cfg (frame_i.others huv.symm) hsj
  cases hsij.symm.trans hsij'
  have frame_ij := exec_unitFrame hv hsij
  have frame_ji := exec_unitFrame hu hsji
  have hsame : ∀ w, SameUnit sij sji w := fun w => by
    by_cases hwu : w = u
    · subst hwu
      exact (frame_ij.others huv).symm.trans hunit_i
    · by_cases hwv : w = v
      · subst hwv
        exact hunit_j.symm.trans (frame_ji.others hwu)
      · have hfirst := (frame_i.others hwu).trans (frame_ij.others hwv)
        exact hfirst.symm.trans ((frame_j.others hwv).trans (frame_ji.others hwu))
  refine ⟨sji, hsji, hrsp_j, hrsp_i, hsame .decoder, hsame .custom, hsame .encoder, ?_⟩
  rw [hfault_i, hfault_j, hfi, hfj]

end Sys2Proof.Machine
end

section
/-! PROOFS. The waveform as a list of (Mark, Space) pairs: what `ENC` and `EFILL` leave in the upload buffer and what `NEXT` pulls
(47_waveform_encoder R220 to R224). -/

namespace Sys2Proof.Machine

variable {s : State} {q : CustomDescriptor} {code code' : BitVec 64} {n j k : Nat} {l : List (Dur × Dur)} {p : Dur × Dur}

/-! ### Pairs -/

/-- The samples of a list of (Mark, Space) pairs. -/
def pairSamples (l : List (Dur × Dur)) : List Sample := l.flatMap fun p => pair p.1 p.2

theorem pairSamples_cons (p : Dur × Dur) (l : List (Dur × Dur)) :
    pairSamples (p :: l) = ⟨.mark, p.1⟩ :: ⟨.space, p.2⟩ :: pairSamples l := rfl

theorem pairSamples_append (l l' : List (Dur × Dur)) : pairSamples (l ++ l') = pairSamples l ++ pairSamples l' :=
  List.flatMap_append

theorem pairSamples_mark (h : l[k]? = some p) : (pairSamples l)[2 * k]? = some ⟨.mark, p.1⟩ := by
  induction l generalizing k with
  | nil => cases h
  | cons p' rest ih =>
    cases k with
    | zero =>
      cases h
      rfl
    | succ k => exact ih (k := k) h

theorem pairSamples_space (h : l[k]? = some p) : (pairSamples l)[2 * k + 1]? = some ⟨.space, p.2⟩ := by
  induction l generalizing k with
  | nil => cases h
  | cons p' rest ih =>
    cases k with
    | zero =>
      cases h
      rfl
    | succ k => exact ih (k := k) h

theorem alternates_pairSamples (l : List (Dur × Dur)) : alternates (pairSamples l) = true := by
  induction l with
  | nil => rfl
  | cons p rest ih =>
    rw [pairSamples_cons]
    cases rest with
    | nil => rfl
    | cons p' rest => exact ih

/-! ### The pairs of a waveform (47_waveform_encoder R222) -/

/-- The pair of one payload bit. -/
def payloadPair (q : CustomDescriptor) (bit : Bool) : Dur × Dur := if bit then (q.long, q.short) else (q.short, q.long)

theorem bitSamples_eq (q : CustomDescriptor) (bit : Bool) :
    bitSamples q bit = pair (payloadPair q bit).1 (payloadPair q bit).2 := by
  cases bit <;> rfl

/-- The pairs of bits `n-1` down to 0 of the code. -/
def payloadPairs (q : CustomDescriptor) (code : BitVec 64) : Nat → List (Dur × Dur)
  | 0 => []
  | n + 1 => payloadPair q (codeBit code n) :: payloadPairs q code n

/-- The pairs of a waveform: header train, start pair, payload, stop pair. -/
def framePairs (q : CustomDescriptor) (code : BitVec 64) (n : Nat) : List (Dur × Dur) :=
  List.replicate q.encHdrPairs (q.short, q.short)
    ++ (startMarkDuration q, q.short) :: (payloadPairs q code n ++ [(q.short, q.encStopSpace)])

theorem headerTrain_eq (q : CustomDescriptor) (n : Nat) :
    headerTrain q n = pairSamples (List.replicate n (q.short, q.short)) := by
  induction n with
  | zero => rfl
  | succ n ih =>
    rw [headerTrain, ih]
    rfl

theorem payloadSamples_eq (q : CustomDescriptor) (code : BitVec 64) (n : Nat) :
    payloadSamples q code n = pairSamples (payloadPairs q code n) := by
  induction n with
  | zero => rfl
  | succ n ih =>
    rw [payloadSamples, ih, bitSamples_eq]
    rfl

theorem waveform_eq (q : CustomDescriptor) (code : BitVec 64) (n : Nat) :
    waveform q code n = pairSamples (framePairs q code n) := by
  rw [waveform, headerTrain_eq, payloadSamples_eq, framePairs, pairSamples_append, pairSamples_cons, pairSamples_append]
  simp [pair, pairSamples]

theorem payloadPairs_length (q : CustomDescriptor) (code : BitVec 64) (n : Nat) : (payloadPairs q code n).length = n := by
  induction n with
  | zero => rfl
  | succ n ih => rw [payloadPairs, List.length_cons, ih]

/-- Payload pair `j` carries bit `n-1-j`: the most significant bit comes first (20_memory R63). -/
theorem payloadPairs_getElem? (h : j < n) : (payloadPairs q code n)[j]? = some (payloadPair q (codeBit code (n - 1 - j))) := by
  induction n generalizing j with
  | zero => cases h
  | succ n ih =>
    rw [payloadPairs]
    cases j with
    | zero => rfl
    | succ j => rw [List.getElem?_cons_succ, ih (by omega), show n + 1 - 1 - (j + 1) = n - 1 - j by omega]

theorem framePairs_header (h : k < q.encHdrPairs) : (framePairs q code n)[k]? = some (q.short, q.short) := by
  rw [framePairs, List.getElem?_append_left (by simpa using h), List.getElem?_replicate, if_pos h]

theorem framePairs_after (q : CustomDescriptor) (code : BitVec 64) (n k : Nat) :
    (framePairs q code n)[q.encHdrPairs + k]?
      = ((startMarkDuration q, q.short) :: (payloadPairs q code n ++ [(q.short, q.encStopSpace)]))[k]? := by
  rw [framePairs, List.getElem?_append_right (by simp)]
  simp

theorem framePairs_start : (framePairs q code n)[q.encHdrPairs]? = some (startMarkDuration q, q.short) :=
  framePairs_after q code n 0

theorem framePairs_payload (h : j < n) :
    (framePairs q code n)[q.encHdrPairs + (1 + j)]? = some (payloadPair q (codeBit code (n - 1 - j))) := by
  rw [framePairs_after, Nat.add_comm 1 j, List.getElem?_cons_succ,
    List.getElem?_append_left (by rwa [payloadPairs_length]), payloadPairs_getElem? h]

theorem framePairs_stop : (framePairs q code n)[q.encHdrPairs + (1 + n)]? = some (q.short, q.encStopSpace) := by
  rw [framePairs_after, Nat.add_comm 1 n, List.getElem?_cons_succ,
    List.getElem?_append_right (by rw [payloadPairs_length]), payloadPairs_length, Nat.sub_self]
  rfl

/-! ### The shape of a waveform (47_waveform_encoder R223) -/

/-- Bits below both widths are the code's low bits. -/
theorem codeBit_of_mod_eq (hn : n ≤ 64) (h : code'.toNat % 2 ^ n = code.toNat % 2 ^ n) (hk : k < n) :
    codeBit code' k = codeBit code k := by
  have hbit := congrArg (Nat.testBit · k) h
  simp only [Nat.testBit_mod_two_pow, hk, decide_true, Bool.true_and] at hbit
  rw [codeBit_of_lt (by omega), codeBit_of_lt (by omega)]
  exact hbit

theorem payloadPairs_congr (h : ∀ k < n, codeBit code' k = codeBit code k) :
    payloadPairs q code' n = payloadPairs q code n := by
  induction n with
  | zero => rfl
  | succ n ih => rw [payloadPairs, payloadPairs, h n (by omega), ih fun k hk => h k (by omega)]

/-- Settles O56: the waveform is a list of pairs that ends in the stop pair, and its payload asks for the low bits only. -/
theorem waveformsAlternate : Obligations.WaveformsAlternate := by
  intro q code n
  refine ⟨?_, ?_, ?_, fun hn code' hlow => ?_⟩
  · rw [waveform_eq]
    exact alternates_pairSamples _
  · have hfirst : ∃ p, (framePairs q code n)[0]? = some p := by simp [framePairs]
    obtain ⟨p, hp⟩ := hfirst
    rw [waveform_eq, List.head?_eq_getElem?]
    exact ⟨_, pairSamples_mark hp, rfl⟩
  · exact ⟨⟨.space, q.encStopSpace⟩, by rw [waveform, List.getLast?_append_of_ne_nil _ (by simp [pair])]; rfl, rfl⟩
  · rw [waveform_eq, waveform_eq, framePairs, framePairs, payloadPairs_congr fun k hk => codeBit_of_mod_eq hn hlow hk]

/-! ### `ENC` and `EFILL` (47_waveform_encoder R220 to R222) -/

theorem waveformLength_eq (q : CustomDescriptor) (n : Nat) :
    CustomTiming.waveformLength q n = 2 * q.encHdrPairs + 2 * n + 4 := by
  rw [CustomTiming.waveformLength]
  omega

theorem exec_efill {n : BitVec 8} (hf : s.fault = 0) (hfits : 2 * s.cfg.q.encHdrPairs + 2 * n.toNat + 4 ≤ s.cfg.encCap) :
    exec (.efill code n) s = .next { s with enc := eFill s.cfg.q code n.toNat s.enc, ret := .nothing } := by
  change microCall s _ = _
  rw [microCall_running hf, waveformLength_eq, if_neg (Nat.not_lt.mpr hfits)]

theorem encodeWave_badOperand {c : Config} {n : BitVec 8} (e : EncoderState) (h : 64 < n.toNat) :
    encodeWave c code n e = (eRst e, .badOperand) := if_pos h

theorem encodeWave_tooLarge {c : Config} {n : BitVec 8} (e : EncoderState) (h : n.toNat ≤ 64)
    (hlong : c.encCap < 2 * c.q.encHdrPairs + 2 * n.toNat + 4) : encodeWave c code n e = (eRst e, .tooLarge) := by
  rw [encodeWave, if_neg (Nat.not_lt.mpr h), waveformLength_eq, if_pos hlong]

theorem encodeWave_fits {c : Config} {n : BitVec 8} (e : EncoderState) (h : n.toNat ≤ 64)
    (hfits : 2 * c.q.encHdrPairs + 2 * n.toNat + 4 ≤ c.encCap) :
    encodeWave c code n e = (eFill c.q code n.toNat e, .okNone) := by
  rw [encodeWave, if_neg (Nat.not_lt.mpr h), waveformLength_eq, if_neg (Nat.not_lt.mpr hfits)]
  rfl

theorem encodeWave_encRd (c : Config) (code : BitVec 64) (n : BitVec 8) (e : EncoderState) :
    (encodeWave c code n e).1.encRd = 0 := by
  unfold encodeWave
  split_ifs <;> rfl

/-- Settles O54: the two checks in their order, and where both pass the fill that `EFILL` does alone. -/
theorem encodeChecksThenFills : Obligations.EncodeChecksThenFills := by
  intro s code n
  refine ⟨exec_command_halted rfl, fun hf => ⟨_, _, exec_enc hf code n, ?_, ?_, ?_, ?_⟩⟩
  · exact encodeWave_encRd s.cfg code n s.enc
  · intro h
    rw [encodeWave_badOperand _ h]
    exact ⟨rfl, rfl, rfl⟩
  · intro h hlong
    rw [encodeWave_tooLarge _ h hlong]
    exact ⟨rfl, rfl, rfl⟩
  · intro h hfits
    rw [encodeWave_fits _ h hfits]
    exact ⟨rfl, (waveform_length _ _ _).trans (waveformLength_eq _ _), exec_efill hf hfits⟩

/-- A fill leaves the waveform's entries at their own indices. -/
theorem Memory.read_writeRun_zero {α : Type} {i : Nat} {v : α} {vs : List α} (m : Memory α) (h : vs[i]? = some v) :
    Memory.read i (Memory.writeRun 0 vs m) = some v := by
  have hi : i < vs.length := (List.getElem?_eq_some_iff.mp h).choose
  rw [← h, ← Memory.read_writeRun_at (i := 0) vs m hi, Nat.zero_add]

theorem read_fill_pair (ub : Memory Sample) (h : (framePairs q code n)[k]? = some p) :
    Memory.read (2 * k) (Memory.writeRun 0 (waveform q code n) ub) = some ⟨.mark, p.1⟩
      ∧ Memory.read (2 * k + 1) (Memory.writeRun 0 (waveform q code n) ub) = some ⟨.space, p.2⟩ := by
  rw [waveform_eq]
  exact ⟨Memory.read_writeRun_zero ub (pairSamples_mark h), Memory.read_writeRun_zero ub (pairSamples_space h)⟩

/-- `WF_Q` keeps the start Mark within 32 bits (00_scope R8). -/
theorem startMarkDuration_of_wf (h : wfCustom q = true) : startMarkDuration q = BitVec.ofNat 32 (4 * q.short.toNat) := by
  simp only [wfCustom, Bool.and_eq_true, decide_eq_true_eq] at h
  exact if_pos h.2

/-- Settles O55: each index belongs to one pair of the frame, and the fill writes no index beyond the waveform. -/
theorem fillWritesTheWaveform : Obligations.FillWritesTheWaveform := by
  intro s code n hf hwf hfits
  have hlen : (waveform s.cfg.q code n.toNat).length = 2 * s.cfg.q.encHdrPairs + 2 * n.toNat + 4 :=
    (waveform_length _ _ _).trans (waveformLength_eq _ _)
  obtain ⟨hstart, hstart'⟩ := read_fill_pair s.enc.ub (framePairs_start (q := s.cfg.q) (code := code) (n := n.toNat))
  obtain ⟨hstop, hstop'⟩ := read_fill_pair s.enc.ub (framePairs_stop (q := s.cfg.q) (code := code) (n := n.toNat))
  rw [startMarkDuration_of_wf hwf] at hstart
  rw [show 2 * (s.cfg.q.encHdrPairs + (1 + n.toNat)) = 2 * s.cfg.q.encHdrPairs + 2 + 2 * n.toNat by omega] at hstop hstop'
  refine ⟨_, (exec_efill hf hfits).trans (by rw [← hlen]; rfl), fun i hi => read_fill_pair _ (framePairs_header hi), hstart,
    hstart', fun j hj => ⟨codeBit code (n.toNat - 1 - j), codeBit_of_lt, ?_⟩, hstop, hstop', fun k hk => ?_,
    Memory.wf_writeRun 0 _⟩
  · have hpair := read_fill_pair s.enc.ub (framePairs_payload (q := s.cfg.q) (code := code) hj)
    rw [show 2 * (s.cfg.q.encHdrPairs + (1 + j)) = 2 * s.cfg.q.encHdrPairs + 2 + 2 * j by omega] at hpair
    cases hbit : codeBit code (n.toNat - 1 - j) <;> rw [hbit] at hpair <;> exact hpair
  · exact Memory.read_writeRun_above _ _ (by omega)

/-! ### `NEXT` (47_waveform_encoder R224) -/

/-- Settles O57: a pull either finds an entry below the write cursor or answers `DONE`. -/
theorem nextPullsInOrder : Obligations.NextPullsInOrder :=
  fun _ => ⟨exec_command_halted rfl, fun hf => ⟨fun _ hlt hread => exec_next_sample hf hlt hread, exec_next_done hf⟩⟩

end Sys2Proof.Machine
end

section
/-! PROOFS. Waveforms fed to the custom machine: the frame that decodes back, and the frame with one corrupted sample
(47_waveform_encoder R226, R227). -/

namespace Sys2Proof.Machine

variable {s : State} {q : CustomDescriptor} {m m1 m2 : CustomState} {S T : CustomState → Prop} {es es' : List Sample}
variable {a b : Dur} {p : Dur × Dur} {l : List (Dur × Dur)} {code : BitVec 64} {n k : Nat}

/-! ### Samples that give no message -/

/-- Fed the samples, the custom machine gives no message and ends in a state where `S` holds. -/
def QuietTo (q : CustomDescriptor) (S : CustomState → Prop) : List Sample → CustomState → Prop
  | [], m => S m
  | e :: es, m => (cEdge q e.level e.duration m).2 = none ∧ QuietTo q S es (cEdge q e.level e.duration m).1

theorem QuietTo.append (h : QuietTo q S es m) (h' : ∀ m', S m' → QuietTo q T es' m') : QuietTo q T (es ++ es') m := by
  induction es generalizing m with
  | nil => exact h' m h
  | cons e es ih =>
    obtain ⟨hnone, hrest⟩ := h
    exact ⟨hnone, ih hrest⟩

theorem QuietTo.mono (h : QuietTo q S es m) (h' : ∀ m', S m' → T m') : QuietTo q T es m := by
  have hend := h.append (es' := []) h'
  rwa [List.append_nil] at hend

/-- A pair of samples, one arm for each. -/
theorem quietTo_pair (hmark : cEdge q .mark p.1 m = (m1, none)) (hspace : cEdge q .space p.2 m1 = (m2, none)) (h : S m2) :
    QuietTo q S (pairSamples [p]) m := by
  rw [pairSamples_cons]
  refine ⟨congrArg Prod.snd hmark, ?_⟩
  rw [hmark]
  refine ⟨congrArg Prod.snd hspace, ?_⟩
  rwa [hspace]

/-- Pairs after which the machine is where it was before them. -/
theorem quietTo_pairs (hpair : ∀ p ∈ l, ∀ m, S m → QuietTo q S (pairSamples [p]) m) (h : S m) :
    QuietTo q S (pairSamples l) m := by
  induction l generalizing m with
  | nil => exact h
  | cons p l ih =>
    obtain ⟨hp, hl⟩ := List.forall_mem_cons.mp hpair
    exact (hp m h).append fun m' h' => ih hl h'

/-- The host that issues the samples one by one is answered `OK_NONE` to each. -/
theorem QuietTo.issueAll (hf : s.fault = 0) (h : QuietTo s.cfg.q S es s.cus) :
    ∃ m', S m' ∧ CustomRun (cfeedCommands es) s m' := by
  induction es generalizing s with
  | nil => exact ⟨s.cus, h, s, [], rfl, by simp, rfl⟩
  | cons e es ih =>
    obtain ⟨hnone, hrest⟩ := h
    obtain ⟨m', hm', hrun⟩ :=
      ih (s := respond .okNone { s with cus := (cEdge s.cfg.q e.level e.duration s.cus).1 }) hf hrest
    exact ⟨m', hm', .cons (exec_cedge_of_none hf (Prod.ext rfl hnone)) hrun⟩

/-! ### `LOOPBACK` (30_encoding R94) -/

theorem sampleOfWord_responseWord (e : Sample) : sampleOfWord (responseWord (.okSample e)) = e := by
  obtain ⟨-, -, -, hlevel, hduration⟩ := responseWordLayout (.okSample e)
  simp only [sampleOfWord, hlevel, hduration]

/-- The samples between the cursors, in the order in which `NEXT` pulls them (47_waveform_encoder R224). -/
def Pending (e : EncoderState) (vs : List Sample) : Prop :=
  e.encWr = e.encRd + vs.length ∧ ∀ k < vs.length, Memory.read (e.encRd + k) e.ub = vs[k]?

theorem pending_eFill (q : CustomDescriptor) (code : BitVec 64) (n : Nat) (e : EncoderState) :
    Pending (eFill q code n e) (waveform q code n) :=
  ⟨(Nat.zero_add _).symm, fun _ hk => Memory.read_writeRun_at (i := 0) _ _ hk⟩

section Pull

variable {enc : EncoderState} {e : Sample} {vs : List Sample} {t u : State}

theorem Pending.first (h : Pending enc (e :: vs)) : enc.encRd < enc.encWr ∧ Memory.read enc.encRd enc.ub = some e := by
  obtain ⟨hwr, hread⟩ := h
  rw [List.length_cons] at hwr hread
  exact ⟨by omega, hread 0 (by omega)⟩

theorem Pending.rest (h : Pending enc (e :: vs)) : Pending { enc with encRd := enc.encRd + 1 } vs := by
  obtain ⟨hwr, hread⟩ := h
  rw [List.length_cons] at hwr hread
  refine ⟨hwr.trans (by dsimp only; omega), fun k hk => ?_⟩
  rw [Nat.add_assoc, Nat.add_comm 1 k]
  exact hread (k + 1) (by omega)

/-- The block after one round of `LOOPBACK`: the sample is pulled and the custom machine has taken and answered it. -/
def fedBack (e : Sample) (s : State) : State :=
  { s with
    enc := { s.enc with encRd := s.enc.encRd + 1 }
    cus := (cEdge s.cfg.q e.level e.duration s.cus).1
    rsp := some (responseWord (edgeResponse (cEdge s.cfg.q e.level e.duration s.cus).2)) }

theorem loopback_pending (hf : s.fault = 0) (h : Pending s.enc (e :: vs)) (n : Nat) :
    loopback (n + 1) s
      = Transcript.after (responseWord (edgeResponse (cEdge s.cfg.q e.level e.duration s.cus).2))
          (loopback n (fedBack e s)) := by
  obtain ⟨hlt, hread⟩ := h.first
  have hfeed : exec (.cedge e.level e.duration)
      (respond (.okSample e) { s with enc := { s.enc with encRd := s.enc.encRd + 1 } }) = .next (fedBack e s) :=
    exec_cedge (s := respond _ { s with enc := _ }) hf e.level e.duration
  simp only [loopback, exec_next_sample hf hlt hread, lastWord_respond, statusField_responseWord, statusCode, if_true,
    sampleOfWord_responseWord, hfeed]
  rfl

theorem loopback_done (hf : s.fault = 0) (h : Pending s.enc []) (n : Nat) :
    loopback (n + 1) s = .next (respond .done s, []) := by
  simp [loopback, exec_next_done hf h.1.le, statusCode]

end Pull

/-- A loopback of samples that give no message but on the last one: the machine commits that message, and the samples are used
up. -/
theorem QuietTo.loopback {e : Sample} {x : Message} (hf : s.fault = 0) (hpending : Pending s.enc (es ++ [e]))
    (h : QuietTo s.cfg.q (fun m => (cEdge s.cfg.q e.level e.duration m).2 = some x) es s.cus) :
    ∃ t, loopback (es.length + 2) s
        = .next (t, List.replicate es.length (responseWord .okNone) ++ [responseWord (.okMsg x)])
      ∧ t.cus.cState = .idle ∧ t.cus.cLastCode = x.code ∧ t.cus.cLastBits = x.bitCount ∧ t.enc.encRd = t.enc.encWr := by
  induction es generalizing s with
  | nil =>
    have hmsg : (cEdge s.cfg.q e.level e.duration s.cus).2 = some x := h
    have hlast : Pending (fedBack e s).enc [] := hpending.rest
    have hcommit : (fedBack e s).cus = _ := cEdge_commits hmsg
    refine ⟨respond .done (fedBack e s), ?_, ?_⟩
    · rw [List.length_nil, loopback_pending hf hpending, hmsg, loopback_done (s := fedBack e s) hf hlast]
      rfl
    · rw [respond_cus, hcommit]
      exact ⟨rfl, rfl, rfl, hlast.1.symm⟩
  | cons e' es ih =>
    obtain ⟨hnone, hrest⟩ := h
    obtain ⟨t, hrun, hend⟩ := ih (s := fedBack e' s) hf hpending.rest hrest
    refine ⟨t, ?_, hend⟩
    rw [List.length_cons, loopback_pending hf hpending, hnone, hrun]
    rfl

/-! ### Durations that the custom machine tells apart (47_waveform_encoder R226) -/

/-- What the conditions (1) to (4) and (8) of the round-trip law say of the durations that the encoder emits: each passes the
test for what it is, and the tests do not confuse them. -/
structure DistinctTimings (q : CustomDescriptor) : Prop where
  short_isShort : CustomTiming.isShort q q.short = true
  short_not_long : CustomTiming.isLong q q.short = false
  short_below_stop : q.short.toNat < CustomTiming.stopThreshold q
  long_isLong : CustomTiming.isLong q q.long = true
  long_not_short : CustomTiming.isShort q q.long = false
  long_below_stop : q.long.toNat < CustomTiming.stopThreshold q
  start_isStart : CustomTiming.isStart q (startMarkDuration q) = true
  start_not_short : CustomTiming.isShort q (startMarkDuration q) = false
  stop_isStop : CustomTiming.stopThreshold q ≤ q.encStopSpace.toNat

theorem startMarkDuration_toNat (h : wfCustom q = true) : (startMarkDuration q).toNat = 4 * q.short.toNat := by
  rw [startMarkDuration_of_wf h, BitVec.toNat_ofNat]
  simp only [wfCustom, Bool.and_eq_true, decide_eq_true_eq] at h
  exact Nat.mod_eq_of_lt h.2

theorem maxBits_le_of_wf (h : wfCustom q = true) : q.maxBits.toNat ≤ 64 := by
  simp only [wfCustom, Bool.and_eq_true, decide_eq_true_eq] at h
  exact h.1.1

theorem distinctTimings_of_roundTrip {c : Config} (hwf : wfCustom c.q = true) (h : RoundTripConditions c n) :
    DistinctTimings c.q := by
  obtain ⟨hdelta, hstart, hlong, hbelow, -, -, -, hstop, -⟩ := h
  have hmark := startMarkDuration_toNat hwf
  have hthreshold : CustomTiming.stopThreshold c.q = 10 * c.q.short.toNat + 2 * c.q.delta.toNat := rfl
  have hfour : CustomTiming.startMark c.q = 4 * c.q.short.toNat := rfl
  unfold absDiff at hlong
  refine ⟨?_, ?_, by omega, ?_, ?_, hbelow, ?_, ?_, hstop⟩
  · exact (windowMatch_bounds _ _ _).mpr (by omega)
  · exact windowMatch_eq_false_iff.mpr (by split at hlong <;> omega)
  · exact (windowMatch_bounds _ _ _).mpr (by omega)
  · exact windowMatch_eq_false_iff.mpr (by split at hlong <;> omega)
  · exact (windowMatch_bounds _ _ _).mpr (by omega)
  · exact windowMatch_eq_false_iff.mpr (by omega)

/-! ### The header train and the start pair (46_custom_fsm R201, R202) -/

theorem quietTo_headerPairs (hq : DistinctTimings q) (n k : Nat) :
    QuietTo q (· = afterPairs q.short (k + n) m) (pairSamples (List.replicate n (q.short, q.short)))
      (afterPairs q.short k m) := by
  induction n generalizing k with
  | zero => rfl
  | succ n ih =>
    refine (quietTo_pair (S := (· = afterPairs q.short (k + 1) m)) (cEdge_header_short_mark hq.short_isShort k)
      (cEdge_header_short_space hq.short_isShort hq.short_isShort k) rfl).append ?_
    rintro _ rfl
    rw [show k + (n + 1) = k + 1 + n by omega]
    exact ih (k + 1)

/-- The whole header train, from an idle machine: every pair is counted. -/
theorem quietTo_headerTrain (hq : DistinctTimings q) (hidle : m.cState = .idle) (hn : 1 ≤ n) :
    QuietTo q (· = afterPairs q.short n m) (pairSamples (List.replicate n (q.short, q.short))) m := by
  obtain ⟨n, rfl⟩ := Nat.exists_eq_add_of_le' hn
  refine (quietTo_pair (S := (· = afterPairs q.short 1 m)) (cEdge_idle_short_mark hq.short_isShort hidle)
    (cEdge_header_short_space hq.short_isShort hq.short_isShort 0) rfl).append ?_
  rintro _ rfl
  rw [Nat.add_comm n 1]
  exact quietTo_headerPairs hq n 1

/-- The machine awaits a bit Mark, with `count` bits of the given value in the shift register. -/
structure Collected (value count : Nat) (m : CustomState) : Prop where
  state : m.cState = .bitMark
  code : m.cCode = BitVec.ofNat 64 value
  bits : m.cBits.toNat = count

/-- After enough header pairs the start pair empties the shift register (46_custom_fsm R202). -/
theorem quietTo_startPair (hq : DistinctTimings q) (hn : 41 ≤ n) :
    QuietTo q (Collected 0 0) (pairSamples [(startMarkDuration q, q.short)]) (afterPairs q.short n m) := by
  have hcount : hdrMin < (BitVec.ofNat 16 (min n 65535)).toNat := by
    rw [BitVec.toNat_ofNat, hdrMin]
    omega
  refine quietTo_pair (m1 := { afterPairs q.short n m with cLast := startMarkDuration q })
    (m2 := { afterPairs q.short n m with cLast := startMarkDuration q, cCode := 0, cBits := 0, cState := .bitMark }) ?_ ?_
    ⟨rfl, rfl, rfl⟩
  · rw [cEdge_header rfl, arm1, if_pos rfl, arm1Mark_eq_ite, if_pos (.inr hq.start_isStart)]
  · rw [cEdge_header rfl, arm1, if_neg (by decide), arm1Space_eq_ite, if_pos hq.short_isShort,
      if_neg (by simp [hq.start_not_short]), if_pos ⟨hq.start_isStart, hcount⟩]

/-! ### The payload (46_custom_fsm R203 to R205) -/

/-- A pair whose Space does not stop the frame, in a machine that awaits a bit. -/
theorem quietTo_bitPair (hs : m.cState = .bitMark) (hbelow : p.2.toNat < CustomTiming.stopThreshold q)
    (h : S (bitPair q p.2 { m with cLast := p.1, cState := .bitSpace })) : QuietTo q S (pairSamples [p]) m := by
  refine quietTo_pair (m1 := { m with cLast := p.1, cState := .bitSpace }) ?_ ?_ h
  · rw [cEdge_bitMark hs, arm2_mark]
  · rw [cEdge_bitSpace rfl, arm3_space_below hbelow]

theorem customBit_payloadPair (hq : DistinctTimings q) (bit : Bool) :
    customBit q (payloadPair q bit).1 (payloadPair q bit).2 = some bit := by
  cases bit with
  | false => exact customBit_zero ⟨hq.short_isShort, hq.long_isLong⟩
  | true => exact customBit_one (by simp [payloadPair, hq.long_not_short]) ⟨hq.long_isLong, hq.short_isShort⟩

theorem payloadPair_below_stop (hq : DistinctTimings q) (bit : Bool) :
    (payloadPair q bit).2.toNat < CustomTiming.stopThreshold q := by
  cases bit with
  | false => exact hq.long_below_stop
  | true => exact hq.short_below_stop

/-- One payload pair puts its bit below those collected. -/
theorem quietTo_payloadPair (hq : DistinctTimings q) (bit : Bool) {v : Nat} (h : Collected v k m)
    (hroom : k < q.maxBits.toNat) : QuietTo q (Collected (2 * v + bit.toNat) (k + 1)) (pairSamples [payloadPair q bit]) m := by
  obtain ⟨hstate, hcode, hbits⟩ := h
  refine quietTo_bitPair hstate (payloadPair_below_stop hq bit) ?_
  have hlt : m.cBits.toNat < q.maxBits.toNat := hbits.trans_lt hroom
  rw [bitPair_of_some (m := { m with cLast := _, cState := _ }) (customBit_payloadPair hq bit) hlt]
  refine ⟨rfl, BitVec.eq_of_toNat_eq ?_, ?_⟩
  · exact (cBit_cCode_toNat bit _).trans (by simp [hcode, Nat.add_mod, Nat.mul_mod])
  · have hwidth : m.cBits ≠ 255 := by bv_omega
    exact (bumpBits_toNat hwidth).trans (by rw [hbits])

/-- The payload puts the low `n` bits of the code below those collected. -/
theorem quietTo_payload (hq : DistinctTimings q) (hn : n ≤ 64) {v : Nat} (h : Collected v k m)
    (hroom : k + n ≤ q.maxBits.toNat) :
    QuietTo q (Collected (v * 2 ^ n + code.toNat % 2 ^ n) (k + n)) (pairSamples (payloadPairs q code n)) m := by
  induction n generalizing v k m with
  | zero =>
    rw [Nat.pow_zero, Nat.mul_one, Nat.mod_one, Nat.add_zero, Nat.add_zero]
    exact h
  | succ n ih =>
    refine (quietTo_payloadPair hq _ h (by omega)).append fun m' h' => ?_
    have hvalue : v * 2 ^ (n + 1) + code.toNat % 2 ^ (n + 1)
        = (2 * v + (codeBit code n).toNat) * 2 ^ n + code.toNat % 2 ^ n := by
      rw [codeBit_of_lt (by omega), Nat.mod_pow_succ, BitVec.getLsbD, Nat.toNat_testBit]
      ring
    rw [hvalue, show k + (n + 1) = k + 1 + n by omega]
    exact ih (by omega) h' (by omega)

/-! ### The frame that decodes back (47_waveform_encoder R226) -/

/-- The samples of a waveform up to its stop Mark. -/
def beforeStopSpace (q : CustomDescriptor) (code : BitVec 64) (n : Nat) : List Sample :=
  pairSamples (List.replicate q.encHdrPairs (q.short, q.short)) ++ pairSamples [(startMarkDuration q, q.short)]
    ++ pairSamples (payloadPairs q code n) ++ [⟨.mark, q.short⟩]

theorem waveform_eq_beforeStopSpace (q : CustomDescriptor) (code : BitVec 64) (n : Nat) :
    waveform q code n = beforeStopSpace q code n ++ [⟨.space, q.encStopSpace⟩] := by
  rw [waveform, headerTrain_eq, payloadSamples_eq, beforeStopSpace, List.append_assoc _ [_] [_]]
  rfl

theorem beforeStopSpace_length (q : CustomDescriptor) (code : BitVec 64) (n : Nat) :
    (beforeStopSpace q code n).length = 2 * q.encHdrPairs + 2 * n + 3 := by
  have hlength := waveform_length q code n
  rw [waveform_eq_beforeStopSpace, List.length_append, waveformLength_eq] at hlength
  exact Nat.succ.inj hlength

/-- The stop pair commits the bits collected, if they are enough (46_custom_fsm R204). -/
theorem quietTo_stopMark (hq : DistinctTimings q) {v : Nat} {n : BitVec 8} (h : Collected v n.toNat m)
    (hmin : q.minBits.toNat ≤ n.toNat) :
    QuietTo q (fun m' => (cEdge q .space q.encStopSpace m').2 = some ⟨q.protocolId, BitVec.ofNat 64 v, n, false⟩)
      [⟨.mark, q.short⟩] m := by
  obtain ⟨hstate, hcode, hbits⟩ := h
  have hmark : cEdge q .mark q.short m = ({ m with cLast := q.short, cState := .bitSpace }, none) := cEdge_bitMark hstate
  rw [QuietTo, QuietTo, hmark, cEdge_bitSpace rfl, arm3_space_stop hq.stop_isStop]
  dsimp only
  rw [stopFrame_enough (m := { m with cLast := q.short, cState := .bitSpace }) (hmin.trans hbits.ge)]
  simp [customMessage, hcode, BitVec.eq_of_toNat_eq hbits]

/-- An encoded frame, from an idle machine, gives its message on the stop Space and none before. -/
theorem quietTo_beforeStopSpace {c : Config} {n : BitVec 8} (hwf : wfCustom c.q = true) (h : RoundTripConditions c n.toNat)
    (hidle : m.cState = .idle) :
    QuietTo c.q
      (fun m' => (cEdge c.q .space c.q.encStopSpace m').2
        = some ⟨c.q.protocolId, BitVec.ofNat 64 (code.toNat % 2 ^ n.toNat), n, false⟩)
      (beforeStopSpace c.q code n.toNat) m := by
  have hq := distinctTimings_of_roundTrip hwf h
  have hmax := maxBits_le_of_wf hwf
  obtain ⟨-, -, -, -, hmin, hn, hpairs, -, -⟩ := h
  have hpayload : ∀ m', Collected 0 0 m' → QuietTo c.q (Collected (code.toNat % 2 ^ n.toNat) n.toNat)
      (pairSamples (payloadPairs c.q code n.toNat)) m' := fun m' h' => by
    simpa using quietTo_payload (code := code) hq (hn.trans hmax) h' (by omega)
  refine (((quietTo_headerTrain hq hidle (by omega)).append ?_).append hpayload).append fun m' h' => quietTo_stopMark hq h' hmin
  rintro _ rfl
  exact quietTo_startPair hq hpairs

/-- The block after an `ENC` that was accepted (47_waveform_encoder R220). -/
def encoded (code : BitVec 64) (n : Nat) (s : State) : State :=
  respond .okNone { s with enc := eFill s.cfg.q code n s.enc }

theorem exec_enc_fits {n : BitVec 8} (hf : s.fault = 0) (hn : n.toNat ≤ 64)
    (hfits : 2 * s.cfg.q.encHdrPairs + 2 * n.toNat + 4 ≤ s.cfg.encCap) :
    exec (.enc code n) s = .next (encoded code n.toNat s) := by
  rw [exec_enc hf, encodeWave_fits _ hn hfits]
  rfl

theorem pullsNeeded_encoded (code : BitVec 64) (n : Nat) (s : State) :
    pullsNeeded (encoded code n s) = (beforeStopSpace s.cfg.q code n).length + 2 := by
  rw [pullsNeeded, encoded, respond_enc, eFill_encWr, eFill_encRd, waveform_eq_beforeStopSpace, List.length_append]
  rfl

/-- Settles O59: the frame is quiet up to its last sample, whose message holds what the payload put into the shift register. -/
theorem encodedFrameDecodesBack : Obligations.EncodedFrameDecodesBack := by
  intro s code n hwf hround hf hidle
  have hquiet := quietTo_beforeStopSpace (code := code) hwf hround hidle
  obtain ⟨-, -, -, -, -, hn, -, -, hfits⟩ := hround
  have hpending := pending_eFill s.cfg.q code n.toNat s.enc
  rw [waveform_eq_beforeStopSpace] at hpending
  obtain ⟨t, hrun, hend⟩ := QuietTo.loopback (s := encoded code n.toNat s) hf hpending hquiet
  refine ⟨_, t, exec_enc_fits hf (hn.trans (maxBits_le_of_wf hwf)) hfits, rfl, ?_, hend⟩
  rw [pullsNeeded_encoded, hrun, beforeStopSpace_length]

/-! ### The frame with one corrupted sample (47_waveform_encoder R227) -/

/-- A run of pairs in which one duration has been replaced, as the replacement of one pair. -/
theorem pairSamples_set {i : Nat} {e : Sample} (x : Dur) (h : (pairSamples l)[i]? = some e) :
    ∃ k p p', l[k]? = some p ∧ (i = 2 * k ∧ p' = (x, p.2) ∨ i = 2 * k + 1 ∧ p' = (p.1, x))
      ∧ (pairSamples l).set i ⟨e.level, x⟩ = pairSamples (l.set k p') := by
  induction l generalizing i with
  | nil => cases h
  | cons p l ih =>
    rw [pairSamples_cons] at h ⊢
    match i, h with
    | 0, h =>
      cases h
      exact ⟨0, p, _, rfl, .inl ⟨rfl, rfl⟩, rfl⟩
    | 1, h =>
      cases h
      exact ⟨0, p, _, rfl, .inr ⟨rfl, rfl⟩, rfl⟩
    | i + 2, h =>
      obtain ⟨k, p₀, p', hk, hp', hset⟩ := ih h
      refine ⟨k + 1, p₀, p', hk, ?_, ?_⟩
      · exact hp'.imp (fun ⟨hi, hp⟩ => ⟨by omega, hp⟩) (fun ⟨hi, hp⟩ => ⟨by omega, hp⟩)
      · simp only [List.set_cons_succ, hset, pairSamples_cons]

/-- The machine is in state 0. -/
def Idle (m : CustomState) : Prop := m.cState = .idle

/-- Where the custom machine stands between two payload pairs: it still collects bits, or it has given the frame up. -/
def BetweenPairs (m : CustomState) : Prop := m.cState = .idle ∨ m.cState = .bitMark

/-- A pair that is no header pair leaves an idle machine idle (46_custom_fsm R201, R202). -/
theorem quietTo_notHeader (hidle : Idle m) (h : ¬ (CustomTiming.isShort q p.1 = true ∧ CustomTiming.isShort q p.2 = true)) :
    QuietTo q Idle (pairSamples [p]) m := by
  by_cases hmark : CustomTiming.isShort q p.1 = true
  · have hspace : ¬ CustomTiming.isShort q p.2 = true := fun hp => h ⟨hmark, hp⟩
    refine quietTo_pair (m1 := { m with cLast := p.1, cHdr := 0, cState := .header })
      (m2 := toIdle { m with cLast := p.1, cHdr := 0, cState := .header }) ?_ ?_ rfl
    · rw [cEdge_idle hidle, arm0_short_mark ⟨rfl, hmark⟩]
    · rw [cEdge_header rfl, arm1, if_neg (by decide), arm1Space_eq_ite, if_neg hspace]
  · refine quietTo_pair (m1 := m) ?_ ?_ hidle
    · rw [cEdge_idle hidle, arm0_other fun hp => hmark hp.2]
    · rw [cEdge_idle hidle, arm0_other (by simp)]

/-- A start pair that is none ends the count of header pairs (46_custom_fsm R202). -/
theorem quietTo_noStart (hs : m.cState = .header)
    (h : CustomTiming.isShort q p.1 = true ∨ CustomTiming.isStart q p.1 = true → CustomTiming.isShort q p.2 = false) :
    QuietTo q Idle (pairSamples [p]) m := by
  by_cases hmark : CustomTiming.isShort q p.1 = true ∨ CustomTiming.isStart q p.1 = true
  · refine quietTo_pair (m1 := { m with cLast := p.1 }) (m2 := toIdle { m with cLast := p.1 }) ?_ ?_ rfl
    · rw [cEdge_header hs, arm1, if_pos rfl, arm1Mark_eq_ite, if_pos hmark]
    · rw [cEdge_header (m := { m with cLast := p.1 }) hs, arm1, if_neg (by decide), arm1Space_eq_ite,
        if_neg (by simp [h hmark])]
  · refine quietTo_pair (m1 := toIdle m) (m2 := toIdle m) ?_ ?_ rfl
    · rw [cEdge_header hs, arm1, if_pos rfl, arm1Mark_eq_ite, if_neg hmark]
    · rw [cEdge_idle rfl, arm0_other (by simp)]

/-- A pair that carries no bit ends the frame (46_custom_fsm R204). -/
theorem quietTo_noBit (h : BetweenPairs m) (hbelow : p.2.toNat < CustomTiming.stopThreshold q)
    (hpair : ¬ (CustomTiming.isShort q p.1 = true ∧ CustomTiming.isShort q p.2 = true))
    (hbit : customBit q p.1 p.2 = none) : QuietTo q Idle (pairSamples [p]) m := by
  rcases h with hidle | hs
  · exact quietTo_notHeader hidle hpair
  · refine quietTo_bitPair hs hbelow ?_
    rw [bitPair_of_none hbit]
    rfl

theorem betweenPairs_bitPair (q : CustomDescriptor) (d : Dur) (m : CustomState) : BetweenPairs (bitPair q d m) := by
  unfold bitPair
  split
  · exact .inl rfl
  · split
    · exact .inl rfl
    · exact .inr rfl

section Payload

variable {bit : Bool}

theorem payloadPair_not_header (hq : DistinctTimings q) :
    ¬ (CustomTiming.isShort q (payloadPair q bit).1 = true ∧ CustomTiming.isShort q (payloadPair q bit).2 = true) := by
  cases bit <;> simp [payloadPair, hq.long_not_short]

theorem quietTo_between (hq : DistinctTimings q) (h : BetweenPairs m) :
    QuietTo q BetweenPairs (pairSamples [payloadPair q bit]) m := by
  rcases h with hidle | hs
  · exact (quietTo_notHeader hidle (payloadPair_not_header hq)).mono fun _ => .inl
  · exact quietTo_bitPair hs (payloadPair_below_stop hq bit) (betweenPairs_bitPair _ _ _)

/-- A payload pair with one duration that is neither short nor long (and no stop in the place of the Space). -/
theorem quietTo_corrupted (hq : DistinctTimings q) {x : Dur} (h : BetweenPairs m) (hshort : CustomTiming.isShort q x = false)
    (hlong : CustomTiming.isLong q x = false)
    (hp : p = (x, (payloadPair q bit).2) ∨ p = ((payloadPair q bit).1, x) ∧ x.toNat < CustomTiming.stopThreshold q) :
    QuietTo q Idle (pairSamples [p]) m := by
  rcases hp with rfl | ⟨rfl, hbelow⟩
  · exact quietTo_noBit h (payloadPair_below_stop hq bit) (by simp [hshort]) (by simp [customBit, hshort, hlong])
  · exact quietTo_noBit h hbelow (by simp [hshort]) (by simp [customBit, hshort, hlong])

theorem mem_payloadPairs (h : p ∈ payloadPairs q code n) : ∃ bit, p = payloadPair q bit := by
  induction n with
  | zero => cases h
  | succ n ih =>
    rcases List.mem_cons.mp h with rfl | h
    · exact ⟨_, rfl⟩
    · exact ih h

end Payload

/-- Only state 3 gives a message. -/
theorem cEdge_quiet {level : Level} {d : Dur} (hs : m.cState ≠ .bitSpace) : (cEdge q level d m).2 = none := by
  refine Option.eq_none_iff_forall_ne_some.mpr fun x hx => ?_
  obtain ⟨hstate, -⟩ := cEdge_message hx
  exact hs hstate

/-- An idle machine does not reach state 3 within one pair, so it gives no message. -/
theorem quietTo_idle_pair (p : Dur × Dur) (hidle : Idle m) : QuietTo q (fun _ => True) (pairSamples [p]) m := by
  have hs : ((cEdge q .mark p.1 m).1).cState ≠ .bitSpace := by
    rw [cEdge_idle hidle, arm0]
    split
    · nofun
    · exact fun h => absurd (hidle.symm.trans h) nofun
  exact ⟨cEdge_quiet fun h => absurd (hidle.symm.trans h) nofun, cEdge_quiet hs, trivial⟩

/-- A machine that has given the frame up gives no message for the rest of it. -/
theorem quietTo_rest (hq : DistinctTimings q) (hl : ∀ p ∈ l, ∃ bit, p = payloadPair q bit) (p : Dur × Dur)
    (hidle : Idle m) : QuietTo q (fun _ => True) (pairSamples (l ++ [p])) m := by
  rw [pairSamples_append]
  refine (quietTo_pairs (fun p hp m h => ?_) hidle).append fun m' h' => quietTo_idle_pair p h'
  obtain ⟨bit, rfl⟩ := hl p hp
  exact quietTo_notHeader h (payloadPair_not_header hq)

theorem framePairs_set_start (q : CustomDescriptor) (code : BitVec 64) (n : Nat) (p : Dur × Dur) :
    (framePairs q code n).set q.encHdrPairs p
      = List.replicate q.encHdrPairs (q.short, q.short) ++ ([p] ++ (payloadPairs q code n ++ [(q.short, q.encStopSpace)])) := by
  rw [framePairs, List.set_append_right _ _ (by simp)]
  simp

theorem framePairs_set_payload (hk : k < n) (p : Dur × Dur) :
    (framePairs q code n).set (q.encHdrPairs + (1 + k)) p
      = List.replicate q.encHdrPairs (q.short, q.short) ++ ([(startMarkDuration q, q.short)]
        ++ ((payloadPairs q code n).take k
          ++ ([p] ++ ((payloadPairs q code n).drop (k + 1) ++ [(q.short, q.encStopSpace)])))) := by
  have hlen : k < (payloadPairs q code n).length := by rwa [payloadPairs_length]
  rw [framePairs, List.set_append_right _ _ (by simp), List.length_replicate, Nat.add_sub_cancel_left, Nat.add_comm 1 k,
    List.set_cons_succ, List.set_append_left _ _ hlen, List.set_eq_take_append_cons_drop, if_pos hlen]
  simp

/-- A frame whose start pair is none gives no message. -/
theorem quietTo_set_start (hq : DistinctTimings q) (hidle : m.cState = .idle) (hpairs : 41 ≤ q.encHdrPairs)
    (h : CustomTiming.isShort q p.1 = true ∨ CustomTiming.isStart q p.1 = true → CustomTiming.isShort q p.2 = false) :
    QuietTo q (fun _ => True) (pairSamples ((framePairs q code n).set q.encHdrPairs p)) m := by
  rw [framePairs_set_start, pairSamples_append, pairSamples_append]
  refine (quietTo_headerTrain hq hidle (by omega)).append ?_
  rintro _ rfl
  exact (quietTo_noStart rfl h).append fun m' h' => quietTo_rest hq (fun _ => mem_payloadPairs) _ h'

/-- A frame with a payload pair at which a machine between pairs gives up gives no message. -/
theorem quietTo_set_payload (hq : DistinctTimings q) (hidle : m.cState = .idle) (hpairs : 41 ≤ q.encHdrPairs) (hk : k < n)
    (h : ∀ m', BetweenPairs m' → QuietTo q Idle (pairSamples [p]) m') :
    QuietTo q (fun _ => True) (pairSamples ((framePairs q code n).set (q.encHdrPairs + (1 + k)) p)) m := by
  have hbefore : ∀ m', BetweenPairs m' → QuietTo q BetweenPairs (pairSamples ((payloadPairs q code n).take k)) m' :=
    fun m' h' => quietTo_pairs (fun p hp m'' h'' => by
      obtain ⟨bit, rfl⟩ := mem_payloadPairs (List.mem_of_mem_take hp)
      exact quietTo_between hq h'') h'
  have hrest : ∀ m', Idle m' → QuietTo q (fun _ => True)
      (pairSamples ((payloadPairs q code n).drop (k + 1) ++ [(q.short, q.encStopSpace)])) m' :=
    fun m' h' => quietTo_rest hq (fun _ hp => mem_payloadPairs (List.mem_of_mem_drop hp)) _ h'
  rw [framePairs_set_payload hk, pairSamples_append, pairSamples_append, pairSamples_append, pairSamples_append]
  refine (quietTo_headerTrain hq hidle (by omega)).append ?_
  rintro _ rfl
  refine (quietTo_startPair hq hpairs).append fun m1 h1 => ?_
  exact (hbefore m1 (.inr h1.state)).append fun m2 h2 => (h m2 h2).append hrest

/-- Settles O60: the corrupted sample belongs to one pair of the frame, at which the machine gives the frame up. -/
theorem corruptedFrameGivesNoMessage : Obligations.CorruptedFrameGivesNoMessage := by
  intro s code n i e bad hwf hround hf hidle hlow hhigh he hbad
  have hq := distinctTimings_of_roundTrip hwf hround
  obtain ⟨-, -, -, -, -, -, hpairs, -, -⟩ := hround
  obtain ⟨hshort, hstart, hlong, hstop⟩ := hbad
  rw [waveform_eq] at he ⊢
  obtain ⟨k, p, p', hp, hp', hset⟩ := pairSamples_set bad he
  suffices hquiet : QuietTo s.cfg.q (fun _ => True) (pairSamples ((framePairs s.cfg.q code n.toNat).set k p')) s.cus by
    rw [hset]
    obtain ⟨-, -, t, ws, hrun, hws, -⟩ := hquiet.issueAll hf
    exact ⟨t, ws, hrun, hws⟩
  by_cases hk : k = s.cfg.q.encHdrPairs
  · subst hk
    rw [framePairs_start] at hp
    cases hp
    refine quietTo_set_start hq hidle hpairs ?_
    rcases hp' with ⟨hi, rfl⟩ | ⟨hi, rfl⟩
    · simp [hshort, hstart hi]
    · exact fun _ => hshort
  · obtain ⟨j, rfl⟩ : ∃ j, k = s.cfg.q.encHdrPairs + (1 + j) := ⟨k - s.cfg.q.encHdrPairs - 1, by omega⟩
    have hj : j < n.toNat := by omega
    rw [framePairs_payload hj] at hp
    cases hp
    refine quietTo_set_payload hq hidle hpairs hj fun m' h' =>
      quietTo_corrupted hq (bit := codeBit code (n.toNat - 1 - j)) h' hshort (hlong (by omega)) ?_
    rcases hp' with ⟨hi, rfl⟩ | ⟨hi, rfl⟩
    · exact .inl rfl
    · have hbelow := hstop (by omega) (by omega)
      exact .inr ⟨rfl, by simpa [CustomTiming.isStop] using hbelow⟩

end Sys2Proof.Machine
end
